-- ==== Sys2Proof/Word.lean ====
section
/-! DEFINITION. The word types of the block, from the widths of spec/00_scope.md rule R9.
Everything is an unsigned bit vector (R12); a bit string is a list of bits, first bit first (R13). -/

namespace Sys2Proof

/-- A 32-bit host word (`HOST_DW`, R9). -/
abbrev Word := BitVec 32

/-- One byte of a buffer. -/
abbrev Byte := BitVec 8

/-- A symbol (`SYM_W` = 8 bits, R9, R310). -/
abbrev Symbol := BitVec 8

/-- A byte offset in the host register space (`HOST_AW` = 18 bits, R9, R200). -/
abbrev Addr := BitVec 18

/-- An index into the node memory (9 bits, R9, R151). -/
abbrev NodeIdx := BitVec 9

/-- A node frequency (`NFREQ_W` = 40 bits, R9). -/
abbrev NFreq := BitVec 40

/-- A request of the host bus (format HOSTTXN, 51 bits, R305). -/
abbrev Txn := BitVec 51

/-- A response of the host bus (format HOSTTXN, 33 bits, R305). -/
abbrev TxnResponse := BitVec 33

/-- A bit string, its first bit at the head (R13). It is never read as a number unless a rule says how. -/
abbrev BitString := List Bool

end Sys2Proof
end

