-- ==== Sys2Proof/Config.lean ====
section
/-! DEFINITION. What one implementation of the block fixes (the sizing parameters of spec/00_scope.md R10), the
fixed sizes of R9, and the free values: constants with no body that stand for contents the spec leaves unspecified. -/

namespace Sys2Proof

/-- The two sizing parameters of R10, in bytes. "A model takes them as arguments": State carries them, so a
statement about every state is a statement about every pair of sizes (assumption 6). -/
structure Params where
  /-- `SYM_DEPTH`, the capacity of the symbol buffer. -/
  symDepth : Nat
  /-- `BYTE_DEPTH`, the capacity of the packed-byte buffer. -/
  byteDepth : Nat
  deriving DecidableEq, Repr

/-- The defaults of R10: 4096 bytes each. -/
def Params.default : Params := { symDepth := 4096, byteDepth := 4096 }

/-- The sizes R10 allows: "a multiple of 4 in the range 4..65536". -/
def Config.legalDepth (d : Nat) : Bool := d % 4 == 0 && decide (4 ≤ d) && decide (d ≤ 65536)

/-- Both sizes are ones R10 allows. -/
def Params.legal (p : Params) : Bool := Config.legalDepth p.symDepth && Config.legalDepth p.byteDepth

/-- `NODE_DEPTH` of R9: the node memory has 511 entries, indices 0..510. -/
abbrev Config.nodeDepth : Nat := 511

/-- `ALPHABET` of R9: symbols 0..255. -/
abbrev Config.alphabet : Nat := 256

/-- FREE VALUE (R1100, R1102; 93_implementation_defined.md U9, U10: "any value, one draw per byte"): the byte
that draw number `draw` leaves at index `i` of `SYM_BUF`. It has no body: nothing can be proved of its value
(assumption 3). -/
opaque Config.freeSymByte (draw i : Nat) : Byte

/-- FREE VALUE (R1100, R1102; U9, U10): the byte that draw number `draw` leaves at index `i` of `BYTE_BUF`
(assumption 3). -/
opaque Config.freeStreamByte (draw i : Nat) : Byte

end Sys2Proof
end

