-- ==== Sys2Proof/Syntax.lean ====
section
/-! DEFINITION. The operations of the block: one constructor per row of spec/opcode_table.json. HOST_READ, HOST_WRITE
and IRQ_ACK are host bus transactions (R401, R402, R405), SOFT_RESET is the host's CTRL action (R406), and BUILD,
GENCODES, PACK and UNPACK are the commands the engine performs (R501, R601, R701, R801). No command has an operand
field (R307). -/

namespace Sys2Proof

/-- One operation of the opcode table. -/
inductive Instr where
  /-- HOST_READ (R401): read the word at byte offset `addr`. -/
  | hostRead (addr : Addr)
  /-- HOST_WRITE (R402): write `wdata` at byte offset `addr`. -/
  | hostWrite (addr : Addr) (wdata : Word)
  /-- BUILD (R501): build the Huffman tree from `FREQ`. -/
  | build
  /-- GENCODES (R601): derive the code table from the tree. -/
  | gencodes
  /-- PACK (R701): pack the symbol buffer into the byte buffer. -/
  | pack
  /-- UNPACK (R801): decode the byte buffer into the symbol buffer. -/
  | unpack
  /-- SOFT_RESET (R406): a write to CTRL with bit 0 set. -/
  | softReset
  /-- IRQ_ACK (R405): a write of the mask `mask` to IRQ_PEND. -/
  | irqAck (mask : Word)
  deriving DecidableEq, Repr

end Sys2Proof
end

