-- ==== Sys2Proof/WellFormed.lean ====
section
/-! DEFINITION. Well-formed operations. Two kinds of HOST_WRITE request are listed as operations of their own: a write
to IRQ_PEND is IRQ_ACK (R405) and a write to CTRL with bit 0 set is SOFT_RESET (R406). A well-formed HOST_WRITE is
neither, so that every request word stands for one operation. -/

namespace Sys2Proof

/-- Byte offset of CTRL (R110). -/
abbrev ctrlAddr : Addr := 0x0000C

/-- Byte offset of CMD (R110). -/
abbrev cmdAddr : Addr := 0x00010

/-- Byte offset of IRQ_PEND (R110). -/
abbrev irqPendAddr : Addr := 0x0001C

/-- The checks on an operation: a HOST_WRITE is not an IRQ_ACK (R405) and not a SOFT_RESET (R406). -/
def Instr.wf : Instr → Bool
  | .hostRead _ => true
  | .hostWrite addr wdata => addr != irqPendAddr && !(addr == ctrlAddr && wdata.getLsbD 0)
  | .build => true
  | .gencodes => true
  | .pack => true
  | .unpack => true
  | .softReset => true
  | .irqAck _ => true

end Sys2Proof
end

