-- ==== Sys2Proof/Decode.lean ====
section
/-! DEFINITION. The decoders and the encoder of the three word formats of spec/30_encoding.md: HOSTTXN (R305), CMD
(R301, R302) and CTRL (R306). Which format a word has is told by where it stands (R300): a bus request is a HOSTTXN
word, the word latched in ENG is a CMD word, and the data of a write to CTRL is a CTRL word. -/

namespace Sys2Proof

/-- Why a word names no operation. -/
inductive DecodeError where
  /-- A command word R302 does not list: RSV not 0, or OP 0x0 or 0x5..0xF (R303). The engine reports ILLEGAL_CMD. -/
  | illegalCmd (w : Word)
  /-- A CTRL word with bit 0 clear "encodes nothing and does nothing" (R306). -/
  | emptyCtrl (w : Word)
  deriving DecidableEq, Repr

/-- A word with the format it is read in (R300). -/
inductive Encoded where
  /-- A host bus request (HOSTTXN). -/
  | txn (w : Txn)
  /-- A command word (CMD). -/
  | cmd (w : Word)
  /-- The data of a write to CTRL (CTRL). -/
  | ctrl (w : Word)
  deriving DecidableEq, Repr

/-- Field WRITE of a request: bit 50 (R305). -/
def txnWrite (w : Txn) : Bool := w.getLsbD 50

/-- Field ADDR of a request: bits 49:32 (R305). -/
def txnAddr (w : Txn) : Addr := w.extractLsb' 32 18

/-- Field WDATA of a request: bits 31:0 (R305). -/
def txnData (w : Txn) : Word := w.extractLsb' 0 32

/-- Field OP of a command word: bits 3:0 (R301). -/
def cmdOp (w : Word) : BitVec 4 := w.extractLsb' 0 4

/-- Field RSV of a command word: bits 31:4 (R301). -/
def cmdRsv (w : Word) : BitVec 28 := w.extractLsb' 4 28

/-- The CMD decoder (R302): legal exactly when RSV = 0 and OP is 1, 2, 3 or 4. -/
def decodeCmd (w : Word) : Except DecodeError Instr :=
  if cmdRsv w = 0 then
    if cmdOp w = 0x1 then .ok .build
    else if cmdOp w = 0x2 then .ok .gencodes
    else if cmdOp w = 0x3 then .ok .pack
    else if cmdOp w = 0x4 then .ok .unpack
    else .error (.illegalCmd w)
  else .error (.illegalCmd w)

/-- The CTRL decoder (R306): bit 0 set is SOFT_RESET, bits 31:1 are ignored. -/
def decodeCtrl (w : Word) : Except DecodeError Instr :=
  if w.getLsbD 0 then .ok .softReset else .error (.emptyCtrl w)

/-- The write requests: IRQ_PEND is IRQ_ACK (R405), CTRL with bit 0 set is SOFT_RESET (R406), and every other write
is HOST_WRITE (R402). -/
def decodeWrite (addr : Addr) (wdata : Word) : Instr :=
  if addr = irqPendAddr then .irqAck wdata
  else if addr = ctrlAddr then
    match decodeCtrl wdata with
    | .ok i => i
    | .error _ => .hostWrite addr wdata
  else .hostWrite addr wdata

/-- The HOSTTXN decoder (R305). Every 51-bit request is an operation; a read ignores WDATA. -/
def decodeTxn (w : Txn) : Instr :=
  if txnWrite w then decodeWrite (txnAddr w) (txnData w) else .hostRead (txnAddr w)

/-- The decoder: total on any word of any format, rejecting by name. -/
def decode : Encoded → Except DecodeError Instr
  | .txn w => .ok (decodeTxn w)
  | .cmd w => decodeCmd w
  | .ctrl w => decodeCtrl w

/-- The request word of a read or a write (R305): WRITE in bit 50, ADDR in bits 49:32, WDATA in bits 31:0. -/
def encodeTxn (write : Bool) (addr : Addr) (wdata : Word) : Txn :=
  ((BitVec.ofBool write).setWidth 51 <<< 50) ||| (addr.setWidth 51 <<< 32) ||| wdata.setWidth 51

/-- The response word of a transaction (R305): ERR in bit 32, RDATA in bits 31:0. -/
def encodeResponse (err : Bool) (rdata : Word) : TxnResponse :=
  ((BitVec.ofBool err).setWidth 33 <<< 32) ||| rdata.setWidth 33

/-- Field ERR of a response: bit 32 (R305). -/
def responseErr (r : TxnResponse) : Bool := r.getLsbD 32

/-- Field RDATA of a response: bits 31:0 (R305). -/
def responseData (r : TxnResponse) : Word := r.extractLsb' 0 32

/-- The encoder, from the encoding column of spec/opcode_table.json; ignored bits are encoded as 0. -/
def encode : Instr → Encoded
  | .hostRead addr => .txn (encodeTxn false addr 0)
  | .hostWrite addr wdata => .txn (encodeTxn true addr wdata)
  | .irqAck mask => .txn (encodeTxn true irqPendAddr mask)
  | .softReset => .ctrl 0x00000001
  | .build => .cmd 0x00000001
  | .gencodes => .cmd 0x00000002
  | .pack => .cmd 0x00000003
  | .unpack => .cmd 0x00000004

/-- One row of the opcode table: its mnemonic, its width in bits, and the bits it fixes. -/
structure OpcodeRow where
  mnemonic : String
  width : Nat
  mask : Nat
  value : Nat
  deriving DecidableEq, Repr

/-- The row of spec/opcode_table.json an operation belongs to. -/
def Instr.row : Instr → OpcodeRow
  | .hostRead _ => { mnemonic := "HOST_READ", width := 51, mask := 0x4000000000000, value := 0 }
  | .hostWrite _ _ => { mnemonic := "HOST_WRITE", width := 51, mask := 0x4000000000000, value := 0x4000000000000 }
  | .irqAck _ => { mnemonic := "IRQ_ACK", width := 51, mask := 0x7FFFF00000000, value := 0x4001C00000000 }
  | .softReset => { mnemonic := "SOFT_RESET", width := 32, mask := 0x00000001, value := 0x00000001 }
  | .build => { mnemonic := "BUILD", width := 32, mask := 0xFFFFFFFF, value := 0x00000001 }
  | .gencodes => { mnemonic := "GENCODES", width := 32, mask := 0xFFFFFFFF, value := 0x00000002 }
  | .pack => { mnemonic := "PACK", width := 32, mask := 0xFFFFFFFF, value := 0x00000003 }
  | .unpack => { mnemonic := "UNPACK", width := 32, mask := 0xFFFFFFFF, value := 0x00000004 }

/-- The width and the bits of an encoded word, as a number. -/
def Encoded.bits : Encoded → Nat × Nat
  | .txn w => (51, w.toNat)
  | .cmd w => (32, w.toNat)
  | .ctrl w => (32, w.toNat)

/-- The operation a word of the opcode table stands for. The table's 32-bit rows share their words (BUILD as a CMD
word and SOFT_RESET as a CTRL word are both 0x00000001): the row that fixes more bits wins, so a legal command word is
the command and any other odd word is SOFT_RESET (assumption 7). A wider word is a HOSTTXN request, whose bits above
50 are 0. -/
def decodeTableWord (nbits w : Nat) : Option Instr :=
  if nbits ≤ 32 then
    if w < 2 ^ 32 then
      match decodeCmd (BitVec.ofNat 32 w) with
      | .ok i => some i
      | .error _ =>
        match decodeCtrl (BitVec.ofNat 32 w) with
        | .ok i => some i
        | .error _ => none
    else none
  else if w < 2 ^ 51 then some (decodeTxn (BitVec.ofNat 51 w))
  else none

end Sys2Proof
end

