-- ==== Sys2Proof/Machine/State.lean ====
section
/-! DEFINITION. The state of the block as plain data: every register, memory and engine state of spec/10_state.md, the
host's pending port events and the bus response (the two ends of the host port), and the two counters behind the
unspecified buffer contents. Hidden working state (R155) exists only inside a command and is no field. -/

namespace Sys2Proof.Machine

open Sys2Proof

/-- One entry of the node memory (R151). -/
structure Node where
  leaf : Bool
  sym : Symbol
  freq : NFreq
  hasL : Bool
  left : NodeIdx
  hasR : Bool
  right : NodeIdx
  deriving DecidableEq, Repr

/-- One entry of the code memory (R152). -/
structure CodeEntry where
  valid : Bool
  len : BitVec 8
  bits : BitString
  deriving DecidableEq, Repr

/-- The engine state `ENG` (R101). `STATUS.BUSY` is not stored: it is 1 exactly when a command word is pending. -/
inductive Eng where
  /-- No command is pending. -/
  | idle
  /-- The command word `w` has been accepted and not yet performed. -/
  | pending (w : Word)
  deriving DecidableEq, Repr

/-- The values of `STATUS.ERRCODE` (R1001). Codes 9..15 are never reported (93_implementation_defined.md U17). -/
inductive ErrCode where
  /-- 0: success. -/
  | none
  /-- 1: BUILD found no present symbol (R503). -/
  | emptyInput
  /-- 2: PACK met a symbol with no code entry (R704). -/
  | unknownSymbol
  /-- 3: UNPACK ended inside a code, or got fewer bits than declared (R806). -/
  | truncatedStream
  /-- 4: GENCODES or UNPACK without a valid tree (R603, R802). -/
  | noTree
  /-- 5: UNPACK met a bit that selects an absent child (R804). -/
  | invalidPath
  /-- 6: a count register exceeds its buffer (R702, R802). -/
  | lengthRange
  /-- 7: the output does not fit its buffer (R705, R805). -/
  | outputOverflow
  /-- 8: the command word is illegal (R303). -/
  | illegalCmd
  deriving DecidableEq, Repr

/-- The response of a host transaction (R305): bus error and read data. -/
structure BusResponse where
  err : Bool
  rdata : Word
  deriving DecidableEq, Repr

/-- One event at the block's boundary. The list of them in State says in which order the host's transactions, the
engine's step and the reset input come (R20, R210), so every interleaving is some list (assumption 1). -/
inductive PortEvent where
  /-- The host issues the request `w` (R305). -/
  | txn (w : Txn)
  /-- The interleaving gives the next step to the engine (R20, R1104). -/
  | engine
  /-- The reset input `rst_n` is pulsed low (R1100). -/
  | rstN
  deriving DecidableEq, Repr

/-- The whole state of the block. -/
structure State where
  /-- `SYM_DEPTH` and `BYTE_DEPTH` (R10, R112): constants, never written. -/
  params : Params
  /-- `ENG` (R101), which also is `STATUS.BUSY` (R116). -/
  eng : Eng
  /-- `STATUS.DONE` (R117). -/
  done : Bool
  /-- `STATUS.ERR` (R118). -/
  err : Bool
  /-- `STATUS.TREE_VALID` (R119). -/
  treeValid : Bool
  /-- `STATUS.CODES_VALID` (R120). -/
  codesValid : Bool
  /-- `STATUS.ERRCODE` (R121). -/
  errcode : ErrCode
  /-- `STATUS.LASTOP` (R122). -/
  lastop : BitVec 4
  /-- `IRQ_EN` bits 2:0 (R123). -/
  irqEn : BitVec 3
  /-- `IRQ_PEND` bits 2:0 (R124). -/
  irqPend : BitVec 3
  /-- `ERR_INFO` (R125). -/
  errInfo : Word
  /-- `ERR_AUX` (R126). -/
  errAux : Word
  /-- `SYM_COUNT` (R127). -/
  symCount : Word
  /-- `BIT_COUNT` (R128). -/
  bitCount : Word
  /-- `BYTE_COUNT` (R129). -/
  byteCount : Word
  /-- `LEAF_COUNT` bits 8:0 (R130). -/
  leafCount : BitVec 9
  /-- `NODE_COUNT` bits 8:0 (R131). -/
  nodeCount : BitVec 9
  /-- `ROOT` bits 8:0 (R132). -/
  root : NodeIdx
  /-- `NODE_SEL` bits 8:0 (R133). -/
  nodeSel : NodeIdx
  /-- `CODE_SEL` bits 7:0 (R138). -/
  codeSel : Symbol
  /-- `FREQ` (R150): the nonzero entries, by symbol. An unlisted entry is 0. -/
  freq : List (Nat × Word)
  /-- `NODE` (R151): entries 0, 1, ... as far as any BUILD has written. Later entries read as the zero node. -/
  node : List Node
  /-- `CODE` (R152): the valid entries, by symbol. An unlisted entry is invalid. -/
  code : List (Nat × CodeEntry)
  /-- `SYM_BUF` (R153): the bytes written since the contents were last drawn. -/
  symBuf : List Host.Cell
  /-- `BYTE_BUF` (R154): the bytes written since the contents were last drawn. -/
  byteBuf : List Host.Cell
  /-- The model's own: the number of the draw that the unwritten bytes of `SYM_BUF` come from (R1100, R1102). -/
  symDraw : Nat
  /-- The model's own: the number of the draw that the unwritten bytes of `BYTE_BUF` come from (R1100, R1102). -/
  byteDraw : Nat
  /-- The model's own: the response of the last host transaction (R305); none before the first one. -/
  resp : Option BusResponse
  /-- The model's own: the events still to come at the block's boundary, next first (R20). -/
  inbox : List PortEvent
  deriving DecidableEq, Repr

/-- Why the machine stops. -/
inductive Fault where
  /-- Raised by GENCODES only, when the node memory reachable from `ROOT` holds a cycle, so that the traversal of R601
  never ends and the engine step of R1104 has no final state. No tree BUILD leaves has a cycle (R156), so no run from
  reset raises it. Safe: the model stops where the rule gives no outcome. -/
  | codeWalkNeverEnds
  deriving DecidableEq, Repr

/-- Why an instruction has no meaning. -/
inductive Refusal where
  /-- Raised by exec for an instruction that has no meaning yet. Safe. No arm raises it: every row is modelled. -/
  | notModelled (mnemonic : String)
  deriving DecidableEq, Repr

/-- The state right after power-on with the sizes `p` (R160, R1100): every register 0, the engine idle, `FREQ` all 0,
and the buffers unwritten, their bytes those of draw 0. -/
def State.resetWith (p : Params) : State where
  params := p
  eng := .idle
  done := false
  err := false
  treeValid := false
  codesValid := false
  errcode := .none
  lastop := 0
  irqEn := 0
  irqPend := 0
  errInfo := 0
  errAux := 0
  symCount := 0
  bitCount := 0
  byteCount := 0
  leafCount := 0
  nodeCount := 0
  root := 0
  nodeSel := 0
  codeSel := 0
  freq := []
  node := []
  code := []
  symBuf := []
  byteBuf := []
  symDraw := 0
  byteDraw := 0
  resp := Option.none
  inbox := []

/-- The machine right after power-on reset, with the default sizes of R10. -/
def State.reset : State := State.resetWith Params.default

end Sys2Proof.Machine
end

