-- ==== Sys2Proof/Machine/Flags.lean ====
section
/-! DEFINITION. The flags: `STATUS` and its fields (R115..R122), the error codes (R1001), the interrupt flags and the
interrupt output (R123, R124, R407, R1010). -/

namespace Sys2Proof.Machine

open Sys2Proof

/-- `STATUS.BUSY` (R101, R116): a command word is pending. -/
def State.busy (s : State) : Bool :=
  match s.eng with
  | .idle => false
  | .pending _ => true

/-- The number of an error code (R1001). -/
def ErrCode.code : ErrCode → BitVec 4
  | .none => 0
  | .emptyInput => 1
  | .unknownSymbol => 2
  | .truncatedStream => 3
  | .noTree => 4
  | .invalidPath => 5
  | .lengthRange => 6
  | .outputOverflow => 7
  | .illegalCmd => 8

/-- The field value `v` placed at bit `lo` of a register word; the word's other bits are 0 (R103). -/
def fieldAt {n : Nat} (v : BitVec n) (lo : Nat) : Word := v.setWidth 32 <<< lo

/-- The one-bit field `b` placed at bit `lo` of a register word. -/
def bitAt (b : Bool) (lo : Nat) : Word := fieldAt (BitVec.ofBool b) lo

/-- `STATUS` as the host reads it (R115): LASTOP 19:16, ERRCODE 11:8, CODES_VALID 4, TREE_VALID 3, ERR 2, DONE 1,
BUSY 0. -/
def State.statusWord (s : State) : Word :=
  fieldAt s.lastop 16 ||| fieldAt s.errcode.code 8 ||| bitAt s.codesValid 4 ||| bitAt s.treeValid 3 ||| bitAt s.err 2 |||
    bitAt s.done 1 ||| bitAt s.busy 0

/-- Bit OK of the interrupt registers (R123, R124). -/
abbrev irqOk : BitVec 3 := 0b001

/-- Bit ERR of the interrupt registers (R123, R124). -/
abbrev irqErr : BitVec 3 := 0b010

/-- Bit BUSYWR of the interrupt registers (R123, R124). -/
abbrev irqBusyWr : BitVec 3 := 0b100

/-- The interrupt output `irq` (R407): some pending flag is enabled. -/
def State.irq (s : State) : Bool :=
  (s.irqPend.getLsbD 0 && s.irqEn.getLsbD 0) || (s.irqPend.getLsbD 1 && s.irqEn.getLsbD 1) ||
    (s.irqPend.getLsbD 2 && s.irqEn.getLsbD 2)

/-- Set pending flags (R124); flags already set stay set. -/
def State.setIrq (s : State) (flags : BitVec 3) : State := { s with irqPend := s.irqPend ||| flags }

/-- Clear the pending flags a host write names (R124, R405): write 1 to clear, bits 31:3 ignored. -/
def State.clearIrq (s : State) (mask : Word) : State := { s with irqPend := s.irqPend &&& ~~~(mask.extractLsb' 0 3) }

end Sys2Proof.Machine
end

