-- ==== Sys2Proof/Machine/Ops.lean ====
section
/-! DEFINITION. The shared operations: the sparse memories, reads and writes of the five internal memories, the bus
response, command acceptance (R404), completion (R1104), raising a command error (the block's exception, R1005..R1007),
and the two resets (R160, R1100..R1102). -/

namespace Sys2Proof.Machine

open Sys2Proof

/-! ## Sparse memories: (index, value) pairs, indices rising -/

/-- The value listed at index `a`, if any. -/
def Cells.get {α : Type} : List (Nat × α) → Nat → Option α
  | [], _ => none
  | (k, v) :: m, a => if a = k then some v else Cells.get m a

/-- List the value `v` at index `a`. -/
def Cells.put {α : Type} : List (Nat × α) → Nat → α → List (Nat × α)
  | [], a, v => [(a, v)]
  | (k, w) :: m, a, v =>
    if a < k then (a, v) :: (k, w) :: m
    else if a = k then (a, v) :: m
    else (k, w) :: Cells.put m a v

/-- Unlist index `a`. -/
def Cells.drop {α : Type} (m : List (Nat × α)) (a : Nat) : List (Nat × α) := m.filter fun c => c.1 != a

/-- List the values `vs` at indices `a`, `a + 1`, ... -/
def Cells.putAll {α : Type} : List (Nat × α) → Nat → List α → List (Nat × α)
  | m, _, [] => m
  | m, a, v :: vs => Cells.putAll (Cells.put m a v) (a + 1) vs

/-- The indices rise strictly and lie below `bound`. -/
def Cells.sorted {α : Type} (bound : Nat) : List (Nat × α) → Bool
  | [] => true
  | [(k, _)] => decide (k < bound)
  | (k, _) :: (l, w) :: m => decide (k < l) && Cells.sorted bound ((l, w) :: m)

/-! ## The internal memories -/

/-- `FREQ[k]` (R150): an unlisted entry is 0. -/
def State.freqAt (s : State) (k : Nat) : Word := (Cells.get s.freq k).getD 0

/-- `FREQ[k] <- v` (R150): zero unlists the entry. -/
def State.setFreq (s : State) (k : Nat) (v : Word) : State :=
  { s with freq := if v = 0 then Cells.drop s.freq k else Cells.put s.freq k v }

/-- The all-zero node: what an entry no BUILD has written reads as (assumption 5). -/
def Node.zero : Node := { leaf := false, sym := 0, freq := 0, hasL := false, left := 0, hasR := false, right := 0 }

/-- Entry `k` of a node memory (R151). -/
def nodeAt (N : List Node) (k : Nat) : Node := N.getD k Node.zero

/-- The invalid code entry of R601: `valid = 0, len = 0, bits = ""`. -/
def CodeEntry.invalid : CodeEntry := { valid := false, len := 0, bits := [] }

/-- `CODE[c]` (R152): an unlisted entry is invalid. -/
def State.codeAt (s : State) (c : Symbol) : CodeEntry := (Cells.get s.code c.toNat).getD CodeEntry.invalid

/-- `SYM_BUF[i]` (R153): an unwritten byte is a draw (R1100, R1102). -/
def State.symAt (s : State) (i : Nat) : Byte := (Cells.get s.symBuf i).getD (Config.freeSymByte s.symDraw i)

/-- `BYTE_BUF[i]` (R154): an unwritten byte is a draw (R1100, R1102). -/
def State.byteAt (s : State) (i : Nat) : Byte := (Cells.get s.byteBuf i).getD (Config.freeStreamByte s.byteDraw i)

/-- `bit(i)` (R16, R203): bit `i` of the packed stream, the MSB of each byte first. -/
def State.streamBit (s : State) (i : Nat) : Bool := (s.byteAt (i / 8)).getLsbD (7 - i % 8)

/-- The big-endian word of four bytes (R202). -/
def joinBytes (b0 b1 b2 b3 : Byte) : Word :=
  (b0.setWidth 32 <<< 24) ||| (b1.setWidth 32 <<< 16) ||| (b2.setWidth 32 <<< 8) ||| b3.setWidth 32

/-- The four bytes of a word, the byte of bits 31:24 first (R202). -/
def splitWord (v : Word) : List Byte := [v.extractLsb' 24 8, v.extractLsb' 16 8, v.extractLsb' 8 8, v.extractLsb' 0 8]

/-- Word `w` of the `SYM_BUF` window (R202). -/
def State.symWordAt (s : State) (w : Nat) : Word :=
  joinBytes (s.symAt (4 * w)) (s.symAt (4 * w + 1)) (s.symAt (4 * w + 2)) (s.symAt (4 * w + 3))

/-- Word `w` of the `BYTE_BUF` window (R202). -/
def State.byteWordAt (s : State) (w : Nat) : Word :=
  joinBytes (s.byteAt (4 * w)) (s.byteAt (4 * w + 1)) (s.byteAt (4 * w + 2)) (s.byteAt (4 * w + 3))

/-- Write `SYM_BUF[a ..]` (R402, R808). -/
def State.writeSyms (s : State) (a : Nat) (bs : List Byte) : State := { s with symBuf := Cells.putAll s.symBuf a bs }

/-- Write `BYTE_BUF[a ..]` (R402, R706). -/
def State.writeBytes (s : State) (a : Nat) (bs : List Byte) : State := { s with byteBuf := Cells.putAll s.byteBuf a bs }

/-- A node memory as BUILD leaves it: at most 511 entries (R151), the last of them not the zero node. -/
def nodeMemWf (N : List Node) : Bool := decide (N.length ≤ Config.nodeDepth) && N.all fun n => n != Node.zero

/-- The canonical form of all memories: indices rise strictly and lie in the memory, and no entry equals what an
unlisted one reads as (a byte of a buffer has no fixed such value). Equal memories are then equal lists. -/
def Memory.wf (s : State) : Bool :=
  Cells.sorted Config.alphabet s.freq && s.freq.all (fun c => c.2 != 0) && nodeMemWf s.node &&
    Cells.sorted Config.alphabet s.code && s.code.all (fun c => c.2 != CodeEntry.invalid) &&
    Cells.sorted s.params.symDepth s.symBuf && Cells.sorted s.params.byteDepth s.byteBuf

/-! ## Bits and counts -/

/-- `ceil8(n)` (R12). -/
def ceil8 (n : Nat) : Nat := (n + 7) / 8

/-- The number whose binary digits are `bs`, the first bit the most significant. -/
def bitsToNat (bs : BitString) : Nat := bs.foldl (fun n b => 2 * n + b.toNat) 0

/-- Bits `a .. a + n - 1` of a bit string, bits past its end taken as 0 (R140, R701). -/
def bitWindow (bs : BitString) (a n : Nat) : BitString := (List.range n).map fun i => bs.getD (a + i) false

/-! ## The host port -/

/-- The 33-bit word in which the bus carries a response (R305). -/
def BusResponse.word (r : BusResponse) : TxnResponse := encodeResponse r.err r.rdata

/-- The response a 33-bit word carries (R305). -/
def BusResponse.ofWord (w : TxnResponse) : BusResponse := { err := responseErr w, rdata := responseData w }

/-- End a host transaction with the response `(err, rdata)` (R305). -/
def State.respond (s : State) (err : Bool) (rdata : Word) : State := { s with resp := some { err, rdata } }

/-! ## Commands -/

/-- `accept(v)` (R404): the command word is latched, and the fields of the last completion are cleared. -/
def State.accept (s : State) (v : Word) : State :=
  { s with eng := .pending v, done := false, err := false, errcode := .none, lastop := cmdOp v, errInfo := 0, errAux := 0 }

/-- Completion on `succeed` (R1104). -/
def State.succeed (s : State) : State :=
  { s with eng := .idle, done := true, err := false, errcode := .none, irqPend := s.irqPend ||| irqOk }

/-- A command error: its code and its two information words (R15, R1001). -/
structure CmdFail where
  code : ErrCode
  info : Word
  aux : Word
  deriving DecidableEq, Repr

/-- Taking the block's exception (R1005..R1007): a command error on the state before the command, whose updates are
thereby discarded. Only the completion fields change. -/
def State.raiseError (s : State) (f : CmdFail) : State :=
  { s with eng := .idle, done := true, err := true, errcode := f.code, errInfo := f.info, errAux := f.aux, irqPend := s.irqPend ||| irqErr }

/-- Complete a command that ran on `s`: commit its state, or discard it and record the error (R15, R1104). -/
def State.complete (s : State) : Except CmdFail State → State
  | .ok t => t.succeed
  | .error f => s.raiseError f

/-- The performance of an illegal command word (R303): `ILLEGAL_CMD` with the word as information. -/
def performIllegal (w : Word) (s : State) : Host.Outcome State Fault Refusal :=
  .next (s.raiseError { code := .illegalCmd, info := w, aux := 0 })

/-! ## Resets -/

/-- The registers that both resets clear (R160): the engine, `STATUS`, the interrupt registers, the counts, the tree
registers, the selectors and `FREQ`. -/
def State.clearRegs (s : State) : State :=
  { s with
    eng := .idle, done := false, err := false, treeValid := false, codesValid := false, errcode := .none, lastop := 0,
    irqEn := 0, irqPend := 0, errInfo := 0, errAux := 0, symCount := 0, bitCount := 0, byteCount := 0,
    leafCount := 0, nodeCount := 0, root := 0, nodeSel := 0, codeSel := 0, freq := [] }

/-- Draw every byte of `SYM_BUF` anew (R1102). -/
def State.drawSyms (s : State) : State := { s with symBuf := [], symDraw := s.symDraw + 1 }

/-- Draw every byte of `BYTE_BUF` anew (R1102). -/
def State.drawBytes (s : State) : State := { s with byteBuf := [], byteDraw := s.byteDraw + 1 }

/-- `soft_reset()` (R406, R1101, R1102): the registers are cleared; an aborted PACK leaves `BYTE_BUF` unspecified and
an aborted UNPACK leaves `SYM_BUF` unspecified; `NODE`, `CODE` and the buffers are otherwise unchanged. -/
def State.softReset (s : State) : State :=
  if s.eng = .pending 0x00000003 then s.clearRegs.drawBytes
  else if s.eng = .pending 0x00000004 then s.clearRegs.drawSyms
  else s.clearRegs

/-- Power-on reset (R160, R1100): the registers are cleared, the memories are unspecified. `NODE` and `CODE`, which
cannot be observed, are emptied (assumption 5), and both buffers are drawn anew. -/
def State.powerOn (s : State) : State := { s.clearRegs.drawSyms.drawBytes with node := [], code := [], resp := none }

end Sys2Proof.Machine
end

