-- ==== Sys2Proof/Machine/Build.lean ====
section
/-! DEFINITION. BUILD, the tree builder (spec/41_tree_builder.md R501..R512). The priority collection is the list of
its node indices; only its minimum by (frequency, index) is ever used (R17, R508, R511). -/

namespace Sys2Proof.Machine

open Sys2Proof

/-- `P` of R501: the present symbols of a frequency table, in ascending order. -/
def presentSyms (f : Nat → Word) : List Nat := (List.range Config.alphabet).filter fun c => f c != 0

/-- The leaf of symbol `c` (R502): its frequency widened to 40 bits. -/
def leafNode (f : Nat → Word) (c : Nat) : Node :=
  { leaf := true, sym := BitVec.ofNat 8 c, freq := (f c).setWidth 40, hasL := false, left := 0, hasR := false, right := 0 }

/-- The root over a single leaf (R505): the leaf is its left child and it has no right child. -/
def singleRoot (n : Node) : Node :=
  { leaf := false, sym := 0, freq := n.freq, hasL := true, left := 0, hasR := false, right := 0 }

/-- The internal node over `a`, removed first, and `b`, removed second (R504). -/
def innerNode (N : List Node) (a b : Nat) : Node :=
  { leaf := false, sym := 0, freq := (nodeAt N a).freq + (nodeAt N b).freq, hasL := true, left := BitVec.ofNat 9 a,
    hasR := true, right := BitVec.ofNat 9 b }

/-- `key(a) < key(b)` (R17, R508): by frequency, then by index. -/
def keyLt (N : List Node) (a b : Nat) : Bool :=
  decide ((nodeAt N a).freq < (nodeAt N b).freq) || ((nodeAt N a).freq == (nodeAt N b).freq && decide (a < b))

/-- `argmin` of R17 over `best` and a list of further indices. -/
def argminKey (N : List Node) : Nat → List Nat → Nat
  | best, [] => best
  | best, q :: Q => argminKey N (if keyLt N q best then q else best) Q

/-- The merge loop of R501 and R504 on the working nodes `N`, whose length is `next`, and the collection `Q`. It runs
while two indices remain; `fuel` bounds the rounds, of which there are |Q| - 1 (R506). -/
def mergeLoop : Nat → List Node → List Nat → List Node
  | 0, N, _ => N
  | _ + 1, N, [] => N
  | fuel + 1, N, q :: Q =>
    let a := argminKey N q Q
    match (q :: Q).erase a with
    | [] => N
    | r :: R =>
      let b := argminKey N r R
      mergeLoop fuel (N ++ [innerNode N a b]) ((r :: R).erase b ++ [N.length])

/-- The nodes BUILD makes from a frequency table (R501): none for an empty alphabet (R503), the two nodes of R505 for
one symbol, and the merged tree of R504 for more. -/
def buildTree (f : Nat → Word) : Option (List Node) :=
  match presentSyms f with
  | [] => none
  | [c] => some [leafNode f c, singleRoot (leafNode f c)]
  | c :: d :: P => some (mergeLoop (P.length + 2) ((c :: d :: P).map (leafNode f)) (List.range (P.length + 2)))

/-- The updates of BUILD (R501, R509, R510); node entries past the tree are unchanged. -/
def runBuild (s : State) : Except CmdFail State :=
  match buildTree s.freqAt with
  | none => .error { code := .emptyInput, info := 0, aux := 0 }
  | some N => .ok
      { s with
        node := N ++ s.node.drop N.length
        leafCount := BitVec.ofNat 9 (presentSyms s.freqAt).length
        nodeCount := BitVec.ofNat 9 N.length
        root := BitVec.ofNat 9 (N.length - 1)
        treeValid := true
        codesValid := false }

/-- BUILD (R501): the engine's performance of command word 1. -/
def execBuild (s : State) : Host.Outcome State Fault Refusal := .next (s.complete (runBuild s))

end Sys2Proof.Machine
end

