-- ==== Sys2Proof/Machine/GenCodes.lean ====
section
/-! DEFINITION. GENCODES, the code-table generator (spec/42_code_table.md R601..R608). -/

namespace Sys2Proof.Machine

open Sys2Proof

/-- A bound on the number of nodes of a path without a repeated node: an index has 9 bits. -/
def walkFuel : Nat := 512

/-- The traversal of R601 and R602 from node `k` with the path `p` so far: the leaves met, left subtree first, each
with its path. None when a path of more than `fuel` nodes exists, which with `walkFuel` means a cycle: the traversal
would never end (assumption 11). -/
def codeWalk (N : List Node) : Nat → Nat → BitString → Option (List (Symbol × BitString))
  | 0, _, _ => none
  | fuel + 1, k, p =>
    let n := nodeAt N k
    if n.leaf then some [(n.sym, p)]
    else
      let l := if n.hasL then codeWalk N fuel n.left.toNat (p ++ [false]) else some []
      let r := if n.hasR then codeWalk N fuel n.right.toNat (p ++ [true]) else some []
      match l with
      | none => none
      | some ls =>
        match r with
        | none => none
        | some rs => some (ls ++ rs)

/-- The entry of a leaf reached by the path `p` (R602). -/
def codeEntry (p : BitString) : CodeEntry := { valid := true, len := BitVec.ofNat 8 p.length, bits := p }

/-- The code memory after the traversal met these leaves (R601, R604): every other entry is invalid. -/
def codeTable (leaves : List (Symbol × BitString)) : List (Nat × CodeEntry) :=
  leaves.foldl (fun C l => Cells.put C l.1.toNat (codeEntry l.2)) []

/-- GENCODES (R601): the engine's performance of command word 2. -/
def execGencodes (s : State) : Host.Outcome State Fault Refusal :=
  if s.treeValid then
    match codeWalk s.node walkFuel s.root.toNat [] with
    | none => .fault .codeWalkNeverEnds
    | some leaves => .next (s.complete (.ok { s with code := codeTable leaves, codesValid := true }))
  else .next (s.complete (.error { code := .noTree, info := 0, aux := 0 }))

end Sys2Proof.Machine
end

