-- ==== Sys2Proof/Machine/Operands.lean ====
section
/-! DEFINITION. The host address map (R110, R205, R208) and what each register or window reads as and does when
written (R111..R154, R400, R402). -/

namespace Sys2Proof.Machine

open Sys2Proof

/-- What an aligned offset names (R110). -/
inductive Target where
  | id | symDepth | byteDepth | ctrl | cmd | status | irqEn | irqPend | errInfo | errAux | symCount | bitCount
  | byteCount | leafCount | nodeCount | root | nodeSel | nodeInfo | nodeLink | nodeFreqLo | nodeFreqHi | codeSel
  | codeLen
  /-- `CODE_BITSk`. -/
  | codeBits (k : Nat)
  /-- `FREQ[k]`. -/
  | freq (k : Nat)
  /-- Word `w` of the `SYM_BUF` window. -/
  | symWord (w : Nat)
  /-- Word `w` of the `BYTE_BUF` window. -/
  | byteWord (w : Nat)
  /-- An offset R110 does not list (R205). -/
  | unmapped
  deriving DecidableEq, Repr

/-- The single registers of R110, by offset. -/
def regMap : List (Nat × Target) :=
  [(0x000, .id), (0x004, .symDepth), (0x008, .byteDepth), (0x00C, .ctrl), (0x010, .cmd), (0x014, .status),
    (0x018, .irqEn), (0x01C, .irqPend), (0x020, .errInfo), (0x024, .errAux), (0x028, .symCount), (0x02C, .bitCount)] ++
  [(0x030, .byteCount), (0x034, .leafCount), (0x038, .nodeCount), (0x03C, .root), (0x040, .nodeSel), (0x044, .nodeInfo),
    (0x048, .nodeLink), (0x04C, .nodeFreqLo), (0x050, .nodeFreqHi), (0x060, .codeSel), (0x064, .codeLen)]

/-- The address map (R110, R208) at an aligned offset. -/
def target (p : Params) (a : Addr) : Target :=
  let n := a.toNat
  if n < 0x080 then (Cells.get regMap n).getD .unmapped
  else if n < 0x0A0 then .codeBits ((n - 0x080) / 4)
  else if n < 0x400 then .unmapped
  else if n < 0x800 then .freq ((n - 0x400) / 4)
  else if n < 0x10000 then .unmapped
  else if n < 0x20000 then (if n < 0x10000 + p.symDepth then .symWord ((n - 0x10000) / 4) else .unmapped)
  else if n < 0x30000 then (if n < 0x20000 + p.byteDepth then .byteWord ((n - 0x20000) / 4) else .unmapped)
  else .unmapped

/-- `addr[1:0] != 0` (R206). -/
def misaligned (a : Addr) : Bool := a.extractLsb' 0 2 != 0

/-- `gated(a)` (R400, R1108): reads return 0 while busy. -/
def Target.gated : Target → Bool
  | .id | .symDepth | .byteDepth | .ctrl | .cmd | .status | .irqEn | .irqPend | .nodeSel | .codeSel | .unmapped => false
  | .errInfo | .errAux | .symCount | .bitCount | .byteCount | .leafCount | .nodeCount | .root | .nodeInfo | .nodeLink
  | .nodeFreqLo | .nodeFreqHi | .codeLen | .codeBits _ | .freq _ | .symWord _ | .byteWord _ => true

/-- `busy_ok(a)` (R400): writes are accepted while busy. -/
def Target.busyOk : Target → Bool
  | .ctrl | .irqEn | .irqPend => true
  | .id | .symDepth | .byteDepth | .cmd | .status | .nodeSel | .codeSel | .unmapped | .errInfo | .errAux | .symCount
  | .bitCount | .byteCount | .leafCount | .nodeCount | .root | .nodeInfo | .nodeLink | .nodeFreqLo | .nodeFreqHi
  | .codeLen | .codeBits _ | .freq _ | .symWord _ | .byteWord _ => false

/-- `ID` (R111): "HUFF". -/
def idWord : Word := 0x48554646

/-- `sel` of R134: the selected node is one of a valid tree. -/
def State.nodeSelected (s : State) : Bool := s.treeValid && decide (s.nodeSel.toNat < s.nodeCount.toNat)

/-- The selected node (R134). -/
def State.selNode (s : State) : Node := nodeAt s.node s.nodeSel.toNat

/-- `NODE_INFO` (R134): VALID 31, LEAF 30, HAS_L 29, HAS_R 28, SYM 7:0. -/
def State.nodeInfoWord (s : State) : Word :=
  if s.nodeSelected then
    bitAt true 31 ||| bitAt s.selNode.leaf 30 ||| bitAt s.selNode.hasL 29 ||| bitAt s.selNode.hasR 28 |||
      fieldAt s.selNode.sym 0
  else 0

/-- `NODE_LINK` (R135): RIGHT 24:16, LEFT 8:0. -/
def State.nodeLinkWord (s : State) : Word :=
  if s.nodeSelected then fieldAt s.selNode.right 16 ||| fieldAt s.selNode.left 0 else 0

/-- `NODE_FREQ_LO` (R136). -/
def State.nodeFreqLoWord (s : State) : Word := if s.nodeSelected then s.selNode.freq.extractLsb' 0 32 else 0

/-- `NODE_FREQ_HI` (R137). -/
def State.nodeFreqHiWord (s : State) : Word :=
  if s.nodeSelected then (s.selNode.freq.extractLsb' 32 8).setWidth 32 else 0

/-- The code entry of the selected symbol (R139). -/
def State.selCode (s : State) : CodeEntry := s.codeAt s.codeSel

/-- `csel` of R139: the selected symbol has an entry in a valid code table. -/
def State.codeSelected (s : State) : Bool := s.codesValid && s.selCode.valid

/-- `CODE_LEN` (R139): VALID 31, LEN 7:0. -/
def State.codeLenWord (s : State) : Word := if s.codeSelected then bitAt true 31 ||| fieldAt s.selCode.len 0 else 0

/-- `CODE_BITSk` (R140): code bits 32k .. 32k + 31, the first of them in bit 31. -/
def State.codeBitsWord (s : State) (k : Nat) : Word :=
  if s.codeSelected then BitVec.ofNat 32 (bitsToNat (bitWindow s.selCode.bits (32 * k) 32)) else 0

/-- `regread(a)` (R400): what a register or window word reads as when it is not gated. -/
def State.regRead (s : State) : Target → Word
  | .id => idWord
  | .symDepth => BitVec.ofNat 32 s.params.symDepth
  | .byteDepth => BitVec.ofNat 32 s.params.byteDepth
  | .ctrl => 0
  | .cmd => 0
  | .status => s.statusWord
  | .irqEn => s.irqEn.setWidth 32
  | .irqPend => s.irqPend.setWidth 32
  | .errInfo => s.errInfo
  | .errAux => s.errAux
  | .symCount => s.symCount
  | .bitCount => s.bitCount
  | .byteCount => s.byteCount
  | .leafCount => s.leafCount.setWidth 32
  | .nodeCount => s.nodeCount.setWidth 32
  | .root => s.root.setWidth 32
  | .nodeSel => s.nodeSel.setWidth 32
  | .nodeInfo => s.nodeInfoWord
  | .nodeLink => s.nodeLinkWord
  | .nodeFreqLo => s.nodeFreqLoWord
  | .nodeFreqHi => s.nodeFreqHiWord
  | .codeSel => s.codeSel.setWidth 32
  | .codeLen => s.codeLenWord
  | .codeBits k => s.codeBitsWord k
  | .freq k => s.freqAt k
  | .symWord w => s.symWordAt w
  | .byteWord w => s.byteWordAt w
  | .unmapped => 0

/-- The effect of an accepted write of `v` (the case list of R402). CONST and RO registers and unmapped offsets ignore
it. -/
def State.regWrite (s : State) (v : Word) : Target → State
  | .ctrl => if v.getLsbD 0 then s.softReset else s
  | .cmd => s.accept v
  | .irqEn => { s with irqEn := v.extractLsb' 0 3 }
  | .irqPend => s.clearIrq v
  | .symCount => { s with symCount := v }
  | .bitCount => { s with bitCount := v }
  | .byteCount => { s with byteCount := v }
  | .nodeSel => { s with nodeSel := v.extractLsb' 0 9 }
  | .codeSel => { s with codeSel := v.extractLsb' 0 8 }
  | .freq k => s.setFreq k v
  | .symWord w => s.writeSyms (4 * w) (splitWord v)
  | .byteWord w => s.writeBytes (4 * w) (splitWord v)
  | .id | .symDepth | .byteDepth | .status | .errInfo | .errAux | .leafCount | .nodeCount | .root | .nodeInfo
  | .nodeLink | .nodeFreqLo | .nodeFreqHi | .codeLen | .codeBits _ | .unmapped => s

end Sys2Proof.Machine
end

