-- ==== Sys2Proof/Machine/HostPort.lean ====
section
/-! DEFINITION. The meanings of the host-side operations (spec/40_host_access.md): HOST_READ (R401), HOST_WRITE (R402),
IRQ_ACK (R405) and SOFT_RESET (R406). Each ends with its bus response. -/

namespace Sys2Proof.Machine

open Sys2Proof

/-- The read data of an aligned read (R401): 0 for a gated register while busy. -/
def State.readData (s : State) (addr : Addr) : Word :=
  if s.busy && (target s.params addr).gated then 0 else s.regRead (target s.params addr)

/-- HOST_READ (R401). The only change is the response. -/
def execHostRead (addr : Addr) (s : State) : Host.Outcome State Fault Refusal :=
  if misaligned addr then .next (s.respond true 0) else .next (s.respond false (s.readData addr))

/-- HOST_WRITE (R402, R1107): a misaligned write is a bus error, a write while busy to anything but CTRL, IRQ_EN and
IRQ_PEND is dropped and flagged, and any other write takes effect. -/
def execHostWrite (addr : Addr) (wdata : Word) (s : State) : Host.Outcome State Fault Refusal :=
  if misaligned addr then .next (s.respond true 0)
  else if s.busy && !(target s.params addr).busyOk then .next ((s.setIrq irqBusyWr).respond false 0)
  else .next ((s.regWrite wdata (target s.params addr)).respond false 0)

/-- IRQ_ACK (R405): clear the pending flags the mask names; accepted while busy. -/
def execIrqAck (mask : Word) (s : State) : Host.Outcome State Fault Refusal :=
  .next ((s.clearIrq mask).respond false 0)

/-- SOFT_RESET (R406): accepted while busy. -/
def execSoftReset (s : State) : Host.Outcome State Fault Refusal := .next (s.softReset.respond false 0)

end Sys2Proof.Machine
end

