-- ==== Sys2Proof/Machine/Pack.lean ====
section
/-! DEFINITION. PACK, the bit packer (spec/43_bit_packer.md R701..R709). -/

namespace Sys2Proof.Machine

open Sys2Proof

/-- The symbol loop of R701 over the indices `js`, with the length `n` and the stream `T` so far: the checks come in
the order of R708. -/
def packLoop (s : State) : List Nat → Nat → BitString → Except CmdFail (Nat × BitString)
  | [], n, T => .ok (n, T)
  | j :: js, n, T =>
    let c := s.codeAt (s.symAt j)
    if !s.codesValid || !c.valid then
      .error { code := .unknownSymbol, info := BitVec.ofNat 32 j, aux := (s.symAt j).setWidth 32 }
    else if n + c.len.toNat > 8 * s.params.byteDepth then
      .error { code := .outputOverflow, info := BitVec.ofNat 32 j, aux := (s.symAt j).setWidth 32 }
    else packLoop s js (n + c.len.toNat) (T ++ c.bits)

/-- Byte `k` of the stream `T` of `n` bits (R706): MSB first, bits from `n` on are 0. -/
def packByte (n : Nat) (T : BitString) (k : Nat) : Byte :=
  BitVec.ofNat 8 (bitsToNat (bitWindow (T.take n) (8 * k) 8))

/-- The bytes of the stream `T` of `n` bits (R706). -/
def packBytes (n : Nat) (T : BitString) : List Byte := (List.range (ceil8 n)).map (packByte n T)

/-- The updates of PACK (R701, R707), after the length check of R702. -/
def runPack (s : State) : Except CmdFail State :=
  if s.symCount.toNat > s.params.symDepth then
    .error { code := .lengthRange, info := s.symCount, aux := BitVec.ofNat 32 s.params.symDepth }
  else
    match packLoop s (List.range s.symCount.toNat) 0 [] with
    | .error f => .error f
    | .ok (n, T) => .ok
        { s.writeBytes 0 (packBytes n T) with bitCount := BitVec.ofNat 32 n, byteCount := BitVec.ofNat 32 (ceil8 n) }

/-- PACK (R701): the engine's performance of command word 3. -/
def execPack (s : State) : Host.Outcome State Fault Refusal := .next (s.complete (runPack s))

end Sys2Proof.Machine
end

