-- ==== Sys2Proof/Machine/Unpack.lean ====
section
/-! DEFINITION. UNPACK, the bit unpacker and tree decoder (spec/44_bit_unpacker_decoder.md R801..R812). -/

namespace Sys2Proof.Machine

open Sys2Proof

/-- The node a bit leads to from node `cur`, if it has that child (R803): left on 0, right on 1. -/
def childOf (N : List Node) (cur : NodeIdx) (b : Bool) : Option NodeIdx :=
  let n := nodeAt N cur.toNat
  if b then (if n.hasR then some n.right else none) else (if n.hasL then some n.left else none)

/-- The bit loop of R801 over the bit indices `is`, at node `cur`, with the symbols `out` so far: the checks come in the
order of R809. -/
def unpackLoop (s : State) : List Nat → NodeIdx → List Symbol → Except CmdFail (NodeIdx × List Symbol)
  | [], cur, out => .ok (cur, out)
  | i :: is, cur, out =>
    match childOf s.node cur (s.streamBit i) with
    | none => .error { code := .invalidPath, info := BitVec.ofNat 32 i, aux := cur.setWidth 32 }
    | some k =>
      if (nodeAt s.node k.toNat).leaf then
        if out.length = s.params.symDepth then
          .error { code := .outputOverflow, info := BitVec.ofNat 32 i, aux := BitVec.ofNat 32 s.params.symDepth }
        else unpackLoop s is s.root (out ++ [(nodeAt s.node k.toNat).sym])
      else unpackLoop s is k out

/-- `A` of R801 and R807: the bits actually supplied. -/
def State.suppliedBits (s : State) : Nat := min s.bitCount.toNat (8 * s.byteCount.toNat)

/-- The updates of UNPACK (R801, R808), after the preconditions of R802. -/
def runUnpack (s : State) : Except CmdFail State :=
  if !s.treeValid then .error { code := .noTree, info := 0, aux := 0 }
  else if s.byteCount.toNat > s.params.byteDepth then
    .error { code := .lengthRange, info := s.byteCount, aux := BitVec.ofNat 32 s.params.byteDepth }
  else
    match unpackLoop s (List.range s.suppliedBits) s.root [] with
    | .error f => .error f
    | .ok (cur, out) =>
      if cur ≠ s.root ∨ s.suppliedBits < s.bitCount.toNat then
        .error { code := .truncatedStream, info := BitVec.ofNat 32 s.suppliedBits, aux := BitVec.ofNat 32 out.length }
      else .ok { s.writeSyms 0 out with symCount := BitVec.ofNat 32 out.length }

/-- UNPACK (R801): the engine's performance of command word 4. -/
def execUnpack (s : State) : Host.Outcome State Fault Refusal := .next (s.complete (runUnpack s))

end Sys2Proof.Machine
end

