-- ==== Sys2Proof/Machine/Dispatch.lean ====
section
/-! DEFINITION. The dispatch: one arm per operation of the opcode table. -/

namespace Sys2Proof.Machine

open Sys2Proof

def exec (i : Instr) (s : State) : Host.Outcome State Fault Refusal :=
  match i with
  | .hostRead addr => Sys2Proof.Machine.execHostRead addr s
  | .hostWrite addr wdata => Sys2Proof.Machine.execHostWrite addr wdata s
  | .build => Sys2Proof.Machine.execBuild s
  | .gencodes => Sys2Proof.Machine.execGencodes s
  | .pack => Sys2Proof.Machine.execPack s
  | .unpack => Sys2Proof.Machine.execUnpack s
  | .softReset => Sys2Proof.Machine.execSoftReset s
  | .irqAck mask => Sys2Proof.Machine.execIrqAck mask s

end Sys2Proof.Machine
end

