-- ==== Sys2Proof/Machine/Fetch.lean ====
section
/-! DEFINITION. What the next step is (R20, R210, R1104): the next event at the block's boundary, or the engine's step. -/

namespace Sys2Proof.Machine

open Sys2Proof

/-- What the next step does, with the state it does it in. -/
inductive Fetched where
  /-- A host transaction, or the engine on a legal command word. -/
  | instr (i : Instr) (s : State)
  /-- The engine on an illegal command word (R303). -/
  | illegal (w : Word) (s : State)
  /-- The reset input (R1100). -/
  | powerOn (s : State)
  /-- No agent has anything to do: "When ENG = IDLE the engine has no step" (R1104). -/
  | quiet (s : State)
  deriving DecidableEq, Repr

/-- The engine's turn (R1104): decode the pending word, if any. -/
def engineTurn (s : State) : Fetched :=
  match s.eng with
  | .idle => .quiet s
  | .pending w =>
    match decodeCmd w with
    | .ok i => .instr i s
    | .error _ => .illegal w s

/-- The next step. With no event left the host is done and a pending command is performed (R1105). -/
def fetch (s : State) : Fetched :=
  match s.inbox with
  | [] => engineTurn s
  | .txn w :: es => .instr (decodeTxn w) { s with inbox := es }
  | .engine :: es => engineTurn { s with inbox := es }
  | .rstN :: es => .powerOn { s with inbox := es }

/-- Place a command word where the engine takes its next command from, and give the engine the next step. -/
def State.placeCmd (s : State) (w : Word) : State := { s with eng := .pending w, inbox := .engine :: s.inbox }

/-- Place a bus request where the next host transaction is taken from. -/
def State.placeTxn (s : State) (w : Txn) : State := { s with inbox := .txn w :: s.inbox }

/-- Place a word of the opcode table where the next step takes it from (assumption 10): a bus request for a word wider
than 32 bits, a write to CTRL for a SOFT_RESET word, and the engine's command word for every other 32-bit word. -/
def State.placeTableWord (s : State) (nbits w : Nat) : State :=
  if nbits ≤ 32 then
    match decodeTableWord nbits w with
    | some .softReset => s.placeTxn (encodeTxn true ctrlAddr (BitVec.ofNat 32 w))
    | _ => s.placeCmd (BitVec.ofNat 32 w)
  else s.placeTxn (BitVec.ofNat 51 w)

end Sys2Proof.Machine
end

