-- ==== Sys2Proof/Machine/Step.lean ====
section
/-! DEFINITION. One step of the machine (R20, R210): one host transaction, one engine step or one reset. -/

namespace Sys2Proof.Machine

open Sys2Proof

/-- One step. It is one indivisible transition, with no other between its parts (R210, R1104). -/
def step (s : State) : Host.Outcome State Fault Refusal :=
  match fetch s with
  | .instr i t => exec i t
  | .illegal w t => performIllegal w t
  | .powerOn t => .next t.powerOn
  | .quiet t => .next t

/-- `s` with the opcode-table word `w` placed where the next step takes its operation from. -/
def State.withFetchWord (s : State) (nbits w : Nat) : State := s.placeTableWord nbits w

end Sys2Proof.Machine
end

