-- ==== Sys2Proof/Safety.lean ====
section
/-! DEFINITION. What the statements about the machine are said in: the invariants of spec/10_state.md (R156, R157) and of
the status registers, paths through a tree, the code a symbol sequence stands for, and the offsets of the address map
by number. Nothing here is used by the machine itself. -/

namespace Sys2Proof.Machine

open Sys2Proof

/-! ## The tree (R156) -/

/-- Node `c` is a child of node `k`. -/
def isChild (N : List Node) (k c : Nat) : Prop :=
  ((nodeAt N k).hasL = true ∧ (nodeAt N k).left.toNat = c) ∨ ((nodeAt N k).hasR = true ∧ (nodeAt N k).right.toNat = c)

/-- `key(a) < key(b)` of R17, on numbers. -/
def keyBelow (N : List Node) (a b : Nat) : Prop :=
  (nodeAt N a).freq.toNat < (nodeAt N b).freq.toNat ∨ ((nodeAt N a).freq.toNat = (nodeAt N b).freq.toNat ∧ a < b)

/-- The tree invariant, items 1 to 7 of R156. -/
structure TreeInv (s : State) : Prop where
  /-- Item 1: `1 ≤ L ≤ 256`. -/
  leafRange : 1 ≤ s.leafCount.toNat ∧ s.leafCount.toNat ≤ 256
  /-- Item 1: the node count. -/
  nodeCount : s.nodeCount.toNat = if s.leafCount.toNat = 1 then 2 else 2 * s.leafCount.toNat - 1
  /-- Item 1: `ROOT = n - 1`. -/
  rootLast : s.root.toNat = s.nodeCount.toNat - 1
  /-- The tree's nodes are entries BUILD has written. -/
  stored : s.nodeCount.toNat ≤ s.node.length
  /-- Item 2: nodes `0..L-1` are the leaves of some frequency snapshot, by ascending symbol. -/
  leaves : ∃ f : Nat → Word, (presentSyms f).length = s.leafCount.toNat ∧
    ∀ k < s.leafCount.toNat, nodeAt s.node k = leafNode f ((presentSyms f).getD k 0)
  /-- Item 3: nodes `L..n-1` are internal. -/
  internal : ∀ k, s.leafCount.toNat ≤ k → k < s.nodeCount.toNat →
    (nodeAt s.node k).leaf = false ∧ (nodeAt s.node k).sym = 0
  /-- Item 4: with two leaves or more, an internal node has two earlier children and the sum of their frequencies. -/
  children : 2 ≤ s.leafCount.toNat → ∀ k, s.leafCount.toNat ≤ k → k < s.nodeCount.toNat →
    (nodeAt s.node k).hasL = true ∧ (nodeAt s.node k).hasR = true ∧
    (nodeAt s.node k).left.toNat < k ∧ (nodeAt s.node k).right.toNat < k ∧
    (nodeAt s.node k).freq.toNat =
      (nodeAt s.node (nodeAt s.node k).left.toNat).freq.toNat + (nodeAt s.node (nodeAt s.node k).right.toNat).freq.toNat
  /-- Item 5: the root over a single leaf. -/
  single : s.leafCount.toNat = 1 → (nodeAt s.node 1).hasL = true ∧ (nodeAt s.node 1).left = 0 ∧
    (nodeAt s.node 1).hasR = false ∧ (nodeAt s.node 1).freq = (nodeAt s.node 0).freq
  /-- Item 6: every node but the root is the child of exactly one node. -/
  oneParent : ∀ c < s.nodeCount.toNat, c ≠ s.root.toNat →
    ∃ k < s.nodeCount.toNat, isChild s.node k c ∧ ∀ j < s.nodeCount.toNat, isChild s.node j c → j = k
  /-- Item 7: a node is a leaf iff it has neither child. -/
  leafIff : ∀ k < s.nodeCount.toNat,
    (nodeAt s.node k).leaf = true ↔ (nodeAt s.node k).hasL = false ∧ (nodeAt s.node k).hasR = false

/-! ## Paths and codes (R157) -/

/-- The node a path leads to from node `k`: left on 0, right on 1; none where a child is missing. -/
def walkPath (N : List Node) : NodeIdx → BitString → Option NodeIdx
  | k, [] => some k
  | k, b :: p =>
    match childOf N k b with
    | none => none
    | some c => walkPath N c p

/-- The path `p` leads from the root to a leaf that holds `c` (R602). -/
def pathTo (s : State) (p : BitString) (c : Symbol) : Prop :=
  ∃ k, walkPath s.node s.root p = some k ∧ (nodeAt s.node k.toNat).leaf = true ∧ (nodeAt s.node k.toNat).sym = c

/-- No nonempty initial part of `p` leads from the root to a leaf. -/
def meetsNoLeaf (s : State) (p : BitString) : Prop :=
  ∀ q k, q ≠ [] → q <+: p → walkPath s.node s.root q = some k → (nodeAt s.node k.toNat).leaf = false

/-- `p` is a code the decoder of R803 reads as the symbol `c`: it ends at a leaf that holds `c` and meets no leaf
before. -/
def decodesTo (s : State) (p : BitString) (c : Symbol) : Prop :=
  p ≠ [] ∧ pathTo s p c ∧ meetsNoLeaf s p.dropLast

/-- The stream `T` is the concatenation of codes of the symbols `cs` (R703, R803). -/
def streamOf (s : State) (cs : List Symbol) (T : BitString) : Prop :=
  ∃ ps : List BitString, T = ps.flatten ∧ List.Forall₂ (decodesTo s) ps cs

/-- The code-table invariant, R157. -/
structure CodesInv (s : State) : Prop where
  /-- Valid entries are exactly the symbols of the tree's leaves. -/
  entries : ∀ c : Symbol, (s.codeAt c).valid = true ↔ ∃ k < s.leafCount.toNat, (nodeAt s.node k).sym = c
  /-- A valid code is the path from the root to the leaf of its symbol. -/
  paths : ∀ c : Symbol, (s.codeAt c).valid = true → pathTo s (s.codeAt c).bits c
  /-- Its length is at least 1, and is what the length field holds. -/
  lengths : ∀ c : Symbol, (s.codeAt c).valid = true →
    1 ≤ (s.codeAt c).bits.length ∧ (s.codeAt c).len.toNat = (s.codeAt c).bits.length
  /-- No valid code is an initial part of another. -/
  prefixFree : ∀ c d : Symbol, (s.codeAt c).valid = true → (s.codeAt d).valid = true → c ≠ d →
    ¬ (s.codeAt c).bits <+: (s.codeAt d).bits

/-! ## The status registers -/

/-- What the rules of the status registers keep true between steps (R116..R122, R125, R126, R130..R132). -/
structure StatusInv (s : State) : Prop where
  /-- While a command is pending, the fields of the last completion are clear and LASTOP is its opcode (R404). -/
  pending : ∀ w, s.eng = .pending w → s.done = false ∧ s.errcode = .none ∧ s.lastop = cmdOp w
  /-- ERR is set exactly with a nonzero error code (R118, R121). -/
  errIff : s.err = true ↔ s.errcode ≠ .none
  /-- An error is one of a completed command (R118). -/
  errDone : s.err = true → s.done = true
  /-- Without an error the information words are 0 (R125, R126). -/
  info : s.errcode = .none → s.errInfo = 0 ∧ s.errAux = 0
  /-- A current code table has a tree (R120). -/
  codesTree : s.codesValid = true → s.treeValid = true
  /-- Without a tree the tree registers are 0 (R130, R131, R132). -/
  noTree : s.treeValid = false → s.leafCount = 0 ∧ s.nodeCount = 0 ∧ s.root = 0

/-- The invariant of the machine. -/
structure MachineInv (s : State) : Prop where
  /-- The sizes are ones R10 allows. -/
  params : s.params.legal = true
  /-- The memories have their canonical form. -/
  mem : Memory.wf s = true
  /-- The status registers. -/
  status : StatusInv s
  /-- R156. -/
  tree : s.treeValid = true → TreeInv s
  /-- R157. -/
  codes : s.codesValid = true → CodesInv s

/-! ## Outcomes, written out from the rules -/

/-- `s` after a host transaction answered `(err, rdata)` (R305). -/
def answered (s : State) (err : Bool) (rdata : Word) : State := { s with resp := some { err := err, rdata := rdata } }

/-- `s` after a command completed without error (R1104). -/
def completedOk (s : State) : State :=
  { s with eng := .idle, done := true, err := false, errcode := .none, irqPend := s.irqPend ||| 0b001#3 }

/-- `s` after a command completed with the error `e` and its information words (R1006). -/
def completedErr (s : State) (e : ErrCode) (info aux : Word) : State :=
  { s with
    eng := .idle, done := true, err := true, errcode := e, errInfo := info, errAux := aux, irqPend := s.irqPend ||| 0b010#3 }

/-- The leaf of a symbol with a table frequency (R502). -/
def leafOf (c : Symbol) (f : Word) : Node where
  leaf := true
  sym := c
  freq := f.setWidth 40
  hasL := false
  left := 0
  hasR := false
  right := 0

/-- The root over a single leaf, node 0, of a table frequency (R505). -/
def rootOverLeaf (f : Word) : Node where
  leaf := false
  sym := 0
  freq := f.setWidth 40
  hasL := true
  left := 0
  hasR := false
  right := 0

/-- The four commands (R302). -/
def isCommand (i : Instr) : Prop := i = .build ∨ i = .gencodes ∨ i = .pack ∨ i = .unpack

/-- Node `j` is still in the collection when internal node `k` is made (R504): it is older than `k` and no internal node
before `k` took it. -/
def inCollection (N : List Node) (L k j : Nat) : Prop := j < k ∧ ∀ m, L ≤ m → m < k → ¬ isChild N m j

/-! ## The address map by number (R110, R205, R208, R1108) -/

/-- The offset is a multiple of 4 (R201). -/
abbrev aligned (a : Addr) : Prop := a.toNat % 4 = 0

/-- The gated offsets of R1108. -/
def gatedOffset (p : Params) (a : Addr) : Prop :=
  (0x020 ≤ a.toNat ∧ a.toNat < 0x040) ∨ (0x044 ≤ a.toNat ∧ a.toNat < 0x054) ∨ a.toNat = 0x064 ∨
    (0x080 ≤ a.toNat ∧ a.toNat < 0x0A0) ∨ (0x400 ≤ a.toNat ∧ a.toNat < 0x800) ∨
    (0x10000 ≤ a.toNat ∧ a.toNat < 0x10000 + p.symDepth) ∨ (0x20000 ≤ a.toNat ∧ a.toNat < 0x20000 + p.byteDepth)

/-- The unmapped aligned offsets of R205 and R208. -/
def unmappedOffset (p : Params) (a : Addr) : Prop :=
  (0x054 ≤ a.toNat ∧ a.toNat < 0x060) ∨ (0x068 ≤ a.toNat ∧ a.toNat < 0x080) ∨ (0x0A0 ≤ a.toNat ∧ a.toNat < 0x400) ∨
    (0x800 ≤ a.toNat ∧ a.toNat < 0x10000) ∨ (0x10000 + p.symDepth ≤ a.toNat ∧ a.toNat < 0x20000) ∨
    (0x20000 + p.byteDepth ≤ a.toNat ∧ a.toNat < 0x30000) ∨ 0x30000 ≤ a.toNat

/-! ## The symbol sequence of PACK (R703) -/

/-- The total code length of symbols `0..m-1` of `SYM_BUF`: `N_m` of R703. -/
def State.codeLength (s : State) (m : Nat) : Nat := ((List.range m).map fun j => (s.codeAt (s.symAt j)).len.toNat).sum

/-- The concatenated code bits of symbols `0..m-1` of `SYM_BUF` (R703). -/
def State.codeStream (s : State) (m : Nat) : BitString := (List.range m).flatMap fun j => (s.codeAt (s.symAt j)).bits

/-- Symbol `j` of `SYM_BUF` has an entry in a current code table (R704). -/
def State.hasCode (s : State) (j : Nat) : Prop := s.codesValid = true ∧ (s.codeAt (s.symAt j)).valid = true

/-- Bits `0..n-1` of the packed stream. -/
def State.streamBits (s : State) (n : Nat) : BitString := (List.range n).map s.streamBit

end Sys2Proof.Machine
end

