-- ==== Sys2Proof/Certificates/Slice0/Obligations.lean ====
section
/-! DEFINITION. The statements about the machine, from the numbered rules of spec/. -/

namespace Sys2Proof.Machine

open Sys2Proof

/-- The registers whose reads are never gated, with what the rules say they read (R111..R115, R123, R124, R133, R138). -/
def ungatedReads (s : State) : List (Addr × Word) :=
  [(0x000, 0x48554646), (0x004, BitVec.ofNat 32 s.params.symDepth), (0x008, BitVec.ofNat 32 s.params.byteDepth),
    (0x00C, 0), (0x010, 0), (0x018, s.irqEn.setWidth 32), (0x01C, s.irqPend.setWidth 32),
    (0x040, s.nodeSel.setWidth 32), (0x060, s.codeSel.setWidth 32)]

/-- The gated single registers, with what the rules say they read when not gated (R125..R132). -/
def gatedReads (s : State) : List (Addr × Word) :=
  [(0x020, s.errInfo), (0x024, s.errAux), (0x028, s.symCount), (0x02C, s.bitCount), (0x030, s.byteCount),
    (0x034, s.leafCount.setWidth 32), (0x038, s.nodeCount.setWidth 32), (0x03C, s.root.setWidth 32)]

/-- The writable single registers other than CTRL, CMD, IRQ_EN and IRQ_PEND, with the state a write of `v` leaves
(R402). -/
def registerWrites (s : State) (v : Word) : List (Addr × State) :=
  [(0x028, { s with symCount := v }), (0x02C, { s with bitCount := v }), (0x030, { s with byteCount := v }),
    (0x040, { s with nodeSel := v.extractLsb' 0 9 }), (0x060, { s with codeSel := v.extractLsb' 0 8 })]

/-- The CONST and RO single registers (R110). -/
def readOnlyAddrs : List Addr :=
  [0x000, 0x004, 0x008, 0x014, 0x020, 0x024, 0x034, 0x038, 0x03C, 0x044, 0x048, 0x04C, 0x050, 0x064] ++
  [0x080, 0x084, 0x088, 0x08C, 0x090, 0x094, 0x098, 0x09C]

end Sys2Proof.Machine

open Sys2Proof Sys2Proof.Machine

/-! ## Encoding and stepping -/

/-- R305, R301, R306: decoding the encoding of a well-formed operation gives it back, with every operand. -/
def Obligations.DecodeEncodeGivesTheOperationBack : Prop :=
  ∀ i : Instr, i.wf = true → decode (encode i) = .ok i

/-- R302: a command word is legal exactly when it is 1, 2, 3 or 4, and those are the four commands. -/
def Obligations.LegalCommandWordsAreOneToFour : Prop :=
  ∀ (w : Word) (i : Instr), decodeCmd w = .ok i ↔
    (w = 0x1 ∧ i = .build) ∨ (w = 0x2 ∧ i = .gencodes) ∨ (w = 0x3 ∧ i = .pack) ∨ (w = 0x4 ∧ i = .unpack)

/-- Words written out in the encoding tables of 95_test_vectors.md section 3 decode to their operations. -/
def Obligations.WordsOfTheSpecDecode : Prop :=
  decodeTxn 0x0001400000000 = .hostRead 0x00014 ∧ decodeTxn 0x4058400000002 = .hostWrite 0x00584 0x2 ∧
  decodeTxn 0x6000080000000 = .hostWrite 0x20000 0x80000000 ∧ decodeTxn 0x4001C00000003 = .irqAck 0x3 ∧
  decodeTxn 0x4000C00000001 = .softReset ∧ decodeCmd 0x00000003 = .ok .pack ∧
  decodeCmd 0x80000001 = .error (.illegalCmd 0x80000001)

/-- R20, R1104: a step runs the operation its word decodes to: the host's next request, or the engine's pending
command word at its turn or when no event is left. R1104 gives an idle engine no step; that `step` then answers the same
state, with the engine's turn used up, is the model's choice (assumption 14). -/
def Obligations.StepRunsTheDecodedOperation : Prop :=
  (∀ (s : State) (w : Txn) (es : List PortEvent) (i : Instr), s.inbox = .txn w :: es → decode (.txn w) = .ok i →
    step s = exec i { s with inbox := es }) ∧
  (∀ (s : State) (w : Word) (es : List PortEvent) (i : Instr), s.eng = .pending w → s.inbox = .engine :: es →
    decode (.cmd w) = .ok i → step s = exec i { s with inbox := es }) ∧
  (∀ (s : State) (w : Word) (i : Instr), s.eng = .pending w → s.inbox = [] → decode (.cmd w) = .ok i →
    step s = exec i s) ∧
  (∀ s : State, s.eng = .idle → s.inbox = [] → step s = .next s) ∧
  (∀ (s : State) (es : List PortEvent), s.eng = .idle → s.inbox = .engine :: es → step s = .next { s with inbox := es })

/-- R303: an illegal command word is accepted like a legal one; the engine then raises ILLEGAL_CMD with the word as
ERR_INFO and changes no other state, at its turn as well as when no event is left. -/
def Obligations.IllegalCommandIsAcceptedThenRaised : Prop :=
  ∀ (s : State) (w : Word), w ≠ 0x1 → w ≠ 0x2 → w ≠ 0x3 → w ≠ 0x4 →
    (s.eng = .idle → ∃ t, exec (.hostWrite 0x00010 w) s = .next t ∧ t.busy = true ∧ t.lastop = w.extractLsb' 0 4) ∧
    (∀ es, s.eng = .pending w → s.inbox = .engine :: es →
      step s = .next (completedErr { s with inbox := es } .illegalCmd w 0)) ∧
    (s.eng = .pending w → s.inbox = [] → step s = .next (completedErr s .illegalCmd w 0))

/-- R1105: with no event left, the step of a pending command completes it. -/
def Obligations.PendingCommandCompletes : Prop :=
  ∀ (s : State) (w : Word), MachineInv s → s.eng = .pending w → s.inbox = [] →
    ∃ t, step s = .next t ∧ t.eng = .idle ∧ t.done = true ∧ t.inbox = []

/-! ## Host reads -/

/-- R207: a read always completes, and its only effect is its response. -/
def Obligations.HostReadCompletesAndChangesNoState : Prop :=
  ∀ (s : State) (a : Addr), ∃ e v, exec (.hostRead a) s = .next (answered s e v)

/-- R206, R1003: a misaligned access is a bus error and changes no state. -/
def Obligations.MisalignedAccessIsABusErrorWithoutEffect : Prop :=
  ∀ (s : State) (a : Addr) (v : Word), ¬ aligned a →
    exec (.hostRead a) s = .next (answered s true 0) ∧ exec (.hostWrite a v) s = .next (answered s true 0)

/-- R111..R114, R123..R133, R138: what the single registers read: the gated ones when no command is pending, the others
always. -/
def Obligations.RegistersReadTheirValue : Prop :=
  ∀ s : State, (∀ e ∈ ungatedReads s, exec (.hostRead e.1) s = .next (answered s false e.2)) ∧
    (s.eng = .idle → ∀ e ∈ gatedReads s, exec (.hostRead e.1) s = .next (answered s false e.2))

/-- R115, R101: every bit of STATUS, busy or not. -/
def Obligations.StatusReadsItsFields : Prop :=
  ∀ s : State, ∃ w, exec (.hostRead 0x00014) s = .next (answered s false w) ∧
    (w.getLsbD 0 = true ↔ ∃ c, s.eng = .pending c) ∧ w.getLsbD 1 = s.done ∧ w.getLsbD 2 = s.err ∧
    w.getLsbD 3 = s.treeValid ∧ w.getLsbD 4 = s.codesValid ∧ w.extractLsb' 5 3 = 0 ∧
    w.extractLsb' 8 4 = s.errcode.code ∧ w.extractLsb' 12 4 = 0 ∧ w.extractLsb' 16 4 = s.lastop ∧
    w.extractLsb' 20 12 = 0

/-- R1108: while busy a read of a gated offset returns 0. -/
def Obligations.GatedReadsReturnZeroWhileBusy : Prop :=
  ∀ (s : State) (a : Addr) (w : Word), s.params.legal = true → s.eng = .pending w → aligned a →
    gatedOffset s.params a → exec (.hostRead a) s = .next (answered s false 0)

/-- R134..R137: the node window shows the selected node of a valid tree, and 0 otherwise. -/
def Obligations.NodeWindowShowsTheSelectedNode : Prop :=
  ∀ s : State, s.eng = .idle → ∃ info link lo hi : Word,
    exec (.hostRead 0x00044) s = .next (answered s false info) ∧
    exec (.hostRead 0x00048) s = .next (answered s false link) ∧
    exec (.hostRead 0x0004C) s = .next (answered s false lo) ∧
    exec (.hostRead 0x00050) s = .next (answered s false hi) ∧
    (¬ (s.treeValid = true ∧ s.nodeSel.toNat < s.nodeCount.toNat) → info = 0 ∧ link = 0 ∧ lo = 0 ∧ hi = 0) ∧
    (s.treeValid = true ∧ s.nodeSel.toNat < s.nodeCount.toNat →
      info.getLsbD 31 = true ∧ info.getLsbD 30 = (nodeAt s.node s.nodeSel.toNat).leaf ∧
      info.getLsbD 29 = (nodeAt s.node s.nodeSel.toNat).hasL ∧
      info.getLsbD 28 = (nodeAt s.node s.nodeSel.toNat).hasR ∧ info.extractLsb' 8 20 = 0 ∧
      info.extractLsb' 0 8 = (nodeAt s.node s.nodeSel.toNat).sym ∧
      link.extractLsb' 0 9 = (nodeAt s.node s.nodeSel.toNat).left ∧ link.extractLsb' 9 7 = 0 ∧
      link.extractLsb' 16 9 = (nodeAt s.node s.nodeSel.toNat).right ∧ link.extractLsb' 25 7 = 0 ∧
      lo.toNat = (nodeAt s.node s.nodeSel.toNat).freq.toNat % 2 ^ 32 ∧
      hi.toNat = (nodeAt s.node s.nodeSel.toNat).freq.toNat / 2 ^ 32)

/-- R139, R140: the code window shows the length and the bits of the selected symbol's code, first bit in bit 31 of
CODE_BITS0, and 0 without an entry. -/
def Obligations.CodeWindowShowsTheSelectedCode : Prop :=
  ∀ (s : State) (k : Nat), s.eng = .idle → k < 8 → ∃ len bits : Word,
    exec (.hostRead 0x00064) s = .next (answered s false len) ∧
    exec (.hostRead (BitVec.ofNat 18 (0x080 + 4 * k))) s = .next (answered s false bits) ∧
    (¬ (s.codesValid = true ∧ (s.codeAt s.codeSel).valid = true) → len = 0 ∧ bits = 0) ∧
    (s.codesValid = true ∧ (s.codeAt s.codeSel).valid = true →
      len.getLsbD 31 = true ∧ len.extractLsb' 8 23 = 0 ∧ len.extractLsb' 0 8 = (s.codeAt s.codeSel).len ∧
      ∀ j < 32, bits.getLsbD (31 - j) = (s.codeAt s.codeSel).bits.getD (32 * k + j) false)

/-- R205: an unmapped offset reads 0 and ignores writes, without bus error; while busy such a write is flagged like any
other. -/
def Obligations.UnmappedOffsetsReadZeroAndIgnoreWrites : Prop :=
  ∀ (s : State) (a : Addr) (v : Word), s.params.legal = true → aligned a → unmappedOffset s.params a →
    exec (.hostRead a) s = .next (answered s false 0) ∧
    (s.eng = .idle → exec (.hostWrite a v) s = .next (answered s false 0)) ∧
    (∀ w, s.eng = .pending w →
      exec (.hostWrite a v) s = .next (answered { s with irqPend := s.irqPend ||| 0b100 } false 0))

/-! ## Host writes -/

/-- R1107, R1004: while busy, a write to any aligned offset but CTRL, IRQ_EN and IRQ_PEND is dropped and sets BUSYWR. -/
def Obligations.WritesWhileBusyAreDroppedAndFlagged : Prop :=
  ∀ (s : State) (a : Addr) (v w : Word), s.eng = .pending w → aligned a →
    a ≠ 0x0000C → a ≠ 0x00018 → a ≠ 0x0001C →
    exec (.hostWrite a v) s = .next (answered { s with irqPend := s.irqPend ||| 0b100 } false 0)

/-- R404: a CMD write while idle latches the word and clears the last completion. -/
def Obligations.CommandIssueLatchesTheWord : Prop :=
  ∀ (s : State) (v : Word), s.eng = .idle → exec (.hostWrite 0x00010 v) s = .next (answered
    { s with
      eng := .pending v, done := false, err := false, errcode := .none, lastop := v.extractLsb' 0 4, errInfo := 0,
      errAux := 0 } false 0)

/-- R402, R123, R127..R129, R133, R138: when idle, count registers store all 32 bits and the selectors drop their
reserved bits; IRQ_EN stores bits 2:0 and a CTRL write with bit 0 clear does nothing, busy or not. -/
def Obligations.RegisterWritesStoreTheirBits : Prop :=
  ∀ (s : State) (v : Word),
    (s.eng = .idle → ∀ e ∈ registerWrites s v, exec (.hostWrite e.1 v) s = .next (answered e.2 false 0)) ∧
    exec (.hostWrite 0x00018 v) s = .next (answered { s with irqEn := v.extractLsb' 0 3 } false 0) ∧
    (v.getLsbD 0 = false → exec (.hostWrite 0x0000C v) s = .next (answered s false 0))

/-- R103, R402: a write to a CONST or RO register is ignored, without bus error. -/
def Obligations.ReadOnlyRegistersIgnoreWrites : Prop :=
  ∀ (s : State) (v : Word), s.eng = .idle → ∀ a ∈ readOnlyAddrs,
    exec (.hostWrite a v) s = .next (answered s false 0)

/-- R150, R402: a write to FREQ[c] changes that entry only, and a read then returns it. -/
def Obligations.FreqWritesReadBack : Prop :=
  ∀ (s : State) (c : Symbol) (v : Word), s.eng = .idle → ∃ t,
    exec (.hostWrite (BitVec.ofNat 18 (0x400 + 4 * c.toNat)) v) s = .next t ∧
    t = answered { s with freq := t.freq } false 0 ∧
    (∀ k, t.freqAt k = if k = c.toNat then v else s.freqAt k) ∧
    (∀ d : Symbol, exec (.hostRead (BitVec.ofNat 18 (0x400 + 4 * d.toNat))) t =
      .next (answered t false (if d = c then v else s.freqAt d.toNat)))

/-- R202, R402, R403: a word write to a buffer window stores its four bytes, bits 31:24 first, and no other byte. -/
def Obligations.WindowWritesStoreBigEndian : Prop :=
  ∀ (s : State) (w : Nat) (v : Word), s.params.legal = true → s.eng = .idle →
    (w < s.params.symDepth / 4 → ∃ t, exec (.hostWrite (BitVec.ofNat 18 (0x10000 + 4 * w)) v) s = .next t ∧
      t = answered { s with symBuf := t.symBuf } false 0 ∧
      t.symAt (4 * w) = v.extractLsb' 24 8 ∧ t.symAt (4 * w + 1) = v.extractLsb' 16 8 ∧
      t.symAt (4 * w + 2) = v.extractLsb' 8 8 ∧ t.symAt (4 * w + 3) = v.extractLsb' 0 8 ∧
      (∀ i, i < 4 * w ∨ 4 * w + 3 < i → t.symAt i = s.symAt i)) ∧
    (w < s.params.byteDepth / 4 → ∃ t, exec (.hostWrite (BitVec.ofNat 18 (0x20000 + 4 * w)) v) s = .next t ∧
      t = answered { s with byteBuf := t.byteBuf } false 0 ∧
      t.byteAt (4 * w) = v.extractLsb' 24 8 ∧ t.byteAt (4 * w + 1) = v.extractLsb' 16 8 ∧
      t.byteAt (4 * w + 2) = v.extractLsb' 8 8 ∧ t.byteAt (4 * w + 3) = v.extractLsb' 0 8 ∧
      (∀ i, i < 4 * w ∨ 4 * w + 3 < i → t.byteAt i = s.byteAt i))

/-- R202: a word read of a buffer window returns its four bytes, the first in bits 31:24. -/
def Obligations.WindowReadsAreBigEndian : Prop :=
  ∀ (s : State) (w : Nat), s.params.legal = true → s.eng = .idle →
    (w < s.params.symDepth / 4 → ∃ d, exec (.hostRead (BitVec.ofNat 18 (0x10000 + 4 * w))) s = .next (answered s false d) ∧
      d.extractLsb' 24 8 = s.symAt (4 * w) ∧ d.extractLsb' 16 8 = s.symAt (4 * w + 1) ∧
      d.extractLsb' 8 8 = s.symAt (4 * w + 2) ∧ d.extractLsb' 0 8 = s.symAt (4 * w + 3)) ∧
    (w < s.params.byteDepth / 4 → ∃ d, exec (.hostRead (BitVec.ofNat 18 (0x20000 + 4 * w))) s = .next (answered s false d) ∧
      d.extractLsb' 24 8 = s.byteAt (4 * w) ∧ d.extractLsb' 16 8 = s.byteAt (4 * w + 1) ∧
      d.extractLsb' 8 8 = s.byteAt (4 * w + 2) ∧ d.extractLsb' 0 8 = s.byteAt (4 * w + 3))

/-- R405, R124: IRQ_ACK, and equally a HOST_WRITE to IRQ_PEND, clears exactly the named pending flags, busy or not. -/
def Obligations.IrqAckClearsTheNamedFlags : Prop :=
  ∀ (s : State) (m : Word), ∃ p : BitVec 3,
    exec (.irqAck m) s = .next (answered { s with irqPend := p } false 0) ∧
    exec (.hostWrite 0x0001C m) s = .next (answered { s with irqPend := p } false 0) ∧
    ∀ i < 3, p.getLsbD i = (s.irqPend.getLsbD i && !m.getLsbD i)

/-- R212, R1107: while a command is pending, no host operation but SOFT_RESET changes anything a command reads. -/
def Obligations.PendingCommandKeepsItsInputs : Prop :=
  ∀ (s t : State) (w : Word) (i : Instr), s.eng = .pending w → i.wf = true →
    ((∃ a, i = .hostRead a) ∨ (∃ a v, i = .hostWrite a v) ∨ ∃ m, i = .irqAck m) → exec i s = .next t →
    t = { s with irqEn := t.irqEn, irqPend := t.irqPend, resp := t.resp }

/-! ## Resets and interrupts -/

/-- R406, R1101, R1102, R160: what a soft reset leaves, as SOFT_RESET and as a CTRL write with bit 0 set. The bytes of a
buffer that an aborted command may have begun to write are unspecified; that they are the next draw of the free bytes is
the model's choice (assumptions 3 and 4). Everything else in the memories is unchanged. -/
def Obligations.SoftResetLeavesItsResetValues : Prop :=
  ∀ (s : State) (v : Word), v.getLsbD 0 = true → ∃ t, exec .softReset s = .next t ∧ exec (.hostWrite 0x0000C v) s = .next t ∧
    t = { State.resetWith s.params with
      node := s.node, code := s.code, symBuf := t.symBuf, byteBuf := t.byteBuf, symDraw := t.symDraw,
      byteDraw := t.byteDraw, resp := some { err := false, rdata := 0 }, inbox := s.inbox } ∧
    (∀ k, t.freqAt k = 0) ∧
    (s.eng = .pending 0x3 → ∀ i, t.byteAt i = Config.freeStreamByte (s.byteDraw + 1) i) ∧
    (s.eng ≠ .pending 0x3 → ∀ i, t.byteAt i = s.byteAt i) ∧
    (s.eng = .pending 0x4 → ∀ i, t.symAt i = Config.freeSymByte (s.symDraw + 1) i) ∧
    (s.eng ≠ .pending 0x4 → ∀ i, t.symAt i = s.symAt i)

/-- R1100, R160: what the reset input leaves, whatever the state. R1100 leaves the bytes of both buffers arbitrary;
that they are the next draw of the free bytes is the model's choice (assumption 3). -/
def Obligations.PowerOnResetLeavesItsResetValues : Prop :=
  ∀ (s : State) (es : List PortEvent), s.inbox = .rstN :: es → ∃ t, step s = .next t ∧
    t = { State.resetWith s.params with symDraw := t.symDraw, byteDraw := t.byteDraw, inbox := es } ∧
    (∀ i, t.symAt i = Config.freeSymByte (s.symDraw + 1) i) ∧
    (∀ i, t.byteAt i = Config.freeStreamByte (s.byteDraw + 1) i)

/-- R1103, R160: after power-on nothing is pending, no interrupt is enabled or raised, no tree and no code table is valid,
and every register that is not a constant is 0. -/
def Obligations.ResetStateIsIdleAndZero : Prop :=
  ∀ p : Params, (State.resetWith p).eng = .idle ∧ (State.resetWith p).irq = false ∧
    (State.resetWith p).treeValid = false ∧ (State.resetWith p).codesValid = false ∧
    (State.resetWith p).statusWord = 0 ∧
    (∀ e ∈ gatedReads (State.resetWith p), e.2 = 0) ∧
    (∀ e ∈ ungatedReads (State.resetWith p), e.1 = 0x000 ∨ e.1 = 0x004 ∨ e.1 = 0x008 ∨ e.2 = 0) ∧
    ∀ k, (State.resetWith p).freqAt k = 0

/-- R407: `irq` is raised exactly by a pending flag that is enabled, and is 0 after reset. -/
def Obligations.IrqIsAnEnabledPendingFlag : Prop :=
  (∀ s : State, s.irq = true ↔ ∃ i < 3, s.irqPend.getLsbD i = true ∧ s.irqEn.getLsbD i = true) ∧
  ∀ p : Params, (State.resetWith p).irq = false

/-! ## Completion and errors -/

/-- R1104, R1006: every command ends idle and done, without error and with flag OK, or with an error and flag ERR. -/
def Obligations.CommandsRecordTheirCompletion : Prop :=
  ∀ (i : Instr) (s t : State), isCommand i → exec i s = .next t →
    t.eng = .idle ∧ t.done = true ∧ t.lastop = s.lastop ∧
    ((t.err = false ∧ t.errcode = .none ∧ t.irqPend = s.irqPend ||| 0b001 ∧ t.errInfo = s.errInfo ∧ t.errAux = s.errAux) ∨
      (t.err = true ∧ t.errcode ≠ .none ∧ t.irqPend = s.irqPend ||| 0b010))

/-- R1005: a command that ends with an error changes nothing but the completion fields. -/
def Obligations.FailedCommandsChangeOnlyTheCompletionFields : Prop :=
  ∀ (i : Instr) (s t : State), isCommand i → exec i s = .next t → t.err = true →
    t = completedErr s t.errcode t.errInfo t.errAux

/-! ## BUILD -/

/-- R503: BUILD on an all-zero table raises EMPTY_INPUT and changes nothing else. -/
def Obligations.BuildOfNothingRaisesEmptyInput : Prop :=
  ∀ s : State, (∀ k < 256, s.freqAt k = 0) → exec .build s = .next (completedErr s .emptyInput 0 0)

/-- R501, R506, R509, R510, R500: with a present symbol BUILD completes; it sets TREE_VALID, clears CODES_VALID, counts
the leaves and the nodes, puts the root last, keeps the node entries past the tree, and changes nothing else but the completion fields. -/
def Obligations.BuildCompletesWithAPresentSymbol : Prop :=
  ∀ s : State, (∃ k < 256, s.freqAt k ≠ 0) → ∃ t, exec .build s = .next t ∧
    t = { completedOk s with
      node := t.node, leafCount := t.leafCount, nodeCount := t.nodeCount, root := t.root, treeValid := true,
      codesValid := false } ∧
    t.leafCount.toNat = (List.range 256).countP (fun k => s.freqAt k != 0) ∧
    t.nodeCount.toNat = (if t.leafCount.toNat = 1 then 2 else 2 * t.leafCount.toNat - 1) ∧
    t.root.toNat = t.nodeCount.toNat - 1 ∧
    ∀ k, t.nodeCount.toNat ≤ k → nodeAt t.node k = nodeAt s.node k

/-- R502: the leaf of a present symbol has as its index the number of present symbols below it, and holds the symbol and
its frequency. -/
def Obligations.BuildLeavesAscendBySymbol : Prop :=
  ∀ (s t : State) (c : Nat), exec .build s = .next t → c < 256 → s.freqAt c ≠ 0 →
    nodeAt t.node ((List.range c).countP (fun k => s.freqAt k != 0)) = leafOf (BitVec.ofNat 8 c) (s.freqAt c)

/-- R505: with one present symbol the tree is that leaf as the left child of root node 1. -/
def Obligations.BuildOfOneSymbolMakesTwoNodes : Prop :=
  ∀ (s : State) (c : Nat), c < 256 → s.freqAt c ≠ 0 → (∀ k < 256, k ≠ c → s.freqAt k = 0) → ∃ t,
    exec .build s = .next t ∧ t.err = false ∧ t.leafCount = 1 ∧ t.nodeCount = 2 ∧ t.root = 1 ∧
    nodeAt t.node 0 = leafOf (BitVec.ofNat 8 c) (s.freqAt c) ∧ nodeAt t.node 1 = rootOverLeaf (s.freqAt c)

/-- R504, R508, R17: each internal node of a tree with two leaves or more has as left and right child the two smallest
nodes of the collection by (frequency, index), the smaller on the left. -/
def Obligations.BuildMergesTheTwoSmallest : Prop :=
  ∀ (s t : State) (k : Nat), exec .build s = .next t → t.err = false → 2 ≤ t.leafCount.toNat →
    t.leafCount.toNat ≤ k → k < t.nodeCount.toNat →
    inCollection t.node t.leafCount.toNat k (nodeAt t.node k).left.toNat ∧
    inCollection t.node t.leafCount.toNat k (nodeAt t.node k).right.toNat ∧
    keyBelow t.node (nodeAt t.node k).left.toNat (nodeAt t.node k).right.toNat ∧
    ∀ j, inCollection t.node t.leafCount.toNat k j → j ≠ (nodeAt t.node k).left.toNat →
      j ≠ (nodeAt t.node k).right.toNat → keyBelow t.node (nodeAt t.node k).right.toNat j

/-- R156: a successful BUILD leaves a tree with all seven items of the tree invariant. -/
def Obligations.BuildEstablishesTheTreeInvariant : Prop :=
  ∀ s t : State, exec .build s = .next t → t.err = false → TreeInv t

/-- R507: the root's frequency is the exact sum of the frequency table. -/
def Obligations.RootFrequencyIsTheSumOfTheTable : Prop :=
  ∀ s t : State, exec .build s = .next t → t.err = false →
    (nodeAt t.node t.root.toNat).freq.toNat = ((List.range 256).map fun k => (s.freqAt k).toNat).sum

/-- R512: BUILD is a function of the frequency table alone. -/
def Obligations.BuildDependsOnlyOnTheTable : Prop :=
  ∀ s₁ s₂ t₁ t₂ : State, (∀ k < 256, s₁.freqAt k = s₂.freqAt k) → exec .build s₁ = .next t₁ →
    exec .build s₂ = .next t₂ →
    t₁.err = t₂.err ∧ (t₁.err = false → t₁.leafCount = t₂.leafCount ∧ t₁.nodeCount = t₂.nodeCount ∧
      t₁.root = t₂.root ∧ ∀ k < t₁.nodeCount.toNat, nodeAt t₁.node k = nodeAt t₂.node k)

/-! ## GENCODES -/

/-- R603: GENCODES without a tree raises NO_TREE and changes nothing else. -/
def Obligations.GencodesWithoutATreeRaisesNoTree : Prop :=
  ∀ s : State, s.treeValid = false → exec .gencodes s = .next (completedErr s .noTree 0 0)

/-- R600, R601, R602, R604, R157: on a valid tree GENCODES completes, changes only CODE, CODES_VALID and the completion
fields, and leaves the code of every leaf symbol as its path. -/
def Obligations.GencodesCompletesWithTheCodeTable : Prop :=
  ∀ s : State, s.treeValid = true → TreeInv s → ∃ t, exec .gencodes s = .next t ∧
    t = { completedOk s with code := t.code, codesValid := true } ∧ CodesInv t

/-- R608: the codes GENCODES makes have 1 to 255 bits, as many as their length field says. -/
def Obligations.CodeLengthsAreOneTo255 : Prop :=
  ∀ (s t : State) (c : Symbol), s.treeValid = true → TreeInv s → exec .gencodes s = .next t →
    (t.codeAt c).valid = true →
    1 ≤ (t.codeAt c).bits.length ∧ (t.codeAt c).bits.length ≤ 255 ∧
      (t.codeAt c).len.toNat = (t.codeAt c).bits.length

/-- R609: the sum over the valid codes of 2^(-length) is 1 for two leaves or more, and 1/2 for a single one. -/
def Obligations.CodesFillTheCodeSpace : Prop :=
  ∀ s t : State, s.treeValid = true → TreeInv s → exec .gencodes s = .next t →
    ((List.range 256).map fun c =>
      if (t.codeAt (BitVec.ofNat 8 c)).valid then 2 ^ (255 - (t.codeAt (BitVec.ofNat 8 c)).len.toNat) else 0).sum =
    if s.leafCount.toNat = 1 then 2 ^ 254 else 2 ^ 255

/-! ## PACK -/

/-- R702: a SYM_COUNT above SYM_DEPTH raises LENGTH_RANGE. -/
def Obligations.PackChecksItsInputLength : Prop :=
  ∀ s : State, s.params.symDepth < s.symCount.toNat →
    exec .pack s = .next (completedErr s .lengthRange s.symCount (BitVec.ofNat 32 s.params.symDepth))

/-- R704, R708: the first symbol without an entry in a current code table raises UNKNOWN_SYMBOL with its index and
value. -/
def Obligations.PackReportsTheFirstUnknownSymbol : Prop :=
  ∀ (s : State) (j : Nat), s.symCount.toNat ≤ s.params.symDepth → j < s.symCount.toNat → ¬ s.hasCode j →
    (∀ i < j, s.hasCode i) → s.codeLength j ≤ 8 * s.params.byteDepth →
    exec .pack s = .next (completedErr s .unknownSymbol (BitVec.ofNat 32 j) ((s.symAt j).setWidth 32))

/-- R705, R708: the first symbol whose code makes the stream longer than BYTE_BUF raises OUTPUT_OVERFLOW. -/
def Obligations.PackReportsTheFirstOverflow : Prop :=
  ∀ (s : State) (j : Nat), s.symCount.toNat ≤ s.params.symDepth → j < s.symCount.toNat →
    (∀ i ≤ j, s.hasCode i) → s.codeLength j ≤ 8 * s.params.byteDepth →
    8 * s.params.byteDepth < s.codeLength (j + 1) →
    exec .pack s = .next (completedErr s .outputOverflow (BitVec.ofNat 32 j) ((s.symAt j).setWidth 32))

/-- R701, R703, R706, R707, R700: when every symbol has a code and the stream fits, PACK completes with the concatenated
codes in BYTE_BUF, MSB first and zero padded, and the two counts, and changes nothing else but the completion fields. -/
def Obligations.PackCompletesWithThePackedStream : Prop :=
  ∀ s : State, MachineInv s → s.symCount.toNat ≤ s.params.symDepth → (∀ j < s.symCount.toNat, s.hasCode j) →
    s.codeLength s.symCount.toNat ≤ 8 * s.params.byteDepth → ∃ t, exec .pack s = .next t ∧
    t = { completedOk s with byteBuf := t.byteBuf, bitCount := t.bitCount, byteCount := t.byteCount } ∧
    t.bitCount.toNat = s.codeLength s.symCount.toNat ∧
    t.byteCount.toNat = (s.codeLength s.symCount.toNat + 7) / 8 ∧
    t.streamBits t.bitCount.toNat = s.codeStream s.symCount.toNat ∧
    (∀ i, t.bitCount.toNat ≤ i → i < 8 * t.byteCount.toNat → t.streamBit i = false) ∧
    ∀ k, t.byteCount.toNat ≤ k → t.byteAt k = s.byteAt k

/-! ## UNPACK -/

/-- R802, R809: UNPACK needs a tree, then a BYTE_COUNT within the buffer. -/
def Obligations.UnpackChecksItsPreconditions : Prop :=
  ∀ s : State,
    (s.treeValid = false → exec .unpack s = .next (completedErr s .noTree 0 0)) ∧
    (s.treeValid = true → s.params.byteDepth < s.byteCount.toNat →
      exec .unpack s = .next (completedErr s .lengthRange s.byteCount (BitVec.ofNat 32 s.params.byteDepth)))

/-- R801, R803, R808, R800: when the declared bits are supplied and are the codes of the symbols `cs`, UNPACK completes
with those symbols in SYM_BUF and their number in SYM_COUNT, and changes nothing else but the completion fields. -/
def Obligations.UnpackCompletesWithTheDecodedSymbols : Prop :=
  ∀ (s : State) (cs : List Symbol), s.treeValid = true → s.byteCount.toNat ≤ s.params.byteDepth →
    s.bitCount.toNat ≤ 8 * s.byteCount.toNat → streamOf s cs (s.streamBits s.bitCount.toNat) →
    cs.length ≤ s.params.symDepth → ∃ t, exec .unpack s = .next t ∧
    t = { completedOk s with symBuf := t.symBuf, symCount := BitVec.ofNat 32 cs.length } ∧
    (∀ i, i < cs.length → t.symAt i = cs.getD i 0) ∧ ∀ i, cs.length ≤ i → t.symAt i = s.symAt i

/-- R804: a bit that selects an absent child raises INVALID_PATH with the bit's index and the node. -/
def Obligations.UnpackReportsAnInvalidPath : Prop :=
  ∀ (s : State) (cs : List Symbol) (T r rest : BitString) (b : Bool) (k : NodeIdx), s.treeValid = true →
    s.byteCount.toNat ≤ s.params.byteDepth → cs.length ≤ s.params.symDepth → streamOf s cs T →
    walkPath s.node s.root r = some k → meetsNoLeaf s r →
    (if b then (nodeAt s.node k.toNat).hasR else (nodeAt s.node k.toNat).hasL) = false →
    s.streamBits (min s.bitCount.toNat (8 * s.byteCount.toNat)) = T ++ r ++ b :: rest →
    exec .unpack s = .next (completedErr s .invalidPath (BitVec.ofNat 32 (T.length + r.length)) (k.setWidth 32))

/-- R805: the symbol after SYM_DEPTH symbols raises OUTPUT_OVERFLOW with the index of the bit that completes it. -/
def Obligations.UnpackReportsAnOverflow : Prop :=
  ∀ (s : State) (cs : List Symbol) (T p rest : BitString) (c : Symbol), s.treeValid = true →
    s.byteCount.toNat ≤ s.params.byteDepth → cs.length = s.params.symDepth → streamOf s cs T → decodesTo s p c →
    s.streamBits (min s.bitCount.toNat (8 * s.byteCount.toNat)) = T ++ p ++ rest →
    exec .unpack s = .next (completedErr s .outputOverflow (BitVec.ofNat 32 (T.length + p.length - 1))
      (BitVec.ofNat 32 s.params.symDepth))

/-- R806: a walk that ends inside a code, or fewer supplied bits than declared, raises TRUNCATED_STREAM with the bits
consumed and the symbols completed. -/
def Obligations.UnpackReportsATruncatedStream : Prop :=
  ∀ (s : State) (cs : List Symbol) (T r : BitString) (k : NodeIdx), s.treeValid = true →
    s.byteCount.toNat ≤ s.params.byteDepth → cs.length ≤ s.params.symDepth → streamOf s cs T →
    walkPath s.node s.root r = some k → meetsNoLeaf s r →
    s.streamBits (min s.bitCount.toNat (8 * s.byteCount.toNat)) = T ++ r →
    (k ≠ s.root ∨ 8 * s.byteCount.toNat < s.bitCount.toNat) →
    exec .unpack s = .next (completedErr s .truncatedStream
      (BitVec.ofNat 32 (min s.bitCount.toNat (8 * s.byteCount.toNat))) (BitVec.ofNat 32 cs.length))

/-- R811: with a single-symbol tree, k zero bits decode to k copies of the symbol, and a 1 bit raises INVALID_PATH at
its index, at the root. -/
def Obligations.UnpackOfTheSingleSymbolTree : Prop :=
  ∀ s : State, s.treeValid = true → TreeInv s → s.leafCount = 1 → s.byteCount.toNat ≤ s.params.byteDepth →
    s.bitCount.toNat ≤ 8 * s.byteCount.toNat →
    ((∀ i < s.bitCount.toNat, s.streamBit i = false) → s.bitCount.toNat ≤ s.params.symDepth →
      ∃ t, exec .unpack s = .next t ∧ t.err = false ∧ t.symCount = s.bitCount ∧
        ∀ i < s.bitCount.toNat, t.symAt i = (nodeAt s.node 0).sym) ∧
    (∀ i < s.bitCount.toNat, i ≤ s.params.symDepth → (∀ j < i, s.streamBit j = false) → s.streamBit i = true →
      exec .unpack s = .next (completedErr s .invalidPath (BitVec.ofNat 32 i) 1))

/-- R804: in a tree with two leaves or more no bit selects an absent child. -/
def Obligations.InvalidPathNeedsASingleSymbolTree : Prop :=
  ∀ s t : State, TreeInv s → 2 ≤ s.leafCount.toNat → exec .unpack s = .next t → t.errcode ≠ .invalidPath

/-- R800, R807: UNPACK reads only the tree, the counts and the supplied bits: not the padding, not surplus bytes, not
CODE or CODES_VALID. -/
def Obligations.UnpackReadsOnlyTheSuppliedBitsAndTheTree : Prop :=
  ∀ s₁ s₂ t₁ t₂ : State, s₁.params = s₂.params → s₁.treeValid = s₂.treeValid → s₁.bitCount = s₂.bitCount →
    s₁.byteCount = s₂.byteCount → s₁.node = s₂.node → s₁.root = s₂.root →
    (∀ i < min s₁.bitCount.toNat (8 * s₁.byteCount.toNat), s₁.streamBit i = s₂.streamBit i) →
    exec .unpack s₁ = .next t₁ → exec .unpack s₂ = .next t₂ →
    t₁.err = t₂.err ∧ t₁.errcode = t₂.errcode ∧
    (t₁.err = true → t₁.errInfo = t₂.errInfo ∧ t₁.errAux = t₂.errAux) ∧
    (t₁.err = false → t₁.symCount = t₂.symCount ∧ ∀ i < t₁.symCount.toNat, t₁.symAt i = t₂.symAt i)

/-- R810: UNPACK right after a successful PACK with a current code table gives the symbols back. -/
def Obligations.UnpackAfterPackGivesTheSymbolsBack : Prop :=
  ∀ s t : State, MachineInv s → s.codesValid = true → exec .pack s = .next t → t.err = false →
    ∃ u, exec .unpack t = .next u ∧ u.err = false ∧ u.symCount = s.symCount ∧ ∀ i, u.symAt i = s.symAt i

/-! ## The machine as a whole -/

/-- The invariant holds after power-on, for every legal pair of sizes. -/
def Obligations.ResetStateMeetsTheMachineInvariant : Prop :=
  ∀ p : Params, p.legal = true → MachineInv (State.resetWith p)

/-- R156, R157, R116..R122: every step keeps the invariant: the memories' canonical form, the tree and code-table
invariants and the status registers' relations. -/
def Obligations.EveryStepKeepsTheMachineInvariant : Prop :=
  ∀ s t : State, MachineInv s → step s = .next t → MachineInv t

/-- With the invariant the machine never stops: no step faults or is refused. -/
def Obligations.TheMachineNeverStops : Prop := ∀ s : State, MachineInv s → ∃ t, step s = .next t

/-- R119, R120: only a successful BUILD sets TREE_VALID and only a reset clears it; only a successful GENCODES sets
CODES_VALID and only a successful BUILD or a reset clears it. -/
def Obligations.OnlyTheirEventsChangeTheValidFlags : Prop :=
  ∀ s t : State, step s = .next t →
    (s.treeValid = false → t.treeValid = true → ∃ u, fetch s = .instr .build u ∧ t.err = false) ∧
    (s.treeValid = true → t.treeValid = false → ∃ u, fetch s = .instr .softReset u ∨ fetch s = .powerOn u) ∧
    (s.codesValid = false → t.codesValid = true → ∃ u, fetch s = .instr .gencodes u ∧ t.err = false) ∧
    (s.codesValid = true → t.codesValid = false → ∃ u, (fetch s = .instr .build u ∧ t.err = false) ∨
      fetch s = .instr .softReset u ∨ fetch s = .powerOn u)

/-- R122, R124: LASTOP changes only by an accepted CMD write or a reset; a pending interrupt flag is cleared only by an
IRQ_PEND write that names it or by a reset. -/
def Obligations.OnlyTheirEventsChangeLastOpAndClearFlags : Prop :=
  ∀ s t : State, step s = .next t →
    (t.lastop ≠ s.lastop → ∃ u, (∃ v, fetch s = .instr (.hostWrite 0x00010 v) u ∧ s.eng = .idle ∧
      t.lastop = v.extractLsb' 0 4) ∨ fetch s = .instr .softReset u ∨ fetch s = .powerOn u) ∧
    (∀ i < 3, s.irqPend.getLsbD i = true → t.irqPend.getLsbD i = false →
      ∃ u, (∃ m, fetch s = .instr (.irqAck m) u ∧ m.getLsbD i = true) ∨ fetch s = .instr .softReset u ∨
        fetch s = .powerOn u)

/-- R150..R154, R112: each internal memory is changed only by the command and the host write that own it, or by a
reset, and no step changes the sizes. A byte of a buffer is a listed byte or one of the buffer's draw, so the lists and
the draw counters are both covered: the model's form of a buffer (assumption 3). -/
def Obligations.OnlyTheirOwnersChangeTheMemories : Prop :=
  ∀ s t : State, step s = .next t → t.params = s.params ∧
    (t.node ≠ s.node → ∃ u, fetch s = .instr .build u ∨ fetch s = .powerOn u) ∧
    (t.code ≠ s.code → ∃ u, fetch s = .instr .gencodes u ∨ fetch s = .powerOn u) ∧
    (t.freq ≠ s.freq → ∃ u, (∃ a v, fetch s = .instr (.hostWrite a v) u ∧ 0x400 ≤ a.toNat ∧ a.toNat < 0x800) ∨
      fetch s = .instr .softReset u ∨ fetch s = .powerOn u) ∧
    (t.symBuf ≠ s.symBuf → ∃ u, (∃ a v, fetch s = .instr (.hostWrite a v) u ∧ 0x10000 ≤ a.toNat ∧ a.toNat < 0x20000) ∨
      fetch s = .instr .unpack u ∨ fetch s = .instr .softReset u ∨ fetch s = .powerOn u) ∧
    (t.byteBuf ≠ s.byteBuf → ∃ u, (∃ a v, fetch s = .instr (.hostWrite a v) u ∧ 0x20000 ≤ a.toNat ∧ a.toNat < 0x30000) ∨
      fetch s = .instr .pack u ∨ fetch s = .instr .softReset u ∨ fetch s = .powerOn u) ∧
    (t.symDraw ≠ s.symDraw → ∃ u, (fetch s = .instr .softReset u ∧ s.eng = .pending 0x4) ∨ fetch s = .powerOn u) ∧
    (t.byteDraw ≠ s.byteDraw → ∃ u, (fetch s = .instr .softReset u ∧ s.eng = .pending 0x3) ∨ fetch s = .powerOn u) ∧
    (∀ i, t.symAt i ≠ s.symAt i →
      ∃ u, (∃ a v, fetch s = .instr (.hostWrite a v) u ∧ 0x10000 ≤ a.toNat ∧ a.toNat < 0x20000) ∨
        fetch s = .instr .unpack u ∨ (fetch s = .instr .softReset u ∧ s.eng = .pending 0x4) ∨ fetch s = .powerOn u) ∧
    (∀ i, t.byteAt i ≠ s.byteAt i →
      ∃ u, (∃ a v, fetch s = .instr (.hostWrite a v) u ∧ 0x20000 ≤ a.toNat ∧ a.toNat < 0x30000) ∨
        fetch s = .instr .pack u ∨ (fetch s = .instr .softReset u ∧ s.eng = .pending 0x3) ∨ fetch s = .powerOn u)
end

