-- ==== Sys2Proof/Laws/State.lean ====
section
/-! SUPPORT. What each named update of State leaves in each field, true by rfl, so that no proof unfolds a record update. -/

namespace Sys2Proof.Machine

open Sys2Proof

/-! ### setIrq -/

@[simp] theorem State.setIrq_params (s : State) (fl : BitVec 3) : (s.setIrq fl).params = s.params := rfl
@[simp] theorem State.setIrq_eng (s : State) (fl : BitVec 3) : (s.setIrq fl).eng = s.eng := rfl
@[simp] theorem State.setIrq_done (s : State) (fl : BitVec 3) : (s.setIrq fl).done = s.done := rfl
@[simp] theorem State.setIrq_err (s : State) (fl : BitVec 3) : (s.setIrq fl).err = s.err := rfl
@[simp] theorem State.setIrq_treeValid (s : State) (fl : BitVec 3) : (s.setIrq fl).treeValid = s.treeValid := rfl
@[simp] theorem State.setIrq_codesValid (s : State) (fl : BitVec 3) : (s.setIrq fl).codesValid = s.codesValid := rfl
@[simp] theorem State.setIrq_errcode (s : State) (fl : BitVec 3) : (s.setIrq fl).errcode = s.errcode := rfl
@[simp] theorem State.setIrq_lastop (s : State) (fl : BitVec 3) : (s.setIrq fl).lastop = s.lastop := rfl
@[simp] theorem State.setIrq_irqEn (s : State) (fl : BitVec 3) : (s.setIrq fl).irqEn = s.irqEn := rfl
@[simp] theorem State.setIrq_irqPend (s : State) (fl : BitVec 3) : (s.setIrq fl).irqPend = s.irqPend ||| fl := rfl
@[simp] theorem State.setIrq_errInfo (s : State) (fl : BitVec 3) : (s.setIrq fl).errInfo = s.errInfo := rfl
@[simp] theorem State.setIrq_errAux (s : State) (fl : BitVec 3) : (s.setIrq fl).errAux = s.errAux := rfl
@[simp] theorem State.setIrq_symCount (s : State) (fl : BitVec 3) : (s.setIrq fl).symCount = s.symCount := rfl
@[simp] theorem State.setIrq_bitCount (s : State) (fl : BitVec 3) : (s.setIrq fl).bitCount = s.bitCount := rfl
@[simp] theorem State.setIrq_byteCount (s : State) (fl : BitVec 3) : (s.setIrq fl).byteCount = s.byteCount := rfl
@[simp] theorem State.setIrq_leafCount (s : State) (fl : BitVec 3) : (s.setIrq fl).leafCount = s.leafCount := rfl
@[simp] theorem State.setIrq_nodeCount (s : State) (fl : BitVec 3) : (s.setIrq fl).nodeCount = s.nodeCount := rfl
@[simp] theorem State.setIrq_root (s : State) (fl : BitVec 3) : (s.setIrq fl).root = s.root := rfl
@[simp] theorem State.setIrq_nodeSel (s : State) (fl : BitVec 3) : (s.setIrq fl).nodeSel = s.nodeSel := rfl
@[simp] theorem State.setIrq_codeSel (s : State) (fl : BitVec 3) : (s.setIrq fl).codeSel = s.codeSel := rfl
@[simp] theorem State.setIrq_freq (s : State) (fl : BitVec 3) : (s.setIrq fl).freq = s.freq := rfl
@[simp] theorem State.setIrq_node (s : State) (fl : BitVec 3) : (s.setIrq fl).node = s.node := rfl
@[simp] theorem State.setIrq_code (s : State) (fl : BitVec 3) : (s.setIrq fl).code = s.code := rfl
@[simp] theorem State.setIrq_symBuf (s : State) (fl : BitVec 3) : (s.setIrq fl).symBuf = s.symBuf := rfl
@[simp] theorem State.setIrq_byteBuf (s : State) (fl : BitVec 3) : (s.setIrq fl).byteBuf = s.byteBuf := rfl
@[simp] theorem State.setIrq_symDraw (s : State) (fl : BitVec 3) : (s.setIrq fl).symDraw = s.symDraw := rfl
@[simp] theorem State.setIrq_byteDraw (s : State) (fl : BitVec 3) : (s.setIrq fl).byteDraw = s.byteDraw := rfl
@[simp] theorem State.setIrq_resp (s : State) (fl : BitVec 3) : (s.setIrq fl).resp = s.resp := rfl
@[simp] theorem State.setIrq_inbox (s : State) (fl : BitVec 3) : (s.setIrq fl).inbox = s.inbox := rfl

/-! ### clearIrq -/

@[simp] theorem State.clearIrq_params (s : State) (m : Word) : (s.clearIrq m).params = s.params := rfl
@[simp] theorem State.clearIrq_eng (s : State) (m : Word) : (s.clearIrq m).eng = s.eng := rfl
@[simp] theorem State.clearIrq_done (s : State) (m : Word) : (s.clearIrq m).done = s.done := rfl
@[simp] theorem State.clearIrq_err (s : State) (m : Word) : (s.clearIrq m).err = s.err := rfl
@[simp] theorem State.clearIrq_treeValid (s : State) (m : Word) : (s.clearIrq m).treeValid = s.treeValid := rfl
@[simp] theorem State.clearIrq_codesValid (s : State) (m : Word) : (s.clearIrq m).codesValid = s.codesValid := rfl
@[simp] theorem State.clearIrq_errcode (s : State) (m : Word) : (s.clearIrq m).errcode = s.errcode := rfl
@[simp] theorem State.clearIrq_lastop (s : State) (m : Word) : (s.clearIrq m).lastop = s.lastop := rfl
@[simp] theorem State.clearIrq_irqEn (s : State) (m : Word) : (s.clearIrq m).irqEn = s.irqEn := rfl
@[simp] theorem State.clearIrq_irqPend (s : State) (m : Word) : (s.clearIrq m).irqPend = s.irqPend &&& ~~~(m.extractLsb' 0 3) := rfl
@[simp] theorem State.clearIrq_errInfo (s : State) (m : Word) : (s.clearIrq m).errInfo = s.errInfo := rfl
@[simp] theorem State.clearIrq_errAux (s : State) (m : Word) : (s.clearIrq m).errAux = s.errAux := rfl
@[simp] theorem State.clearIrq_symCount (s : State) (m : Word) : (s.clearIrq m).symCount = s.symCount := rfl
@[simp] theorem State.clearIrq_bitCount (s : State) (m : Word) : (s.clearIrq m).bitCount = s.bitCount := rfl
@[simp] theorem State.clearIrq_byteCount (s : State) (m : Word) : (s.clearIrq m).byteCount = s.byteCount := rfl
@[simp] theorem State.clearIrq_leafCount (s : State) (m : Word) : (s.clearIrq m).leafCount = s.leafCount := rfl
@[simp] theorem State.clearIrq_nodeCount (s : State) (m : Word) : (s.clearIrq m).nodeCount = s.nodeCount := rfl
@[simp] theorem State.clearIrq_root (s : State) (m : Word) : (s.clearIrq m).root = s.root := rfl
@[simp] theorem State.clearIrq_nodeSel (s : State) (m : Word) : (s.clearIrq m).nodeSel = s.nodeSel := rfl
@[simp] theorem State.clearIrq_codeSel (s : State) (m : Word) : (s.clearIrq m).codeSel = s.codeSel := rfl
@[simp] theorem State.clearIrq_freq (s : State) (m : Word) : (s.clearIrq m).freq = s.freq := rfl
@[simp] theorem State.clearIrq_node (s : State) (m : Word) : (s.clearIrq m).node = s.node := rfl
@[simp] theorem State.clearIrq_code (s : State) (m : Word) : (s.clearIrq m).code = s.code := rfl
@[simp] theorem State.clearIrq_symBuf (s : State) (m : Word) : (s.clearIrq m).symBuf = s.symBuf := rfl
@[simp] theorem State.clearIrq_byteBuf (s : State) (m : Word) : (s.clearIrq m).byteBuf = s.byteBuf := rfl
@[simp] theorem State.clearIrq_symDraw (s : State) (m : Word) : (s.clearIrq m).symDraw = s.symDraw := rfl
@[simp] theorem State.clearIrq_byteDraw (s : State) (m : Word) : (s.clearIrq m).byteDraw = s.byteDraw := rfl
@[simp] theorem State.clearIrq_resp (s : State) (m : Word) : (s.clearIrq m).resp = s.resp := rfl
@[simp] theorem State.clearIrq_inbox (s : State) (m : Word) : (s.clearIrq m).inbox = s.inbox := rfl

/-! ### setFreq -/

@[simp] theorem State.setFreq_params (s : State) (k : Nat) (v : Word) : (s.setFreq k v).params = s.params := rfl
@[simp] theorem State.setFreq_eng (s : State) (k : Nat) (v : Word) : (s.setFreq k v).eng = s.eng := rfl
@[simp] theorem State.setFreq_done (s : State) (k : Nat) (v : Word) : (s.setFreq k v).done = s.done := rfl
@[simp] theorem State.setFreq_err (s : State) (k : Nat) (v : Word) : (s.setFreq k v).err = s.err := rfl
@[simp] theorem State.setFreq_treeValid (s : State) (k : Nat) (v : Word) : (s.setFreq k v).treeValid = s.treeValid := rfl
@[simp] theorem State.setFreq_codesValid (s : State) (k : Nat) (v : Word) : (s.setFreq k v).codesValid = s.codesValid := rfl
@[simp] theorem State.setFreq_errcode (s : State) (k : Nat) (v : Word) : (s.setFreq k v).errcode = s.errcode := rfl
@[simp] theorem State.setFreq_lastop (s : State) (k : Nat) (v : Word) : (s.setFreq k v).lastop = s.lastop := rfl
@[simp] theorem State.setFreq_irqEn (s : State) (k : Nat) (v : Word) : (s.setFreq k v).irqEn = s.irqEn := rfl
@[simp] theorem State.setFreq_irqPend (s : State) (k : Nat) (v : Word) : (s.setFreq k v).irqPend = s.irqPend := rfl
@[simp] theorem State.setFreq_errInfo (s : State) (k : Nat) (v : Word) : (s.setFreq k v).errInfo = s.errInfo := rfl
@[simp] theorem State.setFreq_errAux (s : State) (k : Nat) (v : Word) : (s.setFreq k v).errAux = s.errAux := rfl
@[simp] theorem State.setFreq_symCount (s : State) (k : Nat) (v : Word) : (s.setFreq k v).symCount = s.symCount := rfl
@[simp] theorem State.setFreq_bitCount (s : State) (k : Nat) (v : Word) : (s.setFreq k v).bitCount = s.bitCount := rfl
@[simp] theorem State.setFreq_byteCount (s : State) (k : Nat) (v : Word) : (s.setFreq k v).byteCount = s.byteCount := rfl
@[simp] theorem State.setFreq_leafCount (s : State) (k : Nat) (v : Word) : (s.setFreq k v).leafCount = s.leafCount := rfl
@[simp] theorem State.setFreq_nodeCount (s : State) (k : Nat) (v : Word) : (s.setFreq k v).nodeCount = s.nodeCount := rfl
@[simp] theorem State.setFreq_root (s : State) (k : Nat) (v : Word) : (s.setFreq k v).root = s.root := rfl
@[simp] theorem State.setFreq_nodeSel (s : State) (k : Nat) (v : Word) : (s.setFreq k v).nodeSel = s.nodeSel := rfl
@[simp] theorem State.setFreq_codeSel (s : State) (k : Nat) (v : Word) : (s.setFreq k v).codeSel = s.codeSel := rfl
@[simp] theorem State.setFreq_freq (s : State) (k : Nat) (v : Word) : (s.setFreq k v).freq = if v = 0 then Cells.drop s.freq k else Cells.put s.freq k v := rfl
@[simp] theorem State.setFreq_node (s : State) (k : Nat) (v : Word) : (s.setFreq k v).node = s.node := rfl
@[simp] theorem State.setFreq_code (s : State) (k : Nat) (v : Word) : (s.setFreq k v).code = s.code := rfl
@[simp] theorem State.setFreq_symBuf (s : State) (k : Nat) (v : Word) : (s.setFreq k v).symBuf = s.symBuf := rfl
@[simp] theorem State.setFreq_byteBuf (s : State) (k : Nat) (v : Word) : (s.setFreq k v).byteBuf = s.byteBuf := rfl
@[simp] theorem State.setFreq_symDraw (s : State) (k : Nat) (v : Word) : (s.setFreq k v).symDraw = s.symDraw := rfl
@[simp] theorem State.setFreq_byteDraw (s : State) (k : Nat) (v : Word) : (s.setFreq k v).byteDraw = s.byteDraw := rfl
@[simp] theorem State.setFreq_resp (s : State) (k : Nat) (v : Word) : (s.setFreq k v).resp = s.resp := rfl
@[simp] theorem State.setFreq_inbox (s : State) (k : Nat) (v : Word) : (s.setFreq k v).inbox = s.inbox := rfl

/-! ### writeSyms -/

@[simp] theorem State.writeSyms_params (s : State) (a : Nat) (bs : List Byte) : (s.writeSyms a bs).params = s.params := rfl
@[simp] theorem State.writeSyms_eng (s : State) (a : Nat) (bs : List Byte) : (s.writeSyms a bs).eng = s.eng := rfl
@[simp] theorem State.writeSyms_done (s : State) (a : Nat) (bs : List Byte) : (s.writeSyms a bs).done = s.done := rfl
@[simp] theorem State.writeSyms_err (s : State) (a : Nat) (bs : List Byte) : (s.writeSyms a bs).err = s.err := rfl
@[simp] theorem State.writeSyms_treeValid (s : State) (a : Nat) (bs : List Byte) : (s.writeSyms a bs).treeValid = s.treeValid := rfl
@[simp] theorem State.writeSyms_codesValid (s : State) (a : Nat) (bs : List Byte) : (s.writeSyms a bs).codesValid = s.codesValid := rfl
@[simp] theorem State.writeSyms_errcode (s : State) (a : Nat) (bs : List Byte) : (s.writeSyms a bs).errcode = s.errcode := rfl
@[simp] theorem State.writeSyms_lastop (s : State) (a : Nat) (bs : List Byte) : (s.writeSyms a bs).lastop = s.lastop := rfl
@[simp] theorem State.writeSyms_irqEn (s : State) (a : Nat) (bs : List Byte) : (s.writeSyms a bs).irqEn = s.irqEn := rfl
@[simp] theorem State.writeSyms_irqPend (s : State) (a : Nat) (bs : List Byte) : (s.writeSyms a bs).irqPend = s.irqPend := rfl
@[simp] theorem State.writeSyms_errInfo (s : State) (a : Nat) (bs : List Byte) : (s.writeSyms a bs).errInfo = s.errInfo := rfl
@[simp] theorem State.writeSyms_errAux (s : State) (a : Nat) (bs : List Byte) : (s.writeSyms a bs).errAux = s.errAux := rfl
@[simp] theorem State.writeSyms_symCount (s : State) (a : Nat) (bs : List Byte) : (s.writeSyms a bs).symCount = s.symCount := rfl
@[simp] theorem State.writeSyms_bitCount (s : State) (a : Nat) (bs : List Byte) : (s.writeSyms a bs).bitCount = s.bitCount := rfl
@[simp] theorem State.writeSyms_byteCount (s : State) (a : Nat) (bs : List Byte) : (s.writeSyms a bs).byteCount = s.byteCount := rfl
@[simp] theorem State.writeSyms_leafCount (s : State) (a : Nat) (bs : List Byte) : (s.writeSyms a bs).leafCount = s.leafCount := rfl
@[simp] theorem State.writeSyms_nodeCount (s : State) (a : Nat) (bs : List Byte) : (s.writeSyms a bs).nodeCount = s.nodeCount := rfl
@[simp] theorem State.writeSyms_root (s : State) (a : Nat) (bs : List Byte) : (s.writeSyms a bs).root = s.root := rfl
@[simp] theorem State.writeSyms_nodeSel (s : State) (a : Nat) (bs : List Byte) : (s.writeSyms a bs).nodeSel = s.nodeSel := rfl
@[simp] theorem State.writeSyms_codeSel (s : State) (a : Nat) (bs : List Byte) : (s.writeSyms a bs).codeSel = s.codeSel := rfl
@[simp] theorem State.writeSyms_freq (s : State) (a : Nat) (bs : List Byte) : (s.writeSyms a bs).freq = s.freq := rfl
@[simp] theorem State.writeSyms_node (s : State) (a : Nat) (bs : List Byte) : (s.writeSyms a bs).node = s.node := rfl
@[simp] theorem State.writeSyms_code (s : State) (a : Nat) (bs : List Byte) : (s.writeSyms a bs).code = s.code := rfl
@[simp] theorem State.writeSyms_symBuf (s : State) (a : Nat) (bs : List Byte) : (s.writeSyms a bs).symBuf = Cells.putAll s.symBuf a bs := rfl
@[simp] theorem State.writeSyms_byteBuf (s : State) (a : Nat) (bs : List Byte) : (s.writeSyms a bs).byteBuf = s.byteBuf := rfl
@[simp] theorem State.writeSyms_symDraw (s : State) (a : Nat) (bs : List Byte) : (s.writeSyms a bs).symDraw = s.symDraw := rfl
@[simp] theorem State.writeSyms_byteDraw (s : State) (a : Nat) (bs : List Byte) : (s.writeSyms a bs).byteDraw = s.byteDraw := rfl
@[simp] theorem State.writeSyms_resp (s : State) (a : Nat) (bs : List Byte) : (s.writeSyms a bs).resp = s.resp := rfl
@[simp] theorem State.writeSyms_inbox (s : State) (a : Nat) (bs : List Byte) : (s.writeSyms a bs).inbox = s.inbox := rfl

/-! ### writeBytes -/

@[simp] theorem State.writeBytes_params (s : State) (a : Nat) (bs : List Byte) : (s.writeBytes a bs).params = s.params := rfl
@[simp] theorem State.writeBytes_eng (s : State) (a : Nat) (bs : List Byte) : (s.writeBytes a bs).eng = s.eng := rfl
@[simp] theorem State.writeBytes_done (s : State) (a : Nat) (bs : List Byte) : (s.writeBytes a bs).done = s.done := rfl
@[simp] theorem State.writeBytes_err (s : State) (a : Nat) (bs : List Byte) : (s.writeBytes a bs).err = s.err := rfl
@[simp] theorem State.writeBytes_treeValid (s : State) (a : Nat) (bs : List Byte) : (s.writeBytes a bs).treeValid = s.treeValid := rfl
@[simp] theorem State.writeBytes_codesValid (s : State) (a : Nat) (bs : List Byte) : (s.writeBytes a bs).codesValid = s.codesValid := rfl
@[simp] theorem State.writeBytes_errcode (s : State) (a : Nat) (bs : List Byte) : (s.writeBytes a bs).errcode = s.errcode := rfl
@[simp] theorem State.writeBytes_lastop (s : State) (a : Nat) (bs : List Byte) : (s.writeBytes a bs).lastop = s.lastop := rfl
@[simp] theorem State.writeBytes_irqEn (s : State) (a : Nat) (bs : List Byte) : (s.writeBytes a bs).irqEn = s.irqEn := rfl
@[simp] theorem State.writeBytes_irqPend (s : State) (a : Nat) (bs : List Byte) : (s.writeBytes a bs).irqPend = s.irqPend := rfl
@[simp] theorem State.writeBytes_errInfo (s : State) (a : Nat) (bs : List Byte) : (s.writeBytes a bs).errInfo = s.errInfo := rfl
@[simp] theorem State.writeBytes_errAux (s : State) (a : Nat) (bs : List Byte) : (s.writeBytes a bs).errAux = s.errAux := rfl
@[simp] theorem State.writeBytes_symCount (s : State) (a : Nat) (bs : List Byte) : (s.writeBytes a bs).symCount = s.symCount := rfl
@[simp] theorem State.writeBytes_bitCount (s : State) (a : Nat) (bs : List Byte) : (s.writeBytes a bs).bitCount = s.bitCount := rfl
@[simp] theorem State.writeBytes_byteCount (s : State) (a : Nat) (bs : List Byte) : (s.writeBytes a bs).byteCount = s.byteCount := rfl
@[simp] theorem State.writeBytes_leafCount (s : State) (a : Nat) (bs : List Byte) : (s.writeBytes a bs).leafCount = s.leafCount := rfl
@[simp] theorem State.writeBytes_nodeCount (s : State) (a : Nat) (bs : List Byte) : (s.writeBytes a bs).nodeCount = s.nodeCount := rfl
@[simp] theorem State.writeBytes_root (s : State) (a : Nat) (bs : List Byte) : (s.writeBytes a bs).root = s.root := rfl
@[simp] theorem State.writeBytes_nodeSel (s : State) (a : Nat) (bs : List Byte) : (s.writeBytes a bs).nodeSel = s.nodeSel := rfl
@[simp] theorem State.writeBytes_codeSel (s : State) (a : Nat) (bs : List Byte) : (s.writeBytes a bs).codeSel = s.codeSel := rfl
@[simp] theorem State.writeBytes_freq (s : State) (a : Nat) (bs : List Byte) : (s.writeBytes a bs).freq = s.freq := rfl
@[simp] theorem State.writeBytes_node (s : State) (a : Nat) (bs : List Byte) : (s.writeBytes a bs).node = s.node := rfl
@[simp] theorem State.writeBytes_code (s : State) (a : Nat) (bs : List Byte) : (s.writeBytes a bs).code = s.code := rfl
@[simp] theorem State.writeBytes_symBuf (s : State) (a : Nat) (bs : List Byte) : (s.writeBytes a bs).symBuf = s.symBuf := rfl
@[simp] theorem State.writeBytes_byteBuf (s : State) (a : Nat) (bs : List Byte) : (s.writeBytes a bs).byteBuf = Cells.putAll s.byteBuf a bs := rfl
@[simp] theorem State.writeBytes_symDraw (s : State) (a : Nat) (bs : List Byte) : (s.writeBytes a bs).symDraw = s.symDraw := rfl
@[simp] theorem State.writeBytes_byteDraw (s : State) (a : Nat) (bs : List Byte) : (s.writeBytes a bs).byteDraw = s.byteDraw := rfl
@[simp] theorem State.writeBytes_resp (s : State) (a : Nat) (bs : List Byte) : (s.writeBytes a bs).resp = s.resp := rfl
@[simp] theorem State.writeBytes_inbox (s : State) (a : Nat) (bs : List Byte) : (s.writeBytes a bs).inbox = s.inbox := rfl

/-! ### respond -/

@[simp] theorem State.respond_params (s : State) (e : Bool) (d : Word) : (s.respond e d).params = s.params := rfl
@[simp] theorem State.respond_eng (s : State) (e : Bool) (d : Word) : (s.respond e d).eng = s.eng := rfl
@[simp] theorem State.respond_done (s : State) (e : Bool) (d : Word) : (s.respond e d).done = s.done := rfl
@[simp] theorem State.respond_err (s : State) (e : Bool) (d : Word) : (s.respond e d).err = s.err := rfl
@[simp] theorem State.respond_treeValid (s : State) (e : Bool) (d : Word) : (s.respond e d).treeValid = s.treeValid := rfl
@[simp] theorem State.respond_codesValid (s : State) (e : Bool) (d : Word) : (s.respond e d).codesValid = s.codesValid := rfl
@[simp] theorem State.respond_errcode (s : State) (e : Bool) (d : Word) : (s.respond e d).errcode = s.errcode := rfl
@[simp] theorem State.respond_lastop (s : State) (e : Bool) (d : Word) : (s.respond e d).lastop = s.lastop := rfl
@[simp] theorem State.respond_irqEn (s : State) (e : Bool) (d : Word) : (s.respond e d).irqEn = s.irqEn := rfl
@[simp] theorem State.respond_irqPend (s : State) (e : Bool) (d : Word) : (s.respond e d).irqPend = s.irqPend := rfl
@[simp] theorem State.respond_errInfo (s : State) (e : Bool) (d : Word) : (s.respond e d).errInfo = s.errInfo := rfl
@[simp] theorem State.respond_errAux (s : State) (e : Bool) (d : Word) : (s.respond e d).errAux = s.errAux := rfl
@[simp] theorem State.respond_symCount (s : State) (e : Bool) (d : Word) : (s.respond e d).symCount = s.symCount := rfl
@[simp] theorem State.respond_bitCount (s : State) (e : Bool) (d : Word) : (s.respond e d).bitCount = s.bitCount := rfl
@[simp] theorem State.respond_byteCount (s : State) (e : Bool) (d : Word) : (s.respond e d).byteCount = s.byteCount := rfl
@[simp] theorem State.respond_leafCount (s : State) (e : Bool) (d : Word) : (s.respond e d).leafCount = s.leafCount := rfl
@[simp] theorem State.respond_nodeCount (s : State) (e : Bool) (d : Word) : (s.respond e d).nodeCount = s.nodeCount := rfl
@[simp] theorem State.respond_root (s : State) (e : Bool) (d : Word) : (s.respond e d).root = s.root := rfl
@[simp] theorem State.respond_nodeSel (s : State) (e : Bool) (d : Word) : (s.respond e d).nodeSel = s.nodeSel := rfl
@[simp] theorem State.respond_codeSel (s : State) (e : Bool) (d : Word) : (s.respond e d).codeSel = s.codeSel := rfl
@[simp] theorem State.respond_freq (s : State) (e : Bool) (d : Word) : (s.respond e d).freq = s.freq := rfl
@[simp] theorem State.respond_node (s : State) (e : Bool) (d : Word) : (s.respond e d).node = s.node := rfl
@[simp] theorem State.respond_code (s : State) (e : Bool) (d : Word) : (s.respond e d).code = s.code := rfl
@[simp] theorem State.respond_symBuf (s : State) (e : Bool) (d : Word) : (s.respond e d).symBuf = s.symBuf := rfl
@[simp] theorem State.respond_byteBuf (s : State) (e : Bool) (d : Word) : (s.respond e d).byteBuf = s.byteBuf := rfl
@[simp] theorem State.respond_symDraw (s : State) (e : Bool) (d : Word) : (s.respond e d).symDraw = s.symDraw := rfl
@[simp] theorem State.respond_byteDraw (s : State) (e : Bool) (d : Word) : (s.respond e d).byteDraw = s.byteDraw := rfl
@[simp] theorem State.respond_resp (s : State) (e : Bool) (d : Word) : (s.respond e d).resp = some { err := e, rdata := d } := rfl
@[simp] theorem State.respond_inbox (s : State) (e : Bool) (d : Word) : (s.respond e d).inbox = s.inbox := rfl

/-! ### accept -/

@[simp] theorem State.accept_params (s : State) (v : Word) : (s.accept v).params = s.params := rfl
@[simp] theorem State.accept_eng (s : State) (v : Word) : (s.accept v).eng = .pending v := rfl
@[simp] theorem State.accept_done (s : State) (v : Word) : (s.accept v).done = false := rfl
@[simp] theorem State.accept_err (s : State) (v : Word) : (s.accept v).err = false := rfl
@[simp] theorem State.accept_treeValid (s : State) (v : Word) : (s.accept v).treeValid = s.treeValid := rfl
@[simp] theorem State.accept_codesValid (s : State) (v : Word) : (s.accept v).codesValid = s.codesValid := rfl
@[simp] theorem State.accept_errcode (s : State) (v : Word) : (s.accept v).errcode = .none := rfl
@[simp] theorem State.accept_lastop (s : State) (v : Word) : (s.accept v).lastop = cmdOp v := rfl
@[simp] theorem State.accept_irqEn (s : State) (v : Word) : (s.accept v).irqEn = s.irqEn := rfl
@[simp] theorem State.accept_irqPend (s : State) (v : Word) : (s.accept v).irqPend = s.irqPend := rfl
@[simp] theorem State.accept_errInfo (s : State) (v : Word) : (s.accept v).errInfo = 0 := rfl
@[simp] theorem State.accept_errAux (s : State) (v : Word) : (s.accept v).errAux = 0 := rfl
@[simp] theorem State.accept_symCount (s : State) (v : Word) : (s.accept v).symCount = s.symCount := rfl
@[simp] theorem State.accept_bitCount (s : State) (v : Word) : (s.accept v).bitCount = s.bitCount := rfl
@[simp] theorem State.accept_byteCount (s : State) (v : Word) : (s.accept v).byteCount = s.byteCount := rfl
@[simp] theorem State.accept_leafCount (s : State) (v : Word) : (s.accept v).leafCount = s.leafCount := rfl
@[simp] theorem State.accept_nodeCount (s : State) (v : Word) : (s.accept v).nodeCount = s.nodeCount := rfl
@[simp] theorem State.accept_root (s : State) (v : Word) : (s.accept v).root = s.root := rfl
@[simp] theorem State.accept_nodeSel (s : State) (v : Word) : (s.accept v).nodeSel = s.nodeSel := rfl
@[simp] theorem State.accept_codeSel (s : State) (v : Word) : (s.accept v).codeSel = s.codeSel := rfl
@[simp] theorem State.accept_freq (s : State) (v : Word) : (s.accept v).freq = s.freq := rfl
@[simp] theorem State.accept_node (s : State) (v : Word) : (s.accept v).node = s.node := rfl
@[simp] theorem State.accept_code (s : State) (v : Word) : (s.accept v).code = s.code := rfl
@[simp] theorem State.accept_symBuf (s : State) (v : Word) : (s.accept v).symBuf = s.symBuf := rfl
@[simp] theorem State.accept_byteBuf (s : State) (v : Word) : (s.accept v).byteBuf = s.byteBuf := rfl
@[simp] theorem State.accept_symDraw (s : State) (v : Word) : (s.accept v).symDraw = s.symDraw := rfl
@[simp] theorem State.accept_byteDraw (s : State) (v : Word) : (s.accept v).byteDraw = s.byteDraw := rfl
@[simp] theorem State.accept_resp (s : State) (v : Word) : (s.accept v).resp = s.resp := rfl
@[simp] theorem State.accept_inbox (s : State) (v : Word) : (s.accept v).inbox = s.inbox := rfl

/-! ### succeed -/

@[simp] theorem State.succeed_params (s : State) : s.succeed.params = s.params := rfl
@[simp] theorem State.succeed_eng (s : State) : s.succeed.eng = .idle := rfl
@[simp] theorem State.succeed_done (s : State) : s.succeed.done = true := rfl
@[simp] theorem State.succeed_err (s : State) : s.succeed.err = false := rfl
@[simp] theorem State.succeed_treeValid (s : State) : s.succeed.treeValid = s.treeValid := rfl
@[simp] theorem State.succeed_codesValid (s : State) : s.succeed.codesValid = s.codesValid := rfl
@[simp] theorem State.succeed_errcode (s : State) : s.succeed.errcode = .none := rfl
@[simp] theorem State.succeed_lastop (s : State) : s.succeed.lastop = s.lastop := rfl
@[simp] theorem State.succeed_irqEn (s : State) : s.succeed.irqEn = s.irqEn := rfl
@[simp] theorem State.succeed_irqPend (s : State) : s.succeed.irqPend = s.irqPend ||| irqOk := rfl
@[simp] theorem State.succeed_errInfo (s : State) : s.succeed.errInfo = s.errInfo := rfl
@[simp] theorem State.succeed_errAux (s : State) : s.succeed.errAux = s.errAux := rfl
@[simp] theorem State.succeed_symCount (s : State) : s.succeed.symCount = s.symCount := rfl
@[simp] theorem State.succeed_bitCount (s : State) : s.succeed.bitCount = s.bitCount := rfl
@[simp] theorem State.succeed_byteCount (s : State) : s.succeed.byteCount = s.byteCount := rfl
@[simp] theorem State.succeed_leafCount (s : State) : s.succeed.leafCount = s.leafCount := rfl
@[simp] theorem State.succeed_nodeCount (s : State) : s.succeed.nodeCount = s.nodeCount := rfl
@[simp] theorem State.succeed_root (s : State) : s.succeed.root = s.root := rfl
@[simp] theorem State.succeed_nodeSel (s : State) : s.succeed.nodeSel = s.nodeSel := rfl
@[simp] theorem State.succeed_codeSel (s : State) : s.succeed.codeSel = s.codeSel := rfl
@[simp] theorem State.succeed_freq (s : State) : s.succeed.freq = s.freq := rfl
@[simp] theorem State.succeed_node (s : State) : s.succeed.node = s.node := rfl
@[simp] theorem State.succeed_code (s : State) : s.succeed.code = s.code := rfl
@[simp] theorem State.succeed_symBuf (s : State) : s.succeed.symBuf = s.symBuf := rfl
@[simp] theorem State.succeed_byteBuf (s : State) : s.succeed.byteBuf = s.byteBuf := rfl
@[simp] theorem State.succeed_symDraw (s : State) : s.succeed.symDraw = s.symDraw := rfl
@[simp] theorem State.succeed_byteDraw (s : State) : s.succeed.byteDraw = s.byteDraw := rfl
@[simp] theorem State.succeed_resp (s : State) : s.succeed.resp = s.resp := rfl
@[simp] theorem State.succeed_inbox (s : State) : s.succeed.inbox = s.inbox := rfl

/-! ### raiseError -/

@[simp] theorem State.raiseError_params (s : State) (f : CmdFail) : (s.raiseError f).params = s.params := rfl
@[simp] theorem State.raiseError_eng (s : State) (f : CmdFail) : (s.raiseError f).eng = .idle := rfl
@[simp] theorem State.raiseError_done (s : State) (f : CmdFail) : (s.raiseError f).done = true := rfl
@[simp] theorem State.raiseError_err (s : State) (f : CmdFail) : (s.raiseError f).err = true := rfl
@[simp] theorem State.raiseError_treeValid (s : State) (f : CmdFail) : (s.raiseError f).treeValid = s.treeValid := rfl
@[simp] theorem State.raiseError_codesValid (s : State) (f : CmdFail) : (s.raiseError f).codesValid = s.codesValid := rfl
@[simp] theorem State.raiseError_errcode (s : State) (f : CmdFail) : (s.raiseError f).errcode = f.code := rfl
@[simp] theorem State.raiseError_lastop (s : State) (f : CmdFail) : (s.raiseError f).lastop = s.lastop := rfl
@[simp] theorem State.raiseError_irqEn (s : State) (f : CmdFail) : (s.raiseError f).irqEn = s.irqEn := rfl
@[simp] theorem State.raiseError_irqPend (s : State) (f : CmdFail) : (s.raiseError f).irqPend = s.irqPend ||| irqErr := rfl
@[simp] theorem State.raiseError_errInfo (s : State) (f : CmdFail) : (s.raiseError f).errInfo = f.info := rfl
@[simp] theorem State.raiseError_errAux (s : State) (f : CmdFail) : (s.raiseError f).errAux = f.aux := rfl
@[simp] theorem State.raiseError_symCount (s : State) (f : CmdFail) : (s.raiseError f).symCount = s.symCount := rfl
@[simp] theorem State.raiseError_bitCount (s : State) (f : CmdFail) : (s.raiseError f).bitCount = s.bitCount := rfl
@[simp] theorem State.raiseError_byteCount (s : State) (f : CmdFail) : (s.raiseError f).byteCount = s.byteCount := rfl
@[simp] theorem State.raiseError_leafCount (s : State) (f : CmdFail) : (s.raiseError f).leafCount = s.leafCount := rfl
@[simp] theorem State.raiseError_nodeCount (s : State) (f : CmdFail) : (s.raiseError f).nodeCount = s.nodeCount := rfl
@[simp] theorem State.raiseError_root (s : State) (f : CmdFail) : (s.raiseError f).root = s.root := rfl
@[simp] theorem State.raiseError_nodeSel (s : State) (f : CmdFail) : (s.raiseError f).nodeSel = s.nodeSel := rfl
@[simp] theorem State.raiseError_codeSel (s : State) (f : CmdFail) : (s.raiseError f).codeSel = s.codeSel := rfl
@[simp] theorem State.raiseError_freq (s : State) (f : CmdFail) : (s.raiseError f).freq = s.freq := rfl
@[simp] theorem State.raiseError_node (s : State) (f : CmdFail) : (s.raiseError f).node = s.node := rfl
@[simp] theorem State.raiseError_code (s : State) (f : CmdFail) : (s.raiseError f).code = s.code := rfl
@[simp] theorem State.raiseError_symBuf (s : State) (f : CmdFail) : (s.raiseError f).symBuf = s.symBuf := rfl
@[simp] theorem State.raiseError_byteBuf (s : State) (f : CmdFail) : (s.raiseError f).byteBuf = s.byteBuf := rfl
@[simp] theorem State.raiseError_symDraw (s : State) (f : CmdFail) : (s.raiseError f).symDraw = s.symDraw := rfl
@[simp] theorem State.raiseError_byteDraw (s : State) (f : CmdFail) : (s.raiseError f).byteDraw = s.byteDraw := rfl
@[simp] theorem State.raiseError_resp (s : State) (f : CmdFail) : (s.raiseError f).resp = s.resp := rfl
@[simp] theorem State.raiseError_inbox (s : State) (f : CmdFail) : (s.raiseError f).inbox = s.inbox := rfl

/-! ### clearRegs -/

@[simp] theorem State.clearRegs_params (s : State) : s.clearRegs.params = s.params := rfl
@[simp] theorem State.clearRegs_eng (s : State) : s.clearRegs.eng = .idle := rfl
@[simp] theorem State.clearRegs_done (s : State) : s.clearRegs.done = false := rfl
@[simp] theorem State.clearRegs_err (s : State) : s.clearRegs.err = false := rfl
@[simp] theorem State.clearRegs_treeValid (s : State) : s.clearRegs.treeValid = false := rfl
@[simp] theorem State.clearRegs_codesValid (s : State) : s.clearRegs.codesValid = false := rfl
@[simp] theorem State.clearRegs_errcode (s : State) : s.clearRegs.errcode = .none := rfl
@[simp] theorem State.clearRegs_lastop (s : State) : s.clearRegs.lastop = 0 := rfl
@[simp] theorem State.clearRegs_irqEn (s : State) : s.clearRegs.irqEn = 0 := rfl
@[simp] theorem State.clearRegs_irqPend (s : State) : s.clearRegs.irqPend = 0 := rfl
@[simp] theorem State.clearRegs_errInfo (s : State) : s.clearRegs.errInfo = 0 := rfl
@[simp] theorem State.clearRegs_errAux (s : State) : s.clearRegs.errAux = 0 := rfl
@[simp] theorem State.clearRegs_symCount (s : State) : s.clearRegs.symCount = 0 := rfl
@[simp] theorem State.clearRegs_bitCount (s : State) : s.clearRegs.bitCount = 0 := rfl
@[simp] theorem State.clearRegs_byteCount (s : State) : s.clearRegs.byteCount = 0 := rfl
@[simp] theorem State.clearRegs_leafCount (s : State) : s.clearRegs.leafCount = 0 := rfl
@[simp] theorem State.clearRegs_nodeCount (s : State) : s.clearRegs.nodeCount = 0 := rfl
@[simp] theorem State.clearRegs_root (s : State) : s.clearRegs.root = 0 := rfl
@[simp] theorem State.clearRegs_nodeSel (s : State) : s.clearRegs.nodeSel = 0 := rfl
@[simp] theorem State.clearRegs_codeSel (s : State) : s.clearRegs.codeSel = 0 := rfl
@[simp] theorem State.clearRegs_freq (s : State) : s.clearRegs.freq = [] := rfl
@[simp] theorem State.clearRegs_node (s : State) : s.clearRegs.node = s.node := rfl
@[simp] theorem State.clearRegs_code (s : State) : s.clearRegs.code = s.code := rfl
@[simp] theorem State.clearRegs_symBuf (s : State) : s.clearRegs.symBuf = s.symBuf := rfl
@[simp] theorem State.clearRegs_byteBuf (s : State) : s.clearRegs.byteBuf = s.byteBuf := rfl
@[simp] theorem State.clearRegs_symDraw (s : State) : s.clearRegs.symDraw = s.symDraw := rfl
@[simp] theorem State.clearRegs_byteDraw (s : State) : s.clearRegs.byteDraw = s.byteDraw := rfl
@[simp] theorem State.clearRegs_resp (s : State) : s.clearRegs.resp = s.resp := rfl
@[simp] theorem State.clearRegs_inbox (s : State) : s.clearRegs.inbox = s.inbox := rfl

/-! ### drawSyms -/

@[simp] theorem State.drawSyms_params (s : State) : s.drawSyms.params = s.params := rfl
@[simp] theorem State.drawSyms_eng (s : State) : s.drawSyms.eng = s.eng := rfl
@[simp] theorem State.drawSyms_done (s : State) : s.drawSyms.done = s.done := rfl
@[simp] theorem State.drawSyms_err (s : State) : s.drawSyms.err = s.err := rfl
@[simp] theorem State.drawSyms_treeValid (s : State) : s.drawSyms.treeValid = s.treeValid := rfl
@[simp] theorem State.drawSyms_codesValid (s : State) : s.drawSyms.codesValid = s.codesValid := rfl
@[simp] theorem State.drawSyms_errcode (s : State) : s.drawSyms.errcode = s.errcode := rfl
@[simp] theorem State.drawSyms_lastop (s : State) : s.drawSyms.lastop = s.lastop := rfl
@[simp] theorem State.drawSyms_irqEn (s : State) : s.drawSyms.irqEn = s.irqEn := rfl
@[simp] theorem State.drawSyms_irqPend (s : State) : s.drawSyms.irqPend = s.irqPend := rfl
@[simp] theorem State.drawSyms_errInfo (s : State) : s.drawSyms.errInfo = s.errInfo := rfl
@[simp] theorem State.drawSyms_errAux (s : State) : s.drawSyms.errAux = s.errAux := rfl
@[simp] theorem State.drawSyms_symCount (s : State) : s.drawSyms.symCount = s.symCount := rfl
@[simp] theorem State.drawSyms_bitCount (s : State) : s.drawSyms.bitCount = s.bitCount := rfl
@[simp] theorem State.drawSyms_byteCount (s : State) : s.drawSyms.byteCount = s.byteCount := rfl
@[simp] theorem State.drawSyms_leafCount (s : State) : s.drawSyms.leafCount = s.leafCount := rfl
@[simp] theorem State.drawSyms_nodeCount (s : State) : s.drawSyms.nodeCount = s.nodeCount := rfl
@[simp] theorem State.drawSyms_root (s : State) : s.drawSyms.root = s.root := rfl
@[simp] theorem State.drawSyms_nodeSel (s : State) : s.drawSyms.nodeSel = s.nodeSel := rfl
@[simp] theorem State.drawSyms_codeSel (s : State) : s.drawSyms.codeSel = s.codeSel := rfl
@[simp] theorem State.drawSyms_freq (s : State) : s.drawSyms.freq = s.freq := rfl
@[simp] theorem State.drawSyms_node (s : State) : s.drawSyms.node = s.node := rfl
@[simp] theorem State.drawSyms_code (s : State) : s.drawSyms.code = s.code := rfl
@[simp] theorem State.drawSyms_symBuf (s : State) : s.drawSyms.symBuf = [] := rfl
@[simp] theorem State.drawSyms_byteBuf (s : State) : s.drawSyms.byteBuf = s.byteBuf := rfl
@[simp] theorem State.drawSyms_symDraw (s : State) : s.drawSyms.symDraw = s.symDraw + 1 := rfl
@[simp] theorem State.drawSyms_byteDraw (s : State) : s.drawSyms.byteDraw = s.byteDraw := rfl
@[simp] theorem State.drawSyms_resp (s : State) : s.drawSyms.resp = s.resp := rfl
@[simp] theorem State.drawSyms_inbox (s : State) : s.drawSyms.inbox = s.inbox := rfl

/-! ### drawBytes -/

@[simp] theorem State.drawBytes_params (s : State) : s.drawBytes.params = s.params := rfl
@[simp] theorem State.drawBytes_eng (s : State) : s.drawBytes.eng = s.eng := rfl
@[simp] theorem State.drawBytes_done (s : State) : s.drawBytes.done = s.done := rfl
@[simp] theorem State.drawBytes_err (s : State) : s.drawBytes.err = s.err := rfl
@[simp] theorem State.drawBytes_treeValid (s : State) : s.drawBytes.treeValid = s.treeValid := rfl
@[simp] theorem State.drawBytes_codesValid (s : State) : s.drawBytes.codesValid = s.codesValid := rfl
@[simp] theorem State.drawBytes_errcode (s : State) : s.drawBytes.errcode = s.errcode := rfl
@[simp] theorem State.drawBytes_lastop (s : State) : s.drawBytes.lastop = s.lastop := rfl
@[simp] theorem State.drawBytes_irqEn (s : State) : s.drawBytes.irqEn = s.irqEn := rfl
@[simp] theorem State.drawBytes_irqPend (s : State) : s.drawBytes.irqPend = s.irqPend := rfl
@[simp] theorem State.drawBytes_errInfo (s : State) : s.drawBytes.errInfo = s.errInfo := rfl
@[simp] theorem State.drawBytes_errAux (s : State) : s.drawBytes.errAux = s.errAux := rfl
@[simp] theorem State.drawBytes_symCount (s : State) : s.drawBytes.symCount = s.symCount := rfl
@[simp] theorem State.drawBytes_bitCount (s : State) : s.drawBytes.bitCount = s.bitCount := rfl
@[simp] theorem State.drawBytes_byteCount (s : State) : s.drawBytes.byteCount = s.byteCount := rfl
@[simp] theorem State.drawBytes_leafCount (s : State) : s.drawBytes.leafCount = s.leafCount := rfl
@[simp] theorem State.drawBytes_nodeCount (s : State) : s.drawBytes.nodeCount = s.nodeCount := rfl
@[simp] theorem State.drawBytes_root (s : State) : s.drawBytes.root = s.root := rfl
@[simp] theorem State.drawBytes_nodeSel (s : State) : s.drawBytes.nodeSel = s.nodeSel := rfl
@[simp] theorem State.drawBytes_codeSel (s : State) : s.drawBytes.codeSel = s.codeSel := rfl
@[simp] theorem State.drawBytes_freq (s : State) : s.drawBytes.freq = s.freq := rfl
@[simp] theorem State.drawBytes_node (s : State) : s.drawBytes.node = s.node := rfl
@[simp] theorem State.drawBytes_code (s : State) : s.drawBytes.code = s.code := rfl
@[simp] theorem State.drawBytes_symBuf (s : State) : s.drawBytes.symBuf = s.symBuf := rfl
@[simp] theorem State.drawBytes_byteBuf (s : State) : s.drawBytes.byteBuf = [] := rfl
@[simp] theorem State.drawBytes_symDraw (s : State) : s.drawBytes.symDraw = s.symDraw := rfl
@[simp] theorem State.drawBytes_byteDraw (s : State) : s.drawBytes.byteDraw = s.byteDraw + 1 := rfl
@[simp] theorem State.drawBytes_resp (s : State) : s.drawBytes.resp = s.resp := rfl
@[simp] theorem State.drawBytes_inbox (s : State) : s.drawBytes.inbox = s.inbox := rfl

end Sys2Proof.Machine
end

