-- ==== Sys2Proof/Laws/Memory.lean ====
section
/-! SUPPORT. The laws of the sparse memories: a read after a write, the canonical form, and the reads of the internal
memories after each write. -/

namespace Sys2Proof.Machine

open Sys2Proof

variable {α : Type}

/-! ## Reads after writes -/

theorem Cells.get_put (m : List (Nat × α)) (a b : Nat) (v : α) :
    Cells.get (Cells.put m a v) b = if b = a then some v else Cells.get m b := by
  induction m with
  | nil => simp [Cells.put, Cells.get]
  | cons c m ih =>
    obtain ⟨k, w⟩ := c
    by_cases h1 : a < k
    · simp [Cells.put, Cells.get, h1]
    · by_cases h2 : a = k
      · subst h2
        by_cases hb : b = a <;> simp [Cells.put, Cells.get, hb]
      · by_cases hb : b = k
        · have : b ≠ a := by omega
          simp [Cells.put, Cells.get, h1, h2, hb]; omega
        · simp [Cells.put, Cells.get, h1, h2, hb, ih]

theorem Cells.get_drop (m : List (Nat × α)) (a b : Nat) :
    Cells.get (Cells.drop m a) b = if b = a then none else Cells.get m b := by
  induction m with
  | nil => simp [Cells.drop, Cells.get]
  | cons c m ih =>
    obtain ⟨k, w⟩ := c
    simp only [Cells.drop] at ih
    by_cases hk : k = a
    · subst hk
      by_cases hb : b = k <;> simp [Cells.drop, Cells.get, hb] <;> simpa [hb] using ih
    · by_cases hb : b = k
      · subst hb; simp [Cells.drop, Cells.get, hk]
      · simp [Cells.drop, Cells.get, hk, hb, ih]

theorem Cells.get_putAll (m : List (Nat × α)) (a b : Nat) (vs : List α) :
    Cells.get (Cells.putAll m a vs) b = if a ≤ b then (vs[b - a]?).or (Cells.get m b) else Cells.get m b := by
  induction vs generalizing m a with
  | nil => simp [Cells.putAll]
  | cons v vs ih =>
    simp only [Cells.putAll, ih, Cells.get_put]
    by_cases h1 : a + 1 ≤ b
    · have h2 : a ≤ b := by omega
      have h3 : b - a = (b - (a + 1)) + 1 := by omega
      have h4 : b ≠ a := by omega
      simp [h1, h2, h3, h4]
    · by_cases h2 : b = a
      · simp [h2]
      · have h3 : ¬ a ≤ b := by omega
        simp [h1, h2, h3]

/-! ## The canonical form -/

/-- The indices of a memory rise strictly. -/
theorem Cells.sorted_iff (n : Nat) (m : List (Nat × α)) :
    Cells.sorted n m = true ↔ m.Pairwise (fun c d => c.1 < d.1) ∧ ∀ c ∈ m, c.1 < n := by
  induction m with
  | nil => simp [Cells.sorted]
  | cons c m ih =>
    obtain ⟨k, w⟩ := c
    cases m with
    | nil => simp [Cells.sorted]
    | cons d m =>
      obtain ⟨l, x⟩ := d
      simp only [Cells.sorted, Bool.and_eq_true, decide_eq_true_eq, ih, List.pairwise_cons, List.mem_cons, forall_eq_or_imp]
      constructor
      · rintro ⟨hkl, ⟨h1, h2⟩, h3, h4⟩
        exact ⟨⟨⟨hkl, fun c hc => hkl.trans (h1 c hc)⟩, h1, h2⟩, hkl.trans h3, h3, h4⟩
      · rintro ⟨⟨⟨hkl, -⟩, h1, h2⟩, -, h3, h4⟩
        exact ⟨hkl, ⟨h1, h2⟩, h3, h4⟩

theorem Cells.mem_put {m : List (Nat × α)} {a : Nat} {v : α} {c : Nat × α} (h : c ∈ Cells.put m a v) :
    c = (a, v) ∨ c ∈ m := by
  induction m with
  | nil => simpa [Cells.put] using h
  | cons d m ih =>
    obtain ⟨k, w⟩ := d
    simp only [Cells.put] at h
    split at h
    · simpa using h
    · split at h
      · rcases List.mem_cons.1 h with h | h
        · exact .inl h
        · exact .inr (List.mem_cons_of_mem _ h)
      · rcases List.mem_cons.1 h with h | h
        · exact .inr (by simp [h])
        · rcases ih h with h | h
          · exact .inl h
          · exact .inr (List.mem_cons_of_mem _ h)

theorem Cells.put_pairwise {m : List (Nat × α)} (a : Nat) (v : α) (h : m.Pairwise (fun c d => c.1 < d.1)) :
    (Cells.put m a v).Pairwise (fun c d => c.1 < d.1) := by
  induction m with
  | nil => simp [Cells.put]
  | cons d m ih =>
    obtain ⟨k, w⟩ := d
    obtain ⟨h1, h2⟩ := List.pairwise_cons.1 h
    simp only [Cells.put]
    split
    · rename_i hak
      refine List.pairwise_cons.2 ⟨fun c hc => ?_, h⟩
      rcases List.mem_cons.1 hc with hc | hc
      · simpa [hc] using hak
      · exact hak.trans (h1 c hc)
    · split
      · rename_i hak
        exact List.pairwise_cons.2 ⟨fun c hc => by simpa [hak] using h1 c hc, h2⟩
      · refine List.pairwise_cons.2 ⟨fun c hc => ?_, ih h2⟩
        rcases Cells.mem_put hc with hc | hc
        · simp [hc]; omega
        · exact h1 c hc

theorem Cells.sorted_put {n : Nat} {m : List (Nat × α)} {a : Nat} (v : α) (h : Cells.sorted n m = true) (ha : a < n) :
    Cells.sorted n (Cells.put m a v) = true := by
  rw [Cells.sorted_iff] at h ⊢
  refine ⟨Cells.put_pairwise a v h.1, fun c hc => ?_⟩
  rcases Cells.mem_put hc with hc | hc
  · simpa [hc] using ha
  · exact h.2 c hc

theorem Cells.sorted_drop {n : Nat} {m : List (Nat × α)} (a : Nat) (h : Cells.sorted n m = true) :
    Cells.sorted n (Cells.drop m a) = true := by
  rw [Cells.sorted_iff] at h ⊢
  exact ⟨h.1.filter _, fun c hc => h.2 c (List.mem_of_mem_filter hc)⟩

theorem Cells.sorted_putAll {n : Nat} {m : List (Nat × α)} {a : Nat} (vs : List α) (h : Cells.sorted n m = true)
    (ha : a + vs.length ≤ n) : Cells.sorted n (Cells.putAll m a vs) = true := by
  induction vs generalizing m a with
  | nil => exact h
  | cons v vs ih =>
    simp only [List.length_cons] at ha
    exact ih (Cells.sorted_put v h (by omega)) (by omega)

/-! ## The internal memories -/

@[simp] theorem State.freqAt_setFreq (s : State) (k j : Nat) (v : Word) :
    (s.setFreq k v).freqAt j = if j = k then v else s.freqAt j := by
  by_cases hv : v = 0#32 <;> by_cases hj : j = k <;> simp [State.freqAt, hv, hj, Cells.get_put, Cells.get_drop]

/-- A byte of `SYM_BUF` is read from its list and its draw. -/
theorem State.symAt_congr {s t : State} (h1 : t.symBuf = s.symBuf) (h2 : t.symDraw = s.symDraw) (i : Nat) :
    t.symAt i = s.symAt i := by
  rw [State.symAt, State.symAt, h1, h2]

/-- A byte of `BYTE_BUF` is read from its list and its draw. -/
theorem State.byteAt_congr {s t : State} (h1 : t.byteBuf = s.byteBuf) (h2 : t.byteDraw = s.byteDraw) (i : Nat) :
    t.byteAt i = s.byteAt i := by
  rw [State.byteAt, State.byteAt, h1, h2]

theorem State.symAt_writeSyms (s : State) (a i : Nat) (bs : List Byte) :
    (s.writeSyms a bs).symAt i = if a ≤ i then (bs[i - a]?).getD (s.symAt i) else s.symAt i := by
  by_cases h : a ≤ i <;> cases hb : bs[i - a]? <;> simp [State.symAt, Cells.get_putAll, h, hb]

theorem State.byteAt_writeBytes (s : State) (a i : Nat) (bs : List Byte) :
    (s.writeBytes a bs).byteAt i = if a ≤ i then (bs[i - a]?).getD (s.byteAt i) else s.byteAt i := by
  by_cases h : a ≤ i <;> cases hb : bs[i - a]? <;> simp [State.byteAt, Cells.get_putAll, h, hb]

theorem nodeAt_append_left {N M : List Node} {k : Nat} (h : k < N.length) : nodeAt (N ++ M) k = nodeAt N k := by
  simp [nodeAt, List.getElem?_append_left h]

theorem nodeAt_append_length (N : List Node) (n : Node) : nodeAt (N ++ [n]) N.length = n := by
  simp [nodeAt]

/-- BUILD keeps the node entries past the tree (R510). -/
theorem nodeAt_append_drop {N M : List Node} {k : Nat} (h : N.length ≤ k) :
    nodeAt (N ++ M.drop N.length) k = nodeAt M k := by
  simp only [nodeAt, List.getD_eq_getElem?_getD]
  rw [List.getElem?_append_right h, List.getElem?_drop]
  congr 2
  omega

/-! ## Every memory operation keeps the canonical form -/

theorem Memory.wf_iff (s : State) : Memory.wf s = true ↔
    Cells.sorted 256 s.freq = true ∧ (∀ c ∈ s.freq, c.2 ≠ 0) ∧ nodeMemWf s.node = true ∧
    Cells.sorted 256 s.code = true ∧ (∀ c ∈ s.code, c.2 ≠ CodeEntry.invalid) ∧
    Cells.sorted s.params.symDepth s.symBuf = true ∧ Cells.sorted s.params.byteDepth s.byteBuf = true := by
  simp [Memory.wf, and_assoc]

/-- Only the memories and the sizes matter. -/
theorem Memory.wf_congr {s t : State} (h : Memory.wf s = true) (hp : t.params = s.params) (hf : t.freq = s.freq)
    (hn : t.node = s.node) (hc : t.code = s.code) (hs : t.symBuf = s.symBuf) (hb : t.byteBuf = s.byteBuf) :
    Memory.wf t = true := by
  rw [Memory.wf_iff] at h ⊢
  rwa [hp, hf, hn, hc, hs, hb]

theorem Memory.wf_resetWith (p : Params) : Memory.wf (State.resetWith p) = true := by
  simp [Memory.wf_iff, State.resetWith, Cells.sorted, nodeMemWf]

theorem Memory.wf_setFreq {s : State} {k : Nat} (v : Word) (h : Memory.wf s = true) (hk : k < 256) :
    Memory.wf (s.setFreq k v) = true := by
  rw [Memory.wf_iff] at h ⊢
  obtain ⟨h1, h2, h3⟩ := h
  refine ⟨?_, ?_, h3⟩
  · by_cases hv : v = 0#32
    · simpa [hv] using Cells.sorted_drop k h1
    · simpa [hv] using Cells.sorted_put v h1 hk
  · intro c hc
    rw [State.setFreq_freq] at hc
    split at hc
    · exact h2 c (List.mem_filter.1 hc).1
    · rename_i hv
      rcases Cells.mem_put hc with hc | hc
      · rw [hc]; exact hv
      · exact h2 c hc

theorem Memory.wf_writeSyms {s : State} {a : Nat} (bs : List Byte) (h : Memory.wf s = true)
    (ha : a + bs.length ≤ s.params.symDepth) : Memory.wf (s.writeSyms a bs) = true := by
  rw [Memory.wf_iff] at h ⊢
  obtain ⟨h1, h2, h3, h4, h5, h6, h7⟩ := h
  exact ⟨h1, h2, h3, h4, h5, Cells.sorted_putAll bs h6 ha, h7⟩

theorem Memory.wf_writeBytes {s : State} {a : Nat} (bs : List Byte) (h : Memory.wf s = true)
    (ha : a + bs.length ≤ s.params.byteDepth) : Memory.wf (s.writeBytes a bs) = true := by
  rw [Memory.wf_iff] at h ⊢
  obtain ⟨h1, h2, h3, h4, h5, h6, h7⟩ := h
  exact ⟨h1, h2, h3, h4, h5, h6, Cells.sorted_putAll bs h7 ha⟩

theorem Memory.wf_clearRegs {s : State} (h : Memory.wf s = true) : Memory.wf s.clearRegs = true := by
  rw [Memory.wf_iff] at h ⊢
  exact ⟨rfl, by simp, h.2.2⟩

theorem Memory.wf_drawSyms {s : State} (h : Memory.wf s = true) : Memory.wf s.drawSyms = true := by
  rw [Memory.wf_iff] at h ⊢
  obtain ⟨h1, h2, h3, h4, h5, h6, h7⟩ := h
  exact ⟨h1, h2, h3, h4, h5, rfl, h7⟩

theorem Memory.wf_drawBytes {s : State} (h : Memory.wf s = true) : Memory.wf s.drawBytes = true := by
  rw [Memory.wf_iff] at h ⊢
  obtain ⟨h1, h2, h3, h4, h5, h6, h7⟩ := h
  exact ⟨h1, h2, h3, h4, h5, h6, rfl⟩

theorem Memory.wf_softReset {s : State} (h : Memory.wf s = true) : Memory.wf s.softReset = true := by
  unfold State.softReset
  split
  · exact Memory.wf_drawBytes (Memory.wf_clearRegs h)
  · split
    · exact Memory.wf_drawSyms (Memory.wf_clearRegs h)
    · exact Memory.wf_clearRegs h

theorem Memory.wf_powerOn {s : State} (h : Memory.wf s = true) : Memory.wf s.powerOn = true := by
  have h' := Memory.wf_drawBytes (Memory.wf_drawSyms (Memory.wf_clearRegs h))
  rw [Memory.wf_iff] at h' ⊢
  obtain ⟨h1, h2, -, -, -, h6, h7⟩ := h'
  exact ⟨h1, h2, rfl, rfl, by simp [State.powerOn], h6, h7⟩

end Sys2Proof.Machine
end

