-- ==== Sys2Proof/Laws/Decode.lean ====
section
/-! SUPPORT. The bits of an encoded request and of a response (R305), and of a command word (R301). -/

namespace Sys2Proof

/-- Bit 50 is WRITE, bits 49:32 are ADDR and bits 31:0 are WDATA (R305). -/
theorem getLsbD_encodeTxn (write : Bool) (addr : Addr) (wdata : Word) {i : Nat} (hi : i < 51) :
    (encodeTxn write addr wdata).getLsbD i =
      if i = 50 then write else if 32 ≤ i then addr.getLsbD (i - 32) else wdata.getLsbD i := by
  by_cases h50 : i = 50
  · subst h50
    simp [encodeTxn]
  · have hw : ¬ 50 ≤ i := by omega
    by_cases h32 : 32 ≤ i
    · have hd : wdata.getLsbD i = false := BitVec.getLsbD_of_ge _ _ (by omega)
      have hn : ¬ i < 32 := by omega
      simp only [encodeTxn, BitVec.getLsbD_or, BitVec.getLsbD_shiftLeft, BitVec.getLsbD_setWidth, hd, hi, h50, h32, hn]
      simp [show i < 50 by omega, show i - 32 < 51 by omega]
    · have hn : i < 32 := by omega
      simp only [encodeTxn, BitVec.getLsbD_or, BitVec.getLsbD_shiftLeft, BitVec.getLsbD_setWidth, hi, h50, h32, hn]
      simp [show i < 50 by omega]

/-! ## Responses (R305) -/

/-- Every bit of a response word: ERR in bit 32 and RDATA below. -/
theorem getLsbD_encodeResponse (err : Bool) (rdata : Word) {i : Nat} (hi : i < 33) :
    (encodeResponse err rdata).getLsbD i = if i = 32 then err else rdata.getLsbD i := by
  by_cases h : i = 32
  · subst h; simp [encodeResponse]
  · have h' : i < 32 := by omega
    simp [encodeResponse, h, h', hi]

@[simp] theorem responseErr_encode (err : Bool) (rdata : Word) : responseErr (encodeResponse err rdata) = err := by
  rw [responseErr, getLsbD_encodeResponse _ _ (by decide), if_pos rfl]

@[simp] theorem responseData_encode (err : Bool) (rdata : Word) : responseData (encodeResponse err rdata) = rdata := by
  apply BitVec.eq_of_getLsbD_eq
  intro i hi
  rw [responseData, BitVec.getLsbD_extractLsb', getLsbD_encodeResponse _ _ (by omega)]
  simp [hi, show i ≠ 32 by omega]

/-- Every response word is the encoding of its two fields. -/
theorem encodeResponse_fields (r : TxnResponse) : encodeResponse (responseErr r) (responseData r) = r := by
  apply BitVec.eq_of_getLsbD_eq
  intro i hi
  rw [getLsbD_encodeResponse _ _ hi]
  by_cases h : i = 32
  · rw [if_pos h, h, responseErr]
  · simp [h, responseData, show i < 32 by omega]

/-- A command word is its opcode when its reserved field is 0 (R301). -/
theorem cmd_eq {w : Word} {k : BitVec 4} : w = k.setWidth 32 ↔ cmdRsv w = 0 ∧ cmdOp w = k := by
  constructor
  · rintro rfl
    constructor
    · apply BitVec.eq_of_getLsbD_eq
      intro i hi
      simp [cmdRsv]
    · apply BitVec.eq_of_getLsbD_eq
      intro i hi
      have h1 : i < 32 := by omega
      simp [cmdOp, hi, h1, BitVec.getLsbD_eq_getElem]
  · rintro ⟨h1, rfl⟩
    apply BitVec.eq_of_getLsbD_eq
    intro i hi
    by_cases h4 : i < 4
    · simp only [cmdOp, BitVec.getLsbD_setWidth, BitVec.getLsbD_extractLsb', hi, h4, decide_true, Bool.true_and,
        Nat.zero_add]
    · have h2 := congrArg (fun v : BitVec 28 => v.getLsbD (i - 4)) h1
      have h3 : 4 + (i - 4) = i := by omega
      have h5 : i - 4 < 28 := by omega
      simp only [cmdRsv, BitVec.getLsbD_extractLsb', h3, h5, decide_true, Bool.true_and] at h2
      have h6 : (0 : BitVec 28).getLsbD (i - 4) = false := by simp
      rw [h2, h6]
      simp only [cmdOp, BitVec.getLsbD_setWidth, BitVec.getLsbD_extractLsb', h4, decide_false, Bool.false_and,
        Bool.and_false]

end Sys2Proof
end

