-- ==== Sys2Proof/Laws/Ops.lean ====
section
/-! SUPPORT. What each shared operation can do, said once: command completion, the two resets, the bits of a byte and of
a word, and what the next step is. -/

namespace Sys2Proof.Machine

open Sys2Proof

/-! ## Completion -/

/-- A command that ends with an error leaves what `raiseError` leaves on the state before it (R1005). -/
theorem State.complete_err {s t : State} {r : Except CmdFail State} (h : s.complete r = t) (he : t.err = true) :
    ∃ f, r = .error f ∧ t = s.raiseError f := by
  cases r with
  | error f => exact ⟨f, rfl, h.symm⟩
  | ok u => subst h; simp [State.complete] at he

/-- A command that ends without an error commits its updates (R1104). -/
theorem State.complete_ok {s t : State} {r : Except CmdFail State} (h : s.complete r = t) (he : t.err = false) :
    ∃ u, r = .ok u ∧ t = u.succeed := by
  cases r with
  | ok u => exact ⟨u, rfl, h.symm⟩
  | error f => subst h; simp [State.complete] at he

@[simp] theorem State.complete_eng (s : State) (r : Except CmdFail State) : (s.complete r).eng = .idle := by
  cases r <;> rfl

@[simp] theorem State.complete_done (s : State) (r : Except CmdFail State) : (s.complete r).done = true := by
  cases r <;> rfl

/-! ## Resets -/

/-- A soft reset clears the registers and draws at most one buffer anew (R1101, R1102). -/
theorem State.softReset_cases (s : State) :
    (s.eng = .pending 0x3 ∧ s.softReset = s.clearRegs.drawBytes) ∨
    (s.eng = .pending 0x4 ∧ s.softReset = s.clearRegs.drawSyms) ∨
    (s.eng ≠ .pending 0x3 ∧ s.eng ≠ .pending 0x4 ∧ s.softReset = s.clearRegs) := by
  unfold State.softReset
  split
  · exact .inl ⟨‹_›, rfl⟩
  · split
    · exact .inr (.inl ⟨‹_›, rfl⟩)
    · exact .inr (.inr ⟨‹_›, ‹_›, rfl⟩)

/-- A soft reset and the memories (R160, R1101, R1102): a buffer is drawn anew only when it aborts the command that
writes it. -/
theorem State.softReset_memories (s : State) :
    s.softReset.params = s.params ∧ s.softReset.node = s.node ∧ s.softReset.code = s.code ∧
    (s.eng ≠ .pending 0x4 → s.softReset.symBuf = s.symBuf ∧ s.softReset.symDraw = s.symDraw) ∧
    (s.eng ≠ .pending 0x3 → s.softReset.byteBuf = s.byteBuf ∧ s.softReset.byteDraw = s.byteDraw) := by
  rcases State.softReset_cases s with ⟨h, e⟩ | ⟨h, e⟩ | ⟨-, -, e⟩ <;> rw [e] <;> simp [*]

/-! ## Bus responses -/

/-- The record and the word of a response say the same (R305). -/
@[simp] theorem BusResponse.ofWord_word (r : BusResponse) : BusResponse.ofWord r.word = r := by
  simp [BusResponse.ofWord, BusResponse.word]

@[simp] theorem BusResponse.word_ofWord (w : TxnResponse) : (BusResponse.ofWord w).word = w := encodeResponse_fields w

/-! ## Bits -/

/-- Appending a bit doubles the number and adds it. -/
theorem bitsToNat_append (bs : BitString) (b : Bool) : bitsToNat (bs ++ [b]) = 2 * bitsToNat bs + b.toNat := by
  simp [bitsToNat]

/-- A bit string of `n` bits is a number below 2 ^ n. -/
theorem bitsToNat_lt (bs : BitString) : bitsToNat bs < 2 ^ bs.length := by
  induction bs using List.reverseRecOn with
  | nil => simp [bitsToNat]
  | append_singleton bs b ih =>
    rw [bitsToNat_append, List.length_append, List.length_singleton, pow_succ]
    have : b.toNat ≤ 1 := Bool.toNat_le b
    omega

/-- Bit `i` of the number, from the least significant, is bit `n - 1 - i` of the string. -/
theorem testBit_bitsToNat (bs : BitString) (i : Nat) (h : i < bs.length) :
    (bitsToNat bs).testBit i = bs.getD (bs.length - 1 - i) false := by
  induction bs using List.reverseRecOn generalizing i with
  | nil => simp at h
  | append_singleton bs b ih =>
    rw [bitsToNat_append]
    rw [List.length_append, List.length_singleton] at h ⊢
    cases i with
    | zero =>
      cases b <;> simp [Nat.testBit_zero]
    | succ i =>
      have h1 : (2 * bitsToNat bs + b.toNat) / 2 = bitsToNat bs := by
        have : b.toNat ≤ 1 := Bool.toNat_le b
        omega
      rw [Nat.testBit_succ, h1, ih i (by omega)]
      rw [List.getD_eq_getElem?_getD, List.getD_eq_getElem?_getD, List.getElem?_append_left (by omega)]
      congr 2
      omega

@[simp] theorem bitWindow_length (bs : BitString) (a n : Nat) : (bitWindow bs a n).length = n := by simp [bitWindow]

theorem bitWindow_getD (bs : BitString) (a n i : Nat) (h : i < n) :
    (bitWindow bs a n).getD i false = bs.getD (a + i) false := by
  simp [bitWindow, h]

/-- Bit `n - 1 - j` of a window of `n` bits read as an `n`-bit number is its bit `j`, the first bit the most significant
(R140, R706). -/
theorem getLsbD_bitWindow (bs : BitString) (a n j : Nat) (h : j < n) :
    (BitVec.ofNat n (bitsToNat (bitWindow bs a n))).getLsbD (n - 1 - j) = bs.getD (a + j) false := by
  rw [BitVec.getLsbD_ofNat, testBit_bitsToNat _ _ (by simp; omega), bitWindow_length]
  rw [bitWindow_getD _ _ _ _ (by omega)]
  have : n - 1 - (n - 1 - j) = j := by omega
  simp [this]; omega

/-- The bits of a field placed in a register word. -/
theorem getLsbD_fieldAt {n : Nat} (v : BitVec n) (lo i : Nat) :
    (fieldAt v lo).getLsbD i = (decide (i < 32) && decide (lo ≤ i) && v.getLsbD (i - lo)) := by
  by_cases h1 : i < 32 <;> by_cases h2 : lo ≤ i <;> simp [fieldAt, h1, h2]

theorem getLsbD_bitAt (b : Bool) (lo i : Nat) (h : lo < 32) : (bitAt b lo).getLsbD i = (decide (i = lo) && b) := by
  rw [bitAt, getLsbD_fieldAt]
  by_cases h1 : i = lo
  · subst h1; simp [h]
  · by_cases h2 : lo ≤ i
    · have : i - lo ≠ 0 := by omega
      simp [h1, BitVec.getLsbD_ofBool, this]
    · simp [h1, h2]

/-- The four bytes of a joined word (R202). -/
theorem joinBytes_bytes (a b c d : Byte) :
    (joinBytes a b c d).extractLsb' 24 8 = a ∧ (joinBytes a b c d).extractLsb' 16 8 = b ∧
    (joinBytes a b c d).extractLsb' 8 8 = c ∧ (joinBytes a b c d).extractLsb' 0 8 = d := by
  refine ⟨?_, ?_, ?_, ?_⟩ <;>
  · ext i hi
    have h := hi
    interval_cases i <;> simp [joinBytes]

/-! ## What the next step is -/

/-- The decoder of bus requests gives well-formed host operations only. -/
theorem decodeTxn_cases (w : Txn) :
    (∃ a, decodeTxn w = .hostRead a) ∨ (∃ m, decodeTxn w = .irqAck m) ∨ decodeTxn w = .softReset ∨
    (∃ a v, decodeTxn w = .hostWrite a v ∧ a ≠ irqPendAddr ∧ ¬ (a = ctrlAddr ∧ v.getLsbD 0 = true)) := by
  unfold decodeTxn decodeWrite decodeCtrl
  split
  · split
    · exact .inr (.inl ⟨_, rfl⟩)
    · split
      · by_cases hb : (txnData w).getLsbD 0 = true
        · exact .inr (.inr (.inl (by rw [if_pos hb])))
        · refine .inr (.inr (.inr ⟨txnAddr w, txnData w, by rw [if_neg hb], ‹_›, fun h => hb h.2⟩))
      · exact .inr (.inr (.inr ⟨txnAddr w, txnData w, rfl, ‹_›, fun h => absurd h.1 ‹_›⟩))
  · exact .inl ⟨_, rfl⟩

/-- The decoder of command words gives the four commands only. -/
theorem decodeCmd_cases {w : Word} {i : Instr} (h : decodeCmd w = .ok i) :
    i = .build ∨ i = .gencodes ∨ i = .pack ∨ i = .unpack := by
  unfold decodeCmd at h
  split at h
  · split at h
    · exact .inl (by simpa using h.symm)
    · split at h
      · exact .inr (.inl (by simpa using h.symm))
      · split at h
        · exact .inr (.inr (.inl (by simpa using h.symm)))
        · split at h
          · exact .inr (.inr (.inr (by simpa using h.symm)))
          · simp at h
  · simp at h

/-- The state a step works on is the state with some rest of the events. -/
def Fetched.state : Fetched → State
  | .instr _ u => u
  | .illegal _ u => u
  | .powerOn u => u
  | .quiet u => u

theorem engineTurn_state (s : State) : (engineTurn s).state = s := by
  unfold engineTurn
  split
  · rfl
  · split <;> rfl

theorem fetch_state (s : State) : ∃ es, (fetch s).state = { s with inbox := es } := by
  unfold fetch
  split
  · exact ⟨s.inbox, engineTurn_state s⟩
  · exact ⟨_, rfl⟩
  · exact ⟨_, engineTurn_state _⟩
  · exact ⟨_, rfl⟩

theorem engineTurn_instr {s u : State} {i : Instr} (h : engineTurn s = .instr i u) :
    u = s ∧ ∃ w, s.eng = .pending w ∧ decodeCmd w = .ok i := by
  unfold engineTurn at h
  split at h
  · simp at h
  · split at h
    · simp only [Fetched.instr.injEq] at h
      obtain ⟨rfl, rfl⟩ := h
      exact ⟨rfl, _, ‹_›, ‹_›⟩
    · simp at h

theorem engineTurn_illegal {s u : State} {w : Word} (h : engineTurn s = .illegal w u) : u = s ∧ s.eng = .pending w := by
  unfold engineTurn at h
  split at h
  · simp at h
  · split at h
    · simp at h
    · simp only [Fetched.illegal.injEq] at h
      obtain ⟨rfl, rfl⟩ := h
      exact ⟨rfl, ‹_›⟩

/-- An operation comes from a bus request, or is a command the engine has pending. -/
theorem fetch_instr {s u : State} {i : Instr} (h : fetch s = .instr i u) :
    (∃ es, u = { s with inbox := es }) ∧
    ((∃ w es, s.inbox = .txn w :: es ∧ i = decodeTxn w) ∨ (∃ w, s.eng = .pending w ∧ decodeCmd w = .ok i)) := by
  obtain ⟨es, he⟩ := fetch_state s
  refine ⟨⟨es, by rw [← he, h]; rfl⟩, ?_⟩
  unfold fetch at h
  split at h
  · exact .inr (engineTurn_instr h).2
  · simp only [Fetched.instr.injEq] at h
    exact .inl ⟨_, _, ‹_›, h.1.symm⟩
  · exact .inr (engineTurn_instr h).2
  · simp at h

/-- An illegal command word is the engine's pending word. -/
theorem fetch_illegal {s u : State} {w : Word} (h : fetch s = .illegal w u) :
    (∃ es, u = { s with inbox := es }) ∧ s.eng = .pending w := by
  obtain ⟨es, he⟩ := fetch_state s
  refine ⟨⟨es, by rw [← he, h]; rfl⟩, ?_⟩
  unfold fetch at h
  split at h
  · exact (engineTurn_illegal h).2
  · simp at h
  · exact (engineTurn_illegal h).2
  · simp at h

/-- One step, said once: it runs an operation, reports an illegal command word, resets, or has nothing to do. -/
theorem step_cases {s t : State} (h : step s = .next t) :
    (∃ i u, fetch s = .instr i u ∧ exec i u = .next t) ∨
    (∃ w u, fetch s = .illegal w u ∧ t = u.raiseError { code := .illegalCmd, info := w, aux := 0 }) ∨
    (∃ u, fetch s = .powerOn u ∧ t = u.powerOn) ∨ (fetch s = .quiet t) := by
  unfold step at h
  split at h
  · exact .inl ⟨_, _, ‹_›, h⟩
  · simp only [performIllegal, Host.Outcome.next.injEq] at h
    exact .inr (.inl ⟨_, _, ‹_›, h.symm⟩)
  · simp only [Host.Outcome.next.injEq] at h
    exact .inr (.inr (.inl ⟨_, ‹_›, h.symm⟩))
  · simp only [Host.Outcome.next.injEq] at h
    exact .inr (.inr (.inr (h ▸ ‹_›)))

end Sys2Proof.Machine
end

