-- ==== Sys2Proof/Laws/Build.lean ====
section
/-! SUPPORT. What BUILD computes: the minimum of a collection, the invariant of the merge loop, and what the nodes it makes
are (R501..R512). -/

namespace Sys2Proof.Machine

open Sys2Proof

/-! ## The present symbols -/

theorem mem_presentSyms {f : Nat → Word} {c : Nat} : c ∈ presentSyms f ↔ c < 256 ∧ f c ≠ 0 := by
  simp [presentSyms]

theorem presentSyms_sorted (f : Nat → Word) : (presentSyms f).Pairwise (· < ·) :=
  List.Pairwise.filter _ List.pairwise_lt_range

theorem presentSyms_length_le (f : Nat → Word) : (presentSyms f).length ≤ 256 := by
  simpa [presentSyms] using List.length_filter_le (fun c => f c != 0) (List.range 256)

theorem presentSyms_congr {f g : Nat → Word} (h : ∀ k < 256, f k = g k) : presentSyms f = presentSyms g := by
  unfold presentSyms
  apply List.filter_congr
  intro k hk
  rw [h k (List.mem_range.1 hk)]

/-- The number of present symbols below `n`. -/
theorem presentSyms_count (f : Nat → Word) :
    (presentSyms f).length = (List.range 256).countP (fun k => f k != 0) := by
  rw [presentSyms, List.countP_eq_length_filter]

/-- The index of a present symbol is the number of present symbols below it (R502). -/
theorem presentSyms_getD {f : Nat → Word} {c : Nat} (hc : c < 256) (h : f c ≠ 0) :
    (List.range c).countP (fun k => f k != 0) < (presentSyms f).length ∧
    (presentSyms f).getD ((List.range c).countP (fun k => f k != 0)) 0 = c := by
  have hs : presentSyms f = (List.range c).filter (fun k => f k != 0) ++
      c :: ((List.range' (c + 1) (255 - c)).filter (fun k => f k != 0)) := by
    have e : List.range 256 = List.range c ++ c :: List.range' (c + 1) (255 - c) := by
      have h1 : 256 = c + ((255 - c) + 1) := by omega
      rw [List.range_eq_range', List.range_eq_range']
      conv_lhs => rw [h1]
      rw [← List.range'_append_1, List.range'_succ]
      simp
    unfold presentSyms
    rw [show Config.alphabet = 256 from rfl, e, List.filter_append, List.filter_cons_of_pos (by simpa using h)]
  rw [hs, List.countP_eq_length_filter]
  constructor
  · simp
  · rw [List.getD_eq_getElem?_getD, List.getElem?_append_right (Nat.le_refl _)]
    simp

/-! ## The minimum of a collection -/

theorem keyLt_iff (N : List Node) (a b : Nat) : keyLt N a b = true ↔ keyBelow N a b := by
  simp only [keyLt, keyBelow, Bool.or_eq_true, decide_eq_true_eq, Bool.and_eq_true, beq_iff_eq, BitVec.lt_def,
    ← BitVec.toNat_inj]

theorem keyBelow_trans {N : List Node} {a b c : Nat} (h1 : keyBelow N a b) (h2 : keyBelow N b c) : keyBelow N a c := by
  unfold keyBelow at *; omega

theorem keyBelow_total (N : List Node) {a b : Nat} (h : a ≠ b) : keyBelow N a b ∨ keyBelow N b a := by
  unfold keyBelow
  generalize (nodeAt N a).freq.toNat = x
  generalize (nodeAt N b).freq.toNat = y
  omega

theorem keyBelow_ne {N : List Node} {a b : Nat} (h : keyBelow N a b) : a ≠ b := by
  rintro rfl
  unfold keyBelow at h; omega

theorem not_keyBelow {N : List Node} {a b : Nat} (h : ¬ keyBelow N a b) : a = b ∨ keyBelow N b a := by
  unfold keyBelow at *; omega

/-- `argminKey` is a member with a key below every other (R17). -/
theorem argminKey_spec (N : List Node) (q : Nat) (Q : List Nat) :
    argminKey N q Q ∈ q :: Q ∧ ∀ x ∈ q :: Q, x ≠ argminKey N q Q → keyBelow N (argminKey N q Q) x := by
  induction Q generalizing q with
  | nil => simp [argminKey]
  | cons r R ih =>
    simp only [argminKey]
    by_cases h : keyLt N r q = true
    · rw [if_pos h]
      rw [keyLt_iff] at h
      obtain ⟨h1, h2⟩ := ih r
      refine ⟨List.mem_cons_of_mem _ h1, fun x hx hne => ?_⟩
      rcases List.mem_cons.1 hx with rfl | hx
      · by_cases hr : r = argminKey N r R
        · rwa [← hr]
        · exact keyBelow_trans (h2 r (by simp) hr) h
      · exact h2 x hx hne
    · rw [if_neg h]
      rw [keyLt_iff] at h
      obtain ⟨h1, h2⟩ := ih q
      refine ⟨?_, fun x hx hne => ?_⟩
      · rcases List.mem_cons.1 h1 with h1 | h1
        · rw [h1]; simp
        · exact List.mem_cons_of_mem _ (List.mem_cons_of_mem _ h1)
      · rcases List.mem_cons.1 hx with rfl | hx
        · exact h2 x (by simp) hne
        · rcases List.mem_cons.1 hx with rfl | hx
          · rcases not_keyBelow h with rfl | hq
            · exact h2 x (by simp) hne
            · by_cases hq' : q = argminKey N q R
              · rwa [← hq']
              · exact keyBelow_trans (h2 q (by simp) hq') hq
          · exact h2 x (List.mem_cons_of_mem _ hx) hne

/-! ## Appending a node -/

theorem nodeAt_append_of_ne {N : List Node} {n : Node} {k : Nat} (h : k < N.length) :
    nodeAt (N ++ [n]) k = nodeAt N k := nodeAt_append_left h

theorem isChild_append {N : List Node} {n : Node} {k c : Nat} (h : k < N.length) :
    isChild (N ++ [n]) k c ↔ isChild N k c := by
  unfold isChild; rw [nodeAt_append_of_ne h]

theorem inCollection_append {N : List Node} {n : Node} {L k j : Nat} (h : k ≤ N.length) :
    inCollection (N ++ [n]) L k j ↔ inCollection N L k j := by
  unfold inCollection
  constructor
  · rintro ⟨h1, h2⟩
    exact ⟨h1, fun m hm hk => by have := h2 m hm hk; rwa [isChild_append (by omega)] at this⟩
  · rintro ⟨h1, h2⟩
    exact ⟨h1, fun m hm hk => by rw [isChild_append (by omega)]; exact h2 m hm hk⟩

theorem keyBelow_append {N : List Node} {n : Node} {a b : Nat} (ha : a < N.length) (hb : b < N.length) :
    keyBelow (N ++ [n]) a b ↔ keyBelow N a b := by
  unfold keyBelow; rw [nodeAt_append_of_ne ha, nodeAt_append_of_ne hb]

/-! ## The merge loop -/

/-- Node `k` merges the two smallest nodes `a` and `b` of the collection (R504, R508). -/
structure MergedAt (N : List Node) (L k a b : Nat) : Prop where
  node : nodeAt N k = innerNode N a b
  memA : inCollection N L k a
  memB : inCollection N L k b
  below : keyBelow N a b
  smallest : ∀ j, inCollection N L k j → j ≠ a → j ≠ b → keyBelow N b j
  sum : (nodeAt N k).freq.toNat = (nodeAt N a).freq.toNat + (nodeAt N b).freq.toNat

/-- What holds at the head of the merge loop over `L` leaves whose frequencies sum to `total`. -/
structure MergeInv (L total : Nat) (N : List Node) (Q : List Nat) : Prop where
  leafLe : L ≤ N.length
  size : N.length + Q.length = 2 * L
  nonempty : 1 ≤ Q.length
  nodup : Q.Nodup
  mem : ∀ j, j ∈ Q ↔ inCollection N L N.length j
  last : L < N.length → N.length - 1 ∈ Q
  leaves : ∀ k < L, (nodeAt N k).hasL = false ∧ (nodeAt N k).hasR = false
  merged : ∀ k, L ≤ k → k < N.length → ∃ a b, MergedAt N L k a b
  sum : (Q.map fun q => (nodeAt N q).freq.toNat).sum = total

theorem innerNode_append {N : List Node} {n : Node} {a b : Nat} (ha : a < N.length) (hb : b < N.length) :
    innerNode (N ++ [n]) a b = innerNode N a b := by
  unfold innerNode; rw [nodeAt_append_of_ne ha, nodeAt_append_of_ne hb]

theorem MergedAt.append {N : List Node} {n : Node} {L k a b : Nat} (h : MergedAt N L k a b) (hk : k < N.length) :
    MergedAt (N ++ [n]) L k a b := by
  have ha : a < N.length := by have := h.memA.1; omega
  have hb : b < N.length := by have := h.memB.1; omega
  refine ⟨?_, ?_, ?_, ?_, fun j hj h1 h2 => ?_, ?_⟩
  · rw [nodeAt_append_of_ne hk, innerNode_append ha hb, h.node]
  · rw [inCollection_append (by omega)]; exact h.memA
  · rw [inCollection_append (by omega)]; exact h.memB
  · rw [keyBelow_append ha hb]; exact h.below
  · rw [inCollection_append (by omega)] at hj
    have := hj.1
    rw [keyBelow_append hb (by omega)]
    exact h.smallest j hj h1 h2
  · rw [nodeAt_append_of_ne hk, nodeAt_append_of_ne ha, nodeAt_append_of_ne hb]; exact h.sum

theorem isChild_innerNode {N : List Node} {k a b c : Nat} (h : nodeAt N k = innerNode N a b) (ha : a < 512)
    (hb : b < 512) : isChild N k c ↔ a = c ∨ b = c := by
  unfold isChild
  rw [h]
  simp only [innerNode, BitVec.toNat_ofNat, true_and]
  rw [Nat.mod_eq_of_lt (by omega), Nat.mod_eq_of_lt (by omega)]

theorem sum_map_erase {Q : List Nat} (g : Nat → Nat) {a : Nat} (h : a ∈ Q) :
    (Q.map g).sum = g a + ((Q.erase a).map g).sum := by
  rw [← List.sum_cons, ← List.map_cons]
  exact ((List.perm_cons_erase h).map g).sum_eq

/-- One round of the loop keeps the invariant. -/
theorem MergeInv.round {L total : Nat} {N : List Node} {q r : Nat} {Q R : List Nat} (h : MergeInv L total N (q :: Q))
    (hL : L ≤ 256) (ht : total < 2 ^ 40) (hr : (q :: Q).erase (argminKey N q Q) = r :: R) :
    MergeInv L total (N ++ [innerNode N (argminKey N q Q) (argminKey N r R)])
      ((r :: R).erase (argminKey N r R) ++ [N.length]) := by
  obtain ⟨ha1, ha2⟩ := argminKey_spec N q Q
  obtain ⟨hb1, hb2⟩ := argminKey_spec N r R
  generalize hae : argminKey N q Q = a at *
  generalize hbe : argminKey N r R = b at *
  have hmemr : ∀ x, x ∈ r :: R ↔ x ≠ a ∧ x ∈ q :: Q := by
    intro x; rw [← hr]; exact h.nodup.mem_erase_iff
  have hndr : (r :: R).Nodup := hr ▸ h.nodup.erase a
  have hbq := (hmemr b).1 hb1
  have hsize := h.size
  have hlenr : (r :: R).length = (q :: Q).length - 1 := by rw [← hr]; exact List.length_erase_of_mem ha1
  have hlenr' : ((r :: R).erase b).length = (r :: R).length - 1 := List.length_erase_of_mem hb1
  have hra : 1 ≤ (r :: R).length := by simp
  have hN := h.leafLe
  have haN := ((h.mem a).1 ha1).1
  have hbN := ((h.mem b).1 hbq.2).1
  have hs1 := sum_map_erase (fun q => (nodeAt N q).freq.toNat) ha1
  rw [hr, sum_map_erase (fun q => (nodeAt N q).freq.toNat) hb1, h.sum] at hs1
  have hinner : (innerNode N a b).freq.toNat = (nodeAt N a).freq.toNat + (nodeAt N b).freq.toNat := by
    simp only [innerNode, BitVec.toNat_add]
    apply Nat.mod_eq_of_lt
    omega
  have hnode : nodeAt (N ++ [innerNode N a b]) N.length = innerNode N a b := nodeAt_append_length N _
  have hlen : (N ++ [innerNode N a b]).length = N.length + 1 := by simp
  have hnode' : nodeAt (N ++ [innerNode N a b]) N.length = innerNode (N ++ [innerNode N a b]) a b := by
    rw [hnode, innerNode_append haN hbN]
  have hchild : ∀ c, isChild (N ++ [innerNode N a b]) N.length c ↔ a = c ∨ b = c := by
    intro c
    exact isChild_innerNode hnode' (by omega) (by omega)
  have hmerged : MergedAt (N ++ [innerNode N a b]) L N.length a b := by
    refine ⟨hnode', ?_, ?_, ?_, fun j hj h1 h2 => ?_, ?_⟩
    · rw [inCollection_append (Nat.le_refl _)]; exact (h.mem a).1 ha1
    · rw [inCollection_append (Nat.le_refl _)]; exact (h.mem b).1 hbq.2
    · rw [keyBelow_append haN hbN]; exact ha2 b hbq.2 hbq.1
    · rw [inCollection_append (Nat.le_refl _)] at hj
      rw [keyBelow_append hbN hj.1]
      exact hb2 j ((hmemr j).2 ⟨h1, (h.mem j).2 hj⟩) h2
    · rw [hnode, nodeAt_append_of_ne haN, nodeAt_append_of_ne hbN, hinner]
  refine ⟨by omega, ?_, ?_, ?_, ?_, ?_, ?_, ?_, ?_⟩
  · rw [hlen, List.length_append, hlenr', List.length_singleton, hlenr]; omega
  · simp
  · rw [List.nodup_append]
    refine ⟨hndr.erase b, by simp, fun x hx y hy hxy => ?_⟩
    rw [List.mem_singleton] at hy
    have hx' := (h.mem x).1 ((hmemr x).1 (List.mem_of_mem_erase hx)).2
    have := hx'.1
    omega
  · intro j
    rw [List.mem_append, hndr.mem_erase_iff, hmemr, h.mem, List.mem_singleton, hlen]
    constructor
    · rintro (⟨h1, h2, h3, h4⟩ | rfl)
      · refine ⟨by omega, fun m hm hk => ?_⟩
        by_cases hmN : m = N.length
        · rw [hmN, hchild]; omega
        · rw [isChild_append (by omega)]; exact h4 m hm (by omega)
      · refine ⟨by omega, fun m hm hk => ?_⟩
        by_cases hmN : m = N.length
        · rw [hmN, hchild]; omega
        · rw [isChild_append (by omega)]
          obtain ⟨x, y, hxy⟩ := h.merged m hm (by omega)
          have hx := hxy.memA.1
          have hy := hxy.memB.1
          rw [isChild_innerNode hxy.node (by omega) (by omega)]
          omega
    · rintro ⟨h1, h2⟩
      by_cases hj : j = N.length
      · exact .inr hj
      · have h3 := h2 N.length hN (by omega)
        rw [hchild] at h3
        refine .inl ⟨by omega, by omega, by omega, fun m hm hk => ?_⟩
        have h4 := h2 m hm (by omega)
        rwa [isChild_append (by omega)] at h4
  · intro _
    rw [hlen]; simp
  · intro k hk
    rw [nodeAt_append_of_ne (by omega)]
    exact h.leaves k hk
  · intro k hk hk'
    by_cases hkN : k = N.length
    · exact ⟨a, b, hkN ▸ hmerged⟩
    · obtain ⟨x, y, hxy⟩ := h.merged k hk (by omega)
      exact ⟨x, y, hxy.append (by omega)⟩
  · rw [List.map_append, List.sum_append]
    simp only [List.map_cons, List.map_nil, List.sum_cons, List.sum_nil, hnode, hinner]
    have : (((r :: R).erase b).map fun q => (nodeAt (N ++ [innerNode N a b]) q).freq.toNat) =
        ((r :: R).erase b).map fun q => (nodeAt N q).freq.toNat := by
      apply List.map_congr_left
      intro x hx
      rw [nodeAt_append_of_ne ((h.mem x).1 ((hmemr x).1 (List.mem_of_mem_erase hx)).2).1]
    rw [this]
    omega

/-- The loop ends with one index in the collection, with the working nodes it started from still in place. -/
theorem mergeLoop_spec {L total : Nat} (hL : L ≤ 256) (ht : total < 2 ^ 40) (fuel : Nat) (N : List Node) (Q : List Nat)
    (h : MergeInv L total N Q) (hf : Q.length ≤ fuel) :
    ∃ q, MergeInv L total (mergeLoop fuel N Q) [q] ∧ ∀ k < N.length, nodeAt (mergeLoop fuel N Q) k = nodeAt N k := by
  induction fuel generalizing N Q with
  | zero => have := h.nonempty; omega
  | succ fuel ih =>
    cases Q with
    | nil => exact absurd h.nonempty (by simp)
    | cons q Q =>
      simp only [mergeLoop]
      split
      · rename_i he
        have h1 : ((q :: Q).erase (argminKey N q Q)).length = (q :: Q).length - 1 :=
          List.length_erase_of_mem (argminKey_spec N q Q).1
        rw [he] at h1
        have h2 : Q = [] := by
          cases Q with
          | nil => rfl
          | cons x y => simp at h1
        subst h2
        exact ⟨q, h, fun _ _ => rfl⟩
      · rename_i r R he
        have hround := h.round hL ht he
        have hsize := hround.size
        have hsize' := h.size
        simp only [List.length_append, List.length_singleton] at hsize hsize'
        obtain ⟨q', h1, h2⟩ := ih _ _ hround (by simp only [List.length_append, List.length_singleton]; omega)
        refine ⟨q', h1, fun k hk => ?_⟩
        rw [h2 k (by simp; omega), nodeAt_append_of_ne hk]

/-! ## The whole tree -/

/-- The sum of the frequency table. -/
def tableSum (f : Nat → Word) : Nat := ((List.range 256).map fun k => (f k).toNat).sum

theorem tableSum_lt (f : Nat → Word) : tableSum f < 2 ^ 40 := by
  have h : ∀ l : List Nat, (l.map fun k => (f k).toNat).sum ≤ l.length * (2 ^ 32 - 1) := by
    intro l
    induction l with
    | nil => simp
    | cons a l ih =>
      have := (f a).isLt
      simp only [List.map_cons, List.sum_cons, List.length_cons, Nat.add_mul]
      omega
  have := h (List.range 256)
  rw [List.length_range] at this
  unfold tableSum
  omega

/-- Absent symbols add nothing. -/
theorem presentSyms_sum (f : Nat → Word) : ((presentSyms f).map fun c => (f c).toNat).sum = tableSum f := by
  unfold presentSyms tableSum
  generalize List.range 256 = l
  induction l with
  | nil => rfl
  | cons a l ih =>
    by_cases h : f a = 0#32
    · rw [List.filter_cons_of_neg (by simp [h])]
      simpa [h] using ih
    · rw [List.filter_cons_of_pos (by simp [h])]
      simpa using ih

theorem nodeAt_leaves {f : Nat → Word} {P : List Nat} {k : Nat} (h : k < P.length) :
    nodeAt (P.map (leafNode f)) k = leafNode f (P.getD k 0) := by
  simp [nodeAt, h]

/-- The invariant holds on entry to the loop: the collection is all the leaves. -/
theorem MergeInv.start {f : Nat → Word} (h : 1 ≤ (presentSyms f).length) :
    MergeInv (presentSyms f).length (tableSum f) ((presentSyms f).map (leafNode f))
      (List.range (presentSyms f).length) := by
  refine ⟨by simp, by simp; omega, by simpa using h, List.nodup_range, ?_, ?_, ?_, ?_, ?_⟩
  · intro j
    rw [List.mem_range, inCollection, List.length_map]
    exact ⟨fun h1 => ⟨h1, fun m h2 h3 => absurd h2 (by omega)⟩, fun h1 => h1.1⟩
  · intro h1
    simp at h1
  · intro k hk
    rw [nodeAt_leaves hk]
    exact ⟨rfl, rfl⟩
  · intro k h1 h2
    rw [List.length_map] at h2
    omega
  · rw [← presentSyms_sum]
    congr 1
    apply List.ext_getElem
    · simp
    · intro i h1 h2
      simp only [List.length_map] at h2
      simp only [List.getElem_map, List.getElem_range]
      rw [nodeAt_leaves h2]
      have h3 := (f (presentSyms f)[i]).isLt
      simp only [leafNode, List.getD_eq_getElem?_getD, List.getElem?_eq_getElem h2, Option.getD_some,
        BitVec.toNat_setWidth]
      omega

/-- What BUILD's nodes are (R501..R509). -/
structure BuiltTree (f : Nat → Word) (N : List Node) : Prop where
  leafPos : 1 ≤ (presentSyms f).length
  size : N.length = if (presentSyms f).length = 1 then 2 else 2 * (presentSyms f).length - 1
  leaves : ∀ k < (presentSyms f).length, nodeAt N k = leafNode f ((presentSyms f).getD k 0)
  single : (presentSyms f).length = 1 → nodeAt N 1 = singleRoot (nodeAt N 0)
  merged : 2 ≤ (presentSyms f).length → MergeInv (presentSyms f).length (tableSum f) N [N.length - 1]

theorem buildTree_none {f : Nat → Word} : buildTree f = none ↔ ∀ k < 256, f k = 0 := by
  have h : buildTree f = none ↔ presentSyms f = [] := by
    unfold buildTree
    split <;> simp [*]
  rw [h, List.eq_nil_iff_forall_not_mem]
  simp only [mem_presentSyms, not_and, not_not]

/-- The specification of the builder. -/
theorem buildTree_spec {f : Nat → Word} {N : List Node} (h : buildTree f = some N) : BuiltTree f N := by
  unfold buildTree at h
  split at h
  · simp at h
  · rename_i c hc
    simp only [Option.some.injEq] at h
    subst h
    have hl : (presentSyms f).length = 1 := by rw [hc]; rfl
    refine ⟨by omega, by simp [hl], fun k hk => ?_, fun _ => rfl, fun h2 => by omega⟩
    have : k = 0 := by omega
    subst this
    rw [hc]
    rfl
  · rename_i c d P hc
    simp only [Option.some.injEq] at h
    have hl : (presentSyms f).length = P.length + 2 := by rw [hc]; simp
    rw [← hl, ← hc] at h
    obtain ⟨q, h1, h2⟩ := mergeLoop_spec (presentSyms_length_le f) (tableSum_lt f) (presentSyms f).length _ _
      (MergeInv.start (f := f) (by omega)) (by simp)
    rw [h] at h1 h2
    have hq : N.length - 1 = q := by
      have h3 := h1.last (by have := h1.size; simp at this; omega)
      simpa using h3
    have hsize := h1.size
    simp only [List.length_singleton] at hsize
    refine ⟨by omega, ?_, fun k hk => ?_, fun h3 => by omega, fun _ => by rw [hq]; exact h1⟩
    · rw [if_neg (by omega)]; omega
    · rw [h2 k (by simpa using hk), nodeAt_leaves hk]

theorem BuiltTree.length_le {f : Nat → Word} {N : List Node} (h : BuiltTree f N) : N.length ≤ 511 ∧ 2 ≤ N.length := by
  have h1 := presentSyms_length_le f
  have h2 := h.leafPos
  have h3 := h.size
  split at h3 <;> omega

/-- Every node past the leaves is internal. -/
theorem BuiltTree.internal {f : Nat → Word} {N : List Node} (h : BuiltTree f N) {k : Nat}
    (h1 : (presentSyms f).length ≤ k) (h2 : k < N.length) :
    (nodeAt N k).leaf = false ∧ (nodeAt N k).sym = 0 ∧ (nodeAt N k).hasL = true := by
  by_cases hL : (presentSyms f).length = 1
  · have h3 := h.size
    rw [if_pos hL] at h3
    have : k = 1 := by omega
    subst this
    rw [h.single hL]
    exact ⟨rfl, rfl, rfl⟩
  · have := h.leafPos
    obtain ⟨a, b, hab⟩ := (h.merged (by omega)).merged k h1 h2
    rw [hab.node]
    exact ⟨rfl, rfl, rfl⟩

theorem mem_nodeAt {N : List Node} {n : Node} (h : n ∈ N) : ∃ k < N.length, nodeAt N k = n := by
  obtain ⟨k, hk, rfl⟩ := List.mem_iff_getElem.1 h
  exact ⟨k, hk, by simp [nodeAt, hk]⟩

theorem BuiltTree.nonzero {f : Nat → Word} {N : List Node} (h : BuiltTree f N) : ∀ n ∈ N, n ≠ Node.zero := by
  intro n hn
  obtain ⟨k, hk, rfl⟩ := mem_nodeAt hn
  by_cases h1 : k < (presentSyms f).length
  · rw [h.leaves k h1]
    intro h2
    exact absurd (congrArg Node.leaf h2) (by simp [leafNode, Node.zero])
  · intro h2
    have h3 := (h.internal (by omega) hk).2.2
    rw [h2] at h3
    exact absurd h3 (by simp [Node.zero])

/-- Every node but the last is the child of exactly one node (R156 item 6). -/
theorem BuiltTree.parent {f : Nat → Word} {N : List Node} (h : BuiltTree f N) {c : Nat} (h1 : c < N.length - 1) :
    ∃ k < N.length, isChild N k c ∧ ∀ j < N.length, isChild N j c → j = k := by
  by_cases hL : (presentSyms f).length = 1
  · have h3 := h.size
    rw [if_pos hL] at h3
    have : c = 0 := by omega
    subst this
    refine ⟨1, by omega, .inl ?_, fun j hj hc => ?_⟩
    · rw [h.single hL]; exact ⟨rfl, rfl⟩
    · by_contra hne
      have : j = 0 := by omega
      subst this
      unfold isChild at hc
      rw [h.leaves 0 (by omega)] at hc
      simp [leafNode] at hc
  · have hp := h.leafPos
    have hlen := h.length_le
    have hm := h.merged (by omega)
    have hne : ¬ inCollection N (presentSyms f).length N.length c := by
      rw [← hm.mem]
      simp
      omega
    have hleaf : ∀ j < (presentSyms f).length, ¬ isChild N j c := by
      intro j hj hc
      unfold isChild at hc
      rw [h.leaves j hj] at hc
      simp [leafNode] at hc
    -- the first node that takes `c`; no other can, since `c` has left the collection by then
    have hex : ∃ m, (presentSyms f).length ≤ m ∧ m < N.length ∧ isChild N m c := by
      by_contra hno
      push Not at hno
      exact hne ⟨by omega, fun m hm1 hm2 hc => hno m hm1 hm2 hc⟩
    have huniq : ∀ j k, (presentSyms f).length ≤ k → k < N.length → j < k → isChild N k c → ¬ isChild N j c := by
      intro j k hk1 hk2 hjk hkc hjc
      by_cases hj : j < (presentSyms f).length
      · exact hleaf j hj hjc
      · obtain ⟨a, b, hab⟩ := hm.merged k hk1 hk2
        have ha := hab.memA
        have hb := hab.memB
        have ha1 := ha.1
        have hb1 := hb.1
        rw [isChild_innerNode hab.node (by omega) (by omega)] at hkc
        rcases hkc with rfl | rfl
        · exact ha.2 j (by omega) hjk hjc
        · exact hb.2 j (by omega) hjk hjc
    obtain ⟨m, hm1, hm2, hm3⟩ := hex
    refine ⟨m, hm2, hm3, fun j hj hc => ?_⟩
    have hj1 : (presentSyms f).length ≤ j := by
      by_contra hlt
      exact hleaf j (by omega) hc
    rcases Nat.lt_trichotomy j m with hlt | heq | hgt
    · exact absurd hc (huniq j m hm1 hm2 hlt hm3)
    · exact heq
    · exact absurd hm3 (huniq m j hj1 hj hgt hc)

/-- A state whose tree registers and node memory hold such a tree has the tree invariant (R156). -/
theorem BuiltTree.treeInv {f : Nat → Word} {N M : List Node} {t : State} (h : BuiltTree f N) (hn : t.node = N ++ M)
    (hl : t.leafCount = BitVec.ofNat 9 (presentSyms f).length) (hc : t.nodeCount = BitVec.ofNat 9 N.length)
    (hr : t.root = BitVec.ofNat 9 (N.length - 1)) : TreeInv t := by
  have hlen := h.length_le
  have hL := presentSyms_length_le f
  have hp := h.leafPos
  have hl' : t.leafCount.toNat = (presentSyms f).length := by rw [hl]; simp; omega
  have hc' : t.nodeCount.toNat = N.length := by rw [hc]; simp; omega
  have hr' : t.root.toNat = N.length - 1 := by rw [hr]; simp; omega
  have hN : ∀ k < N.length, nodeAt t.node k = nodeAt N k := fun k hk => by rw [hn, nodeAt_append_left hk]
  have hchild : ∀ k < N.length, ∀ c, isChild t.node k c ↔ isChild N k c := by
    intro k hk c
    unfold isChild
    rw [hN k hk]
  have hsize := h.size
  have hLn : (presentSyms f).length < N.length := by split at hsize <;> omega
  constructor
  · rw [hl']; exact ⟨hp, hL⟩
  · rw [hc', hl']; exact hsize
  · rw [hr', hc']
  · rw [hc', hn]; simp
  · exact ⟨f, hl'.symm, fun k hk => by rw [hl'] at hk; rw [hN k (by omega), h.leaves k hk]⟩
  · intro k h1 h2
    rw [hl'] at h1; rw [hc'] at h2
    rw [hN k h2]
    exact ⟨(h.internal h1 h2).1, (h.internal h1 h2).2.1⟩
  · intro h2 k hk1 hk2
    rw [hl'] at h2 hk1; rw [hc'] at hk2
    obtain ⟨a, b, hab⟩ := (h.merged h2).merged k hk1 hk2
    have ha := hab.memA.1
    have hb := hab.memB.1
    have hs := hab.sum
    have hla : (nodeAt N k).left.toNat = a := by rw [hab.node]; simp [innerNode]; omega
    have hlb : (nodeAt N k).right.toNat = b := by rw [hab.node]; simp [innerNode]; omega
    rw [hN k hk2, hla, hlb, hN a (by omega), hN b (by omega)]
    refine ⟨?_, ?_, ha, hb, hs⟩ <;> rw [hab.node] <;> rfl
  · intro h1
    rw [hl'] at h1
    rw [hN 1 (by omega), hN 0 (by omega), h.single h1]
    exact ⟨rfl, rfl, rfl, rfl⟩
  · intro c h1 h2
    rw [hc'] at h1; rw [hr'] at h2
    obtain ⟨k, hk1, hk2, hk3⟩ := h.parent (c := c) (by omega)
    rw [hc']
    exact ⟨k, hk1, (hchild k hk1 c).2 hk2, fun j hj hj' => hk3 j hj ((hchild j hj c).1 hj')⟩
  · intro k h1
    rw [hc'] at h1
    rw [hN k h1]
    by_cases hk : k < (presentSyms f).length
    · rw [h.leaves k hk]; simp [leafNode]
    · have := h.internal (k := k) (by omega) h1
      simp [this.1, this.2.2]

/-- What BUILD's updates leave when it does not fail (R501, R509, R510). -/
theorem runBuild_ok {s t : State} (h : runBuild s = .ok t) :
    ∃ N, BuiltTree s.freqAt N ∧
      t = { s with
        node := N ++ s.node.drop N.length, leafCount := BitVec.ofNat 9 (presentSyms s.freqAt).length,
        nodeCount := BitVec.ofNat 9 N.length, root := BitVec.ofNat 9 (N.length - 1), treeValid := true,
        codesValid := false } := by
  unfold runBuild at h
  split at h
  · simp at h
  · rename_i N hN
    simp only [Except.ok.injEq] at h
    exact ⟨N, buildTree_spec hN, h.symm⟩

theorem runBuild_error {s : State} {e : CmdFail} (h : runBuild s = .error e) :
    e = { code := .emptyInput, info := 0, aux := 0 } ∧ ∀ k < 256, s.freqAt k = 0 := by
  unfold runBuild at h
  split at h
  · simp only [Except.error.injEq] at h
    exact ⟨h.symm, buildTree_none.1 ‹_›⟩
  · simp at h

/-- BUILD keeps the canonical form of the node memory. -/
theorem BuiltTree.nodeMemWf {f : Nat → Word} {N M : List Node} (h : BuiltTree f N) (hM : nodeMemWf M = true) :
    nodeMemWf (N ++ M.drop N.length) = true := by
  have hlen := h.length_le
  simp only [Sys2Proof.Machine.nodeMemWf, Bool.and_eq_true, decide_eq_true_eq, List.all_eq_true, bne_iff_ne, ne_eq,
    Config.nodeDepth] at hM ⊢
  refine ⟨by rw [List.length_append, List.length_drop]; omega, fun n hn => ?_⟩
  rcases List.mem_append.1 hn with hn | hn
  · exact h.nonzero n hn
  · exact hM.2 n (List.mem_of_mem_drop hn)

/-- The tree invariant speaks of the node memory and the three tree registers only. -/
theorem TreeInv.congr {s t : State} (h : TreeInv s) (hn : t.node = s.node) (hl : t.leafCount = s.leafCount)
    (hc : t.nodeCount = s.nodeCount) (hr : t.root = s.root) : TreeInv t := by
  obtain ⟨h1, h2, h3, h4, h5, h6, h7, h8, h9, h10⟩ := h
  constructor <;> (try rw [hl]) <;> (try rw [hn]) <;> (try rw [hc]) <;> (try rw [hr]) <;> assumption

end Sys2Proof.Machine
end

