-- ==== Sys2Proof/Laws/Operands.lean ====
section
/-! SUPPORT. The address map: what each offset names, and what is gated and accepted while busy, by number. -/

namespace Sys2Proof.Machine

open Sys2Proof

/-- `addr[1:0] != 0`, by number. -/
theorem misaligned_eq (a : Addr) : misaligned a = decide (a.toNat % 4 ≠ 0) := by
  simp only [misaligned, bne, Bool.beq_eq_decide_eq, decide_not]
  congr 1
  simp [← BitVec.toNat_inj, BitVec.extractLsb'_toNat]

theorem misaligned_false {a : Addr} (h : a.toNat % 4 = 0) : misaligned a = false := by simp [misaligned_eq, h]

theorem misaligned_true {a : Addr} (h : ¬ a.toNat % 4 = 0) : misaligned a = true := by simp [misaligned_eq, h]

/-! ## What an offset names -/

theorem target_codeBits (p : Params) {k : Nat} (h : k < 8) : target p (BitVec.ofNat 18 (0x080 + 4 * k)) = .codeBits k := by
  have h1 : (BitVec.ofNat 18 (0x080 + 4 * k)).toNat = 0x080 + 4 * k := by simp; omega
  simp only [target, h1]
  split_ifs <;> first | omega | (congr 1; omega)

theorem target_freq (p : Params) (c : Symbol) : target p (BitVec.ofNat 18 (0x400 + 4 * c.toNat)) = .freq c.toNat := by
  have hc := c.isLt
  have h1 : (BitVec.ofNat 18 (0x400 + 4 * c.toNat)).toNat = 0x400 + 4 * c.toNat := by simp; omega
  simp only [target, h1]
  split_ifs <;> first | omega | (congr 1; omega)

theorem Config.legalDepth_iff (d : Nat) : Config.legalDepth d = true ↔ d % 4 = 0 ∧ 4 ≤ d ∧ d ≤ 65536 := by
  simp [Config.legalDepth, and_assoc]

theorem Params.legal_iff (p : Params) : p.legal = true ↔
    (p.symDepth % 4 = 0 ∧ 4 ≤ p.symDepth ∧ p.symDepth ≤ 65536) ∧
    (p.byteDepth % 4 = 0 ∧ 4 ≤ p.byteDepth ∧ p.byteDepth ≤ 65536) := by
  simp [Params.legal, Config.legalDepth_iff]

theorem target_symWord {p : Params} (hp : p.legal = true) {w : Nat} (h : w < p.symDepth / 4) :
    target p (BitVec.ofNat 18 (0x10000 + 4 * w)) = .symWord w := by
  obtain ⟨⟨h4, hlo, hhi⟩, -⟩ := (Params.legal_iff p).1 hp
  have h1 : (BitVec.ofNat 18 (0x10000 + 4 * w)).toNat = 0x10000 + 4 * w := by simp; omega
  simp only [target, h1]
  split_ifs <;> first | omega | (congr 1; omega)

theorem target_byteWord {p : Params} (hp : p.legal = true) {w : Nat} (h : w < p.byteDepth / 4) :
    target p (BitVec.ofNat 18 (0x20000 + 4 * w)) = .byteWord w := by
  obtain ⟨-, h4, hlo, hhi⟩ := (Params.legal_iff p).1 hp
  have h1 : (BitVec.ofNat 18 (0x20000 + 4 * w)).toNat = 0x20000 + 4 * w := by simp; omega
  simp only [target, h1]
  split_ifs <;> first | omega | (congr 1; omega)

/-- An aligned offset below 0x080 names what the register map lists. -/
theorem target_low {p : Params} {a : Addr} (h : a.toNat < 0x080) : target p a = (Cells.get regMap a.toNat).getD .unmapped := by
  unfold target
  simp only []
  rw [if_pos h]

/-- The register map, read backwards. -/
theorem regMap_cases {n : Nat} (h : n < 0x080) (h4 : n % 4 = 0) :
    (n, (Cells.get regMap n).getD .unmapped) ∈ regMap ∨ (Cells.get regMap n).getD .unmapped = .unmapped := by
  obtain ⟨m, rfl⟩ : ∃ m, n = 4 * m := ⟨n / 4, by omega⟩
  have hm : m < 32 := by omega
  interval_cases m <;> decide

/-- What an offset names, by ranges: the converse of the lemmas above. -/
theorem target_cases (p : Params) (a : Addr) :
    (a.toNat < 0x080 ∧ target p a = (Cells.get regMap a.toNat).getD .unmapped) ∨
    (0x080 ≤ a.toNat ∧ a.toNat < 0x0A0 ∧ target p a = .codeBits ((a.toNat - 0x080) / 4)) ∨
    (0x400 ≤ a.toNat ∧ a.toNat < 0x800 ∧ target p a = .freq ((a.toNat - 0x400) / 4)) ∨
    (0x10000 ≤ a.toNat ∧ a.toNat < 0x20000 ∧ a.toNat < 0x10000 + p.symDepth ∧
      target p a = .symWord ((a.toNat - 0x10000) / 4)) ∨
    (0x20000 ≤ a.toNat ∧ a.toNat < 0x30000 ∧ a.toNat < 0x20000 + p.byteDepth ∧
      target p a = .byteWord ((a.toNat - 0x20000) / 4)) ∨
    (0x080 ≤ a.toNat ∧ target p a = .unmapped) := by
  simp only [target]
  split_ifs <;> simp only [and_true, and_false, or_false, false_or, true_or, *] <;> omega

/-- Every entry of the register map lies below 0x080 and is the one found at its offset (R110 lists no offset twice). -/
theorem regMap_get : ∀ e ∈ regMap, e.1 < 0x080 ∧ (Cells.get regMap e.1).getD .unmapped = e.2 := by decide

/-- An offset the register map lists names the register listed there. -/
theorem target_eq_of_low {p : Params} {a : Addr} {n : Nat} {t : Target} (h : (n, t) ∈ regMap) (ha : a.toNat = n) :
    target p a = t := by
  subst ha
  obtain ⟨h1, h2⟩ := regMap_get _ h
  exact (target_low h1).trans h2

/-- CTRL, CMD, IRQ_EN and IRQ_PEND are named by their offset only. -/
theorem target_unique {p : Params} {a : Addr} (h4 : a.toNat % 4 = 0) :
    (target p a = .ctrl ↔ a.toNat = 0x00C) ∧ (target p a = .cmd ↔ a.toNat = 0x010) ∧
    (target p a = .irqEn ↔ a.toNat = 0x018) ∧ (target p a = .irqPend ↔ a.toNat = 0x01C) := by
  rcases target_cases p a with ⟨h, e⟩ | ⟨h, -, e⟩ | ⟨h, -, e⟩ | ⟨h, -, -, e⟩ | ⟨h, -, -, e⟩ | ⟨h, e⟩
  · rw [e]
    generalize a.toNat = n at h h4
    obtain ⟨m, rfl⟩ : ∃ m, n = 4 * m := ⟨n / 4, by omega⟩
    have hm : m < 32 := by omega
    interval_cases m <;> decide
  all_goals
    simp only [e, reduceCtorEq, false_iff]
    omega

/-- Only CTRL, IRQ_EN and IRQ_PEND accept writes while busy (R400), by number. -/
theorem busyOk_iff {p : Params} {a : Addr} (h4 : a.toNat % 4 = 0) :
    (target p a).busyOk = true ↔ a.toNat = 0x00C ∨ a.toNat = 0x018 ∨ a.toNat = 0x01C := by
  obtain ⟨h1, -, h3, h4⟩ := target_unique (p := p) h4
  rw [← h1, ← h3, ← h4]
  cases target p a <;> simp [Target.busyOk]

/-- The register words of a window are inside its buffer. -/
theorem symWord_bound {p : Params} (hp : p.legal = true) {a : Addr} (h : a.toNat < 0x10000 + p.symDepth) :
    4 * ((a.toNat - 0x10000) / 4) + 4 ≤ p.symDepth := by
  obtain ⟨⟨h4, hlo, hhi⟩, -⟩ := (Params.legal_iff p).1 hp
  omega

theorem byteWord_bound {p : Params} (hp : p.legal = true) {a : Addr} (h : a.toNat < 0x20000 + p.byteDepth) :
    4 * ((a.toNat - 0x20000) / 4) + 4 ≤ p.byteDepth := by
  obtain ⟨-, h4, hlo, hhi⟩ := (Params.legal_iff p).1 hp
  omega

end Sys2Proof.Machine
end

