-- ==== Sys2Proof/Laws/HostPort.lean ====
section
/-! SUPPORT. What the host-side operations do, by what their offset names: a proof about one offset cites these instead of
unfolding the meanings. -/

namespace Sys2Proof.Machine

open Sys2Proof

theorem busy_of_idle {s : State} (h : s.eng = .idle) : s.busy = false := by simp [State.busy, h]

theorem busy_of_pending {s : State} {w : Word} (h : s.eng = .pending w) : s.busy = true := by simp [State.busy, h]

theorem busy_iff (s : State) : s.busy = true ↔ ∃ w, s.eng = .pending w := by
  unfold State.busy
  split <;> simp [*]

theorem respond_eq (s : State) (e : Bool) (v : Word) : s.respond e v = answered s e v := rfl

theorem succeed_eq (s : State) : s.succeed = completedOk s := rfl

theorem raiseError_eq (s : State) (f : CmdFail) : s.raiseError f = completedErr s f.code f.info f.aux := rfl

/-- A read of a target that is not gated, or of any target when no command is pending. -/
theorem execHostRead_value {s : State} {a : Addr} {t : Target} (h4 : a.toNat % 4 = 0) (ht : target s.params a = t)
    (hg : (s.busy && t.gated) = false) : execHostRead a s = .next (answered s false (s.regRead t)) := by
  subst ht
  simp [execHostRead, misaligned_false h4, State.readData, hg, respond_eq]

/-- A read of a gated target while a command is pending. -/
theorem execHostRead_gated {s : State} {a : Addr} (h4 : a.toNat % 4 = 0)
    (hg : (s.busy && (target s.params a).gated) = true) : execHostRead a s = .next (answered s false 0) := by
  simp [execHostRead, misaligned_false h4, State.readData, hg, respond_eq]

/-- A write that takes effect. -/
theorem execHostWrite_effect {s : State} {a : Addr} {v : Word} {t : Target} (h4 : a.toNat % 4 = 0)
    (ht : target s.params a = t) (hg : (s.busy && !t.busyOk) = false) :
    execHostWrite a v s = .next (answered (s.regWrite v t) false 0) := by
  subst ht
  simp [execHostWrite, misaligned_false h4, hg, respond_eq]

/-- A write that is dropped because a command is pending. -/
theorem execHostWrite_dropped {s : State} {a : Addr} {v : Word} (h4 : a.toNat % 4 = 0)
    (hg : (s.busy && !(target s.params a).busyOk) = true) :
    execHostWrite a v s = .next (answered (s.setIrq irqBusyWr) false 0) := by
  simp [execHostWrite, misaligned_false h4, hg, respond_eq]

/-- What a write can do, said once. -/
theorem execHostWrite_cases (a : Addr) (v : Word) (s : State) :
    (¬ aligned a ∧ execHostWrite a v s = .next (answered s true 0)) ∨
    (aligned a ∧ s.busy = true ∧ (target s.params a).busyOk = false ∧
      execHostWrite a v s = .next (answered (s.setIrq irqBusyWr) false 0)) ∨
    (aligned a ∧ (s.busy = false ∨ (target s.params a).busyOk = true) ∧
      execHostWrite a v s = .next (answered (s.regWrite v (target s.params a)) false 0)) := by
  by_cases h4 : a.toNat % 4 = 0
  · by_cases hg : (s.busy && !(target s.params a).busyOk) = true
    · have := hg
      simp only [Bool.and_eq_true, Bool.not_eq_true'] at this
      exact .inr (.inl ⟨h4, this.1, this.2, execHostWrite_dropped h4 hg⟩)
    · rw [Bool.not_eq_true] at hg
      refine .inr (.inr ⟨h4, ?_, execHostWrite_effect h4 rfl hg⟩)
      cases hb : s.busy <;> simp_all
  · exact .inl ⟨h4, by simp [execHostWrite, misaligned_true h4, respond_eq]⟩

/-- The single registers by number. -/
theorem target_of_mem {p : Params} {a : Addr} {t : Target} (h : (a.toNat, t) ∈ regMap) : target p a = t :=
  target_eq_of_low h rfl

/-- The gated offsets (R400, R1108) and the unmapped ones (R205, R208), by number. -/
theorem target_kind {p : Params} (hp : p.legal = true) {a : Addr} (h4 : a.toNat % 4 = 0) :
    ((target p a).gated = true ↔ gatedOffset p a) ∧ (target p a = .unmapped ↔ unmappedOffset p a) := by
  obtain ⟨⟨h41, hlo, hhi⟩, h42, hlo', hhi'⟩ := (Params.legal_iff p).1 hp
  have key : ∀ n < 0x80, n % 4 = 0 →
      (((Cells.get regMap n).getD .unmapped).gated = true ↔
        ((0x020 ≤ n ∧ n < 0x040) ∨ (0x044 ≤ n ∧ n < 0x054) ∨ n = 0x064)) ∧
      ((Cells.get regMap n).getD .unmapped = .unmapped ↔ ((0x054 ≤ n ∧ n < 0x060) ∨ (0x068 ≤ n ∧ n < 0x080))) := by
    decide
  unfold gatedOffset unmappedOffset
  rcases target_cases p a with ⟨h, e⟩ | ⟨h, h', e⟩ | ⟨h, h', e⟩ | ⟨h, h', h'', e⟩ | ⟨h, h', h'', e⟩ | ⟨h, e⟩
  · rw [e, (key _ h h4).1, (key _ h h4).2]; omega
  case' inr.inr.inr.inr.inr =>
    have e' := e
    unfold target at e'
    dsimp only at e'
  all_goals simp only [e, Target.gated, reduceCtorEq, true_iff, false_iff, Bool.false_eq_true]
  case inr.inr.inr.inr.inr => split_ifs at e' <;> omega
  all_goals omega

/-! ## What a register write can change -/

/-- A register write that is no soft reset: what each target leaves alone. -/
theorem regWrite_frame (s : State) (v : Word) (t : Target)
    (hc : t ≠ .ctrl ∨ v.getLsbD 0 = false) :
    (s.regWrite v t).params = s.params ∧ (s.regWrite v t).node = s.node ∧ (s.regWrite v t).code = s.code ∧
    (s.regWrite v t).treeValid = s.treeValid ∧ (s.regWrite v t).codesValid = s.codesValid ∧
    (s.regWrite v t).leafCount = s.leafCount ∧ (s.regWrite v t).nodeCount = s.nodeCount ∧
    (s.regWrite v t).root = s.root ∧ (s.regWrite v t).symDraw = s.symDraw ∧ (s.regWrite v t).byteDraw = s.byteDraw ∧
    ((∀ k, t ≠ .freq k) → (s.regWrite v t).freq = s.freq) ∧
    ((∀ w, t ≠ .symWord w) → (s.regWrite v t).symBuf = s.symBuf) ∧
    ((∀ w, t ≠ .byteWord w) → (s.regWrite v t).byteBuf = s.byteBuf) ∧
    (t ≠ .cmd → (s.regWrite v t).lastop = s.lastop ∧ (s.regWrite v t).eng = s.eng) ∧
    (t ≠ .irqPend → (s.regWrite v t).irqPend = s.irqPend) := by
  cases t <;> simp [State.regWrite]
  rcases hc with hc | hc
  · exact absurd rfl hc
  · have : v[0] = false := hc
    simp [this]

end Sys2Proof.Machine
end

