-- ==== Sys2Proof/Laws/GenCodes.lean ====
section
/-! SUPPORT. Paths through a tree with the tree invariant, the traversal of GENCODES and the code table it makes
(R601..R609). -/

namespace Sys2Proof.Machine

open Sys2Proof

/-! ## Paths -/

theorem walkPath_append (N : List Node) (k : NodeIdx) (p q : BitString) :
    walkPath N k (p ++ q) = (walkPath N k p).bind fun x => walkPath N x q := by
  induction p generalizing k with
  | nil => simp [walkPath]
  | cons b p ih =>
    simp only [List.cons_append, walkPath]
    cases childOf N k b with
    | none => simp
    | some c => simpa using ih c

theorem walkPath_snoc {N : List Node} {k x : NodeIdx} {p : BitString} {b : Bool} :
    walkPath N k (p ++ [b]) = some x ↔ ∃ y, walkPath N k p = some y ∧ childOf N y b = some x := by
  rw [walkPath_append]
  cases walkPath N k p with
  | none => simp
  | some y =>
    simp only [Option.bind_some, walkPath, Option.some.injEq, exists_eq_left']
    cases childOf N y b <;> simp

theorem childOf_eq {N : List Node} {k c : NodeIdx} {b : Bool} : childOf N k b = some c ↔
    if b then (nodeAt N k.toNat).hasR = true ∧ (nodeAt N k.toNat).right = c
    else (nodeAt N k.toNat).hasL = true ∧ (nodeAt N k.toNat).left = c := by
  unfold childOf
  cases b <;> simp

theorem childOf_none {N : List Node} {k : NodeIdx} {b : Bool} : childOf N k b = none ↔
    (if b then (nodeAt N k.toNat).hasR else (nodeAt N k.toNat).hasL) = false := by
  unfold childOf
  cases b <;> simp

theorem childOf_isChild {N : List Node} {k c : NodeIdx} {b : Bool} (h : childOf N k b = some c) :
    isChild N k.toNat c.toNat := by
  rw [childOf_eq] at h
  cases b
  · exact .inl ⟨h.1, congrArg BitVec.toNat h.2⟩
  · exact .inr ⟨h.1, congrArg BitVec.toNat h.2⟩

theorem isChild_childOf {N : List Node} {k c : NodeIdx} (h : isChild N k.toNat c.toNat) :
    ∃ b, childOf N k b = some c := by
  rcases h with ⟨h1, h2⟩ | ⟨h1, h2⟩
  · exact ⟨false, by rw [childOf_eq]; exact ⟨h1, BitVec.eq_of_toNat_eq h2⟩⟩
  · exact ⟨true, by rw [childOf_eq]; exact ⟨h1, BitVec.eq_of_toNat_eq h2⟩⟩

section
variable {s : State}

theorem TreeInv.leaf_lt (h : TreeInv s) : s.leafCount.toNat < s.nodeCount.toNat := by
  have h1 := h.leafRange
  have h2 := h.nodeCount
  split at h2 <;> omega

theorem TreeInv.node_le (h : TreeInv s) : s.nodeCount.toNat ≤ 511 := by
  have h1 := h.leafRange
  have h2 := h.nodeCount
  split at h2 <;> omega

/-- A node is a leaf exactly when it is one of the first `L`. -/
theorem TreeInv.isLeaf_iff (h : TreeInv s) {k : Nat} (hk : k < s.nodeCount.toNat) :
    (nodeAt s.node k).leaf = true ↔ k < s.leafCount.toNat := by
  constructor
  · intro h1
    by_contra h2
    rw [(h.internal k (by omega) hk).1] at h1
    exact absurd h1 (by simp)
  · intro h1
    obtain ⟨f, -, hf⟩ := h.leaves
    rw [hf k h1]
    rfl

/-- A child lies below its parent, which is no leaf. -/
theorem TreeInv.child_lt (h : TreeInv s) {k c : Nat} (hk : k < s.nodeCount.toNat) (hc : isChild s.node k c) :
    c < k ∧ s.leafCount.toNat ≤ k := by
  have hL : s.leafCount.toNat ≤ k := by
    by_contra hlt
    have h1 := (h.leafIff k hk).1 ((h.isLeaf_iff hk).2 (by omega))
    rcases hc with hc | hc
    · rw [h1.1] at hc; exact absurd hc.1 (by simp)
    · rw [h1.2] at hc; exact absurd hc.1 (by simp)
  refine ⟨?_, hL⟩
  by_cases h1 : s.leafCount.toNat = 1
  · have h2 := h.nodeCount
    rw [if_pos h1] at h2
    have : k = 1 := by omega
    subst this
    obtain ⟨h3, h4, h5, -⟩ := h.single h1
    rcases hc with hc | hc
    · rw [← hc.2, h4]; simp
    · rw [h5] at hc; exact absurd hc.1 (by simp)
  · have := h.leafRange
    obtain ⟨-, -, h3, h4, -⟩ := h.children (by omega) k hL hk
    rcases hc with hc | hc
    · rw [← hc.2]; exact h3
    · rw [← hc.2]; exact h4

theorem TreeInv.childOf_lt (h : TreeInv s) {k c : NodeIdx} {b : Bool} (hk : k.toNat < s.nodeCount.toNat)
    (hc : childOf s.node k b = some c) : c.toNat < k.toNat ∧ s.leafCount.toNat ≤ k.toNat :=
  h.child_lt hk (childOf_isChild hc)

theorem TreeInv.root_lt (h : TreeInv s) : s.root.toNat < s.nodeCount.toNat := by
  have := h.rootLast
  have := h.leaf_lt
  omega

theorem TreeInv.root_not_leaf (h : TreeInv s) : (nodeAt s.node s.root.toNat).leaf = false := by
  have h1 := h.leafRange
  have h2 := h.nodeCount
  have h3 := h.rootLast
  have h4 := h.leaf_lt
  rw [← Bool.not_eq_true, h.isLeaf_iff h.root_lt]
  omega

/-- A path never climbs, and its length is bounded by the internal nodes below its start (R608). -/
theorem TreeInv.walk_bound (h : TreeInv s) {k x : NodeIdx} {p : BitString} (hk : k.toNat < s.nodeCount.toNat)
    (hp : walkPath s.node k p = some x) :
    x.toNat + p.length ≤ k.toNat ∧ p.length ≤ k.toNat + 1 - s.leafCount.toNat := by
  induction p generalizing k with
  | nil =>
    simp only [walkPath, Option.some.injEq] at hp
    subst hp
    simp
  | cons b p ih =>
    simp only [walkPath] at hp
    split at hp
    · simp at hp
    · rename_i c hc
      have h1 := h.childOf_lt hk hc
      have h2 := ih (by omega) hp
      simp only [List.length_cons]
      omega

/-- A leaf leads nowhere. -/
theorem TreeInv.walk_leaf (h : TreeInv s) {k x : NodeIdx} {p : BitString} (hk : k.toNat < s.nodeCount.toNat)
    (hl : (nodeAt s.node k.toNat).leaf = true) (hp : walkPath s.node k p = some x) : p = [] ∧ x = k := by
  rw [h.isLeaf_iff hk] at hl
  have h1 := h.walk_bound hk hp
  have : p = [] := List.length_eq_zero_iff.1 (by omega)
  subst this
  simpa [walkPath, eq_comm] using hp

/-- Every node is reached from the root (R156 item 6). -/
theorem TreeInv.reach (h : TreeInv s) {c : NodeIdx} (hc : c.toNat < s.nodeCount.toNat) :
    ∃ p, walkPath s.node s.root p = some c := by
  obtain ⟨d, hd⟩ : ∃ d, d = s.nodeCount.toNat - c.toNat := ⟨_, rfl⟩
  induction d using Nat.strong_induction_on generalizing c with
  | _ d ih =>
    by_cases hr : c.toNat = s.root.toNat
    · exact ⟨[], by simp [walkPath, BitVec.eq_of_toNat_eq hr]⟩
    · obtain ⟨k, hk, hkc, -⟩ := h.oneParent c.toNat hc hr
      have hk' : (BitVec.ofNat 9 k).toNat = k := by
        have := h.node_le
        simp; omega
      have hlt := h.child_lt hk hkc
      obtain ⟨p, hp⟩ := ih (s.nodeCount.toNat - k) (by omega) (c := BitVec.ofNat 9 k) (by omega) (by rw [hk'])
      obtain ⟨b, hb⟩ := isChild_childOf (N := s.node) (k := BitVec.ofNat 9 k) (c := c) (by rw [hk']; exact hkc)
      exact ⟨p ++ [b], walkPath_snoc.2 ⟨_, hp, hb⟩⟩

/-- The symbols of the leaves are distinct (R156 item 2). -/
theorem TreeInv.sym_inj (h : TreeInv s) {j k : Nat} (hj : j < s.leafCount.toNat) (hk : k < s.leafCount.toNat)
    (he : (nodeAt s.node j).sym = (nodeAt s.node k).sym) : j = k := by
  obtain ⟨f, hf, hl⟩ := h.leaves
  rw [hl j hj, hl k hk] at he
  rw [← hf] at hj hk
  simp only [leafNode, List.getD_eq_getElem?_getD, List.getElem?_eq_getElem hj, List.getElem?_eq_getElem hk,
    Option.getD_some] at he
  have h1 := (mem_presentSyms.1 (List.getElem_mem hj)).1
  have h2 := (mem_presentSyms.1 (List.getElem_mem hk)).1
  have h3 := congrArg BitVec.toNat he
  simp only [BitVec.toNat_ofNat] at h3
  have h4 : (presentSyms f)[j] = (presentSyms f)[k] := by omega
  have h5 := presentSyms_sorted f
  rw [List.pairwise_iff_getElem] at h5
  rcases Nat.lt_trichotomy j k with hlt | heq | hgt
  · have := h5 j k hj hk hlt; omega
  · exact heq
  · have := h5 k j hk hj hgt; omega

/-! ## The traversal -/

/-- The traversal ends, and finds exactly the paths to leaves (R601, R602). -/
theorem codeWalk_spec (h : TreeInv s) (fuel : Nat) (k : NodeIdx) (p : BitString) (hk : k.toNat < s.nodeCount.toNat)
    (hf : k.toNat < fuel) : ∃ ls, codeWalk s.node fuel k.toNat p = some ls ∧ ls.Nodup ∧
      ∀ c q, (c, q) ∈ ls ↔ ∃ r x, q = p ++ r ∧ walkPath s.node k r = some x ∧
        (nodeAt s.node x.toNat).leaf = true ∧ (nodeAt s.node x.toNat).sym = c := by
  induction fuel generalizing k p with
  | zero => omega
  | succ fuel ih =>
    simp only [codeWalk]
    by_cases hl : (nodeAt s.node k.toNat).leaf = true
    · rw [if_pos hl]
      refine ⟨_, rfl, by simp, fun c q => ?_⟩
      rw [List.mem_singleton, Prod.mk.injEq]
      constructor
      · rintro ⟨rfl, rfl⟩
        exact ⟨[], k, by simp, rfl, hl, rfl⟩
      · rintro ⟨r, x, rfl, hr, -, rfl⟩
        obtain ⟨rfl, rfl⟩ := h.walk_leaf hk hl hr
        simp
    · rw [if_neg hl]
      have side : ∀ b, ∃ ls, (match childOf s.node k b with
          | some c => codeWalk s.node fuel c.toNat (p ++ [b])
          | none => some []) = some ls ∧ ls.Nodup ∧
          ∀ c q, (c, q) ∈ ls ↔ ∃ r x, q = p ++ b :: r ∧ walkPath s.node k (b :: r) = some x ∧
            (nodeAt s.node x.toNat).leaf = true ∧ (nodeAt s.node x.toNat).sym = c := by
        intro b
        cases hc : childOf s.node k b with
        | none => exact ⟨[], rfl, List.nodup_nil, fun c q => by simp [walkPath, hc]⟩
        | some c =>
          have hlt := h.childOf_lt hk hc
          obtain ⟨ls, h1, h2, h3⟩ := ih c (p ++ [b]) (by omega) (by omega)
          refine ⟨ls, h1, h2, fun c' q => ?_⟩
          rw [h3]
          simp [walkPath, hc]
      obtain ⟨ls, hl1, hl2, hl3⟩ := side false
      obtain ⟨rs, hr1, hr2, hr3⟩ := side true
      have hl1' : (if (nodeAt s.node k.toNat).hasL then
          codeWalk s.node fuel (nodeAt s.node k.toNat).left.toNat (p ++ [false]) else some []) = some ls := by
        rw [← hl1]; cases hL : (nodeAt s.node k.toNat).hasL <;> simp [childOf, hL]
      have hr1' : (if (nodeAt s.node k.toNat).hasR then
          codeWalk s.node fuel (nodeAt s.node k.toNat).right.toNat (p ++ [true]) else some []) = some rs := by
        rw [← hr1]; cases hR : (nodeAt s.node k.toNat).hasR <;> simp [childOf, hR]
      rw [hl1', hr1']
      refine ⟨ls ++ rs, rfl, ?_, fun c q => ?_⟩
      · rw [List.nodup_append]
        refine ⟨hl2, hr2, ?_⟩
        rintro ⟨c, q⟩ hx ⟨c', q'⟩ hy heq
        obtain ⟨r, x, rfl, -⟩ := (hl3 c q).1 hx
        obtain ⟨r', x', rfl, -⟩ := (hr3 c' q').1 hy
        simp at heq
      · rw [List.mem_append, hl3, hr3]
        constructor
        · rintro (⟨r, x, h1, h2⟩ | ⟨r, x, h1, h2⟩)
          · exact ⟨false :: r, x, h1, h2⟩
          · exact ⟨true :: r, x, h1, h2⟩
        · rintro ⟨r, x, h1, h2, h3, h4⟩
          cases r with
          | nil =>
            simp only [walkPath, Option.some.injEq] at h2
            subst h2
            exact absurd h3 hl
          | cons b r => cases b <;> [exact .inl ⟨r, x, h1, h2, h3, h4⟩; exact .inr ⟨r, x, h1, h2, h3, h4⟩]

/-- The traversal from the root: each leaf symbol with its path (R602, R605). -/
theorem codeWalk_root (h : TreeInv s) : ∃ ls, codeWalk s.node walkFuel s.root.toNat [] = some ls ∧ ls.Nodup ∧
    ∀ c q, (c, q) ∈ ls ↔ pathTo s q c := by
  obtain ⟨ls, h1, h2, h3⟩ := codeWalk_spec h walkFuel s.root [] h.root_lt s.root.isLt
  refine ⟨ls, h1, h2, fun c q => ?_⟩
  rw [h3]
  constructor
  · rintro ⟨r, x, rfl, hx⟩
    exact ⟨x, by simpa using hx⟩
  · rintro ⟨x, hx⟩
    exact ⟨q, x, by simp, hx⟩

/-! ## The code table -/

theorem codeTable_fold (ls : List (Symbol × BitString)) (C : List (Nat × CodeEntry)) (a : Nat) :
    (Cells.get (ls.foldl (fun C l => Cells.put C l.1.toNat (codeEntry l.2)) C) a = Cells.get C a ∧
      ∀ l ∈ ls, l.1.toNat ≠ a) ∨
    ∃ l ∈ ls, l.1.toNat = a ∧
      Cells.get (ls.foldl (fun C l => Cells.put C l.1.toNat (codeEntry l.2)) C) a = some (codeEntry l.2) := by
  induction ls generalizing C with
  | nil => exact .inl ⟨rfl, by simp⟩
  | cons l ls ih =>
    simp only [List.foldl_cons]
    rcases ih (Cells.put C l.1.toNat (codeEntry l.2)) with ⟨h1, h2⟩ | ⟨m, h1, h2, h3⟩
    · rw [h1, Cells.get_put]
      by_cases ha : a = l.1.toNat
      · exact .inr ⟨l, by simp, ha.symm, by simp [ha]⟩
      · refine .inl ⟨by simp [ha], fun m hm => ?_⟩
        rcases List.mem_cons.1 hm with rfl | hm
        · exact fun h => ha h.symm
        · exact h2 m hm
    · exact .inr ⟨m, by simp [h1], h2, h3⟩

/-- An entry of the code table is that of some leaf with this symbol, and a symbol without a leaf has none. -/
theorem codeTable_get (ls : List (Symbol × BitString)) (c : Symbol) :
    (Cells.get (codeTable ls) c.toNat = none ∧ ∀ q, (c, q) ∉ ls) ∨
    ∃ q, (c, q) ∈ ls ∧ Cells.get (codeTable ls) c.toNat = some (codeEntry q) := by
  rcases codeTable_fold ls [] c.toNat with ⟨h1, h2⟩ | ⟨⟨d, q⟩, h1, h2, h3⟩
  · exact .inl ⟨h1, fun q hq => h2 _ hq rfl⟩
  · have : d = c := BitVec.eq_of_toNat_eq h2
    subst this
    exact .inr ⟨q, h1, h3⟩

theorem codeTable_wf (ls : List (Symbol × BitString)) :
    Cells.sorted 256 (codeTable ls) = true ∧ ∀ e ∈ codeTable ls, e.2 ≠ CodeEntry.invalid := by
  have : ∀ C : List (Nat × CodeEntry), (Cells.sorted 256 C = true ∧ ∀ e ∈ C, e.2 ≠ CodeEntry.invalid) →
      Cells.sorted 256 (ls.foldl (fun C l => Cells.put C l.1.toNat (codeEntry l.2)) C) = true ∧
      ∀ e ∈ ls.foldl (fun C l => Cells.put C l.1.toNat (codeEntry l.2)) C, e.2 ≠ CodeEntry.invalid := by
    induction ls with
    | nil => exact fun C h => h
    | cons l ls ih =>
      intro C hC
      simp only [List.foldl_cons]
      apply ih
      refine ⟨Cells.sorted_put _ hC.1 l.1.isLt, fun e he => ?_⟩
      rcases Cells.mem_put he with rfl | he
      · intro h1
        exact absurd (congrArg CodeEntry.valid h1) (by simp [codeEntry, CodeEntry.invalid])
      · exact hC.2 e he
  exact this [] ⟨rfl, by simp⟩

/-- What the code memory reads after GENCODES on a tree: a valid entry holds the path to its leaf. -/
theorem codeAt_codeTable (h : TreeInv s) {ls : List (Symbol × BitString)} {t : State}
    (hls : ∀ c q, (c, q) ∈ ls ↔ pathTo s q c) (ht : t.code = codeTable ls) (c : Symbol) :
    (t.codeAt c = CodeEntry.invalid ∧ ∀ q, ¬ pathTo s q c) ∨
    ∃ q, t.codeAt c = codeEntry q ∧ pathTo s q c ∧ 1 ≤ q.length ∧ q.length ≤ 255 ∧
      (codeEntry q).len.toNat = q.length := by
  rcases codeTable_get ls c with ⟨h1, h2⟩ | ⟨q, h1, h2⟩
  · exact .inl ⟨by simp [State.codeAt, ht, h1], fun q hq => h2 q ((hls c q).2 hq)⟩
  · have hq := (hls c q).1 h1
    obtain ⟨x, hx1, hx2, hx3⟩ := hq
    have hb := h.walk_bound h.root_lt hx1
    have hr := h.rootLast
    have hn := h.nodeCount
    have hL := h.leafRange
    have hlen : q.length ≤ 255 := by split at hn <;> omega
    refine .inr ⟨q, by simp [State.codeAt, ht, h2], ⟨x, hx1, hx2, hx3⟩, ?_, hlen, ?_⟩
    · cases q with
      | nil =>
        simp only [walkPath, Option.some.injEq] at hx1
        subst hx1
        rw [h.root_not_leaf] at hx2
        exact absurd hx2 (by simp)
      | cons => simp
    · simp [codeEntry]; omega

/-- A leaf's symbol has exactly the leaf's index behind it. -/
theorem TreeInv.leaf_of_path (h : TreeInv s) {q : BitString} {c : Symbol} (hq : pathTo s q c) :
    ∃ k < s.leafCount.toNat, (nodeAt s.node k).sym = c := by
  obtain ⟨x, hx1, hx2, hx3⟩ := hq
  have hb := (h.walk_bound h.root_lt hx1).1
  have hr := h.root_lt
  have hx : x.toNat < s.nodeCount.toNat := by omega
  exact ⟨x.toNat, (h.isLeaf_iff hx).1 hx2, hx3⟩

theorem TreeInv.path_of_leaf (h : TreeInv s) {k : Nat} (hk : k < s.leafCount.toNat) :
    ∃ q, pathTo s q (nodeAt s.node k).sym := by
  have hlt := h.leaf_lt
  have hle := h.node_le
  have hk' : (BitVec.ofNat 9 k).toNat = k := by simp; omega
  obtain ⟨p, hp⟩ := h.reach (c := BitVec.ofNat 9 k) (by omega)
  exact ⟨p, BitVec.ofNat 9 k, hp, by rw [hk', h.isLeaf_iff (by omega)]; exact hk, by rw [hk']⟩

/-- Paths to leaves are prefix-free (R605). -/
theorem TreeInv.prefix_free (h : TreeInv s) {p q : BitString} {c d : Symbol} (hp : pathTo s p c) (hq : pathTo s q d)
    (hpre : p <+: q) : p = q ∧ c = d := by
  obtain ⟨r, rfl⟩ := hpre
  obtain ⟨x, hx1, hx2, hx3⟩ := hp
  obtain ⟨y, hy1, hy2, hy3⟩ := hq
  rw [walkPath_append, hx1, Option.bind_some] at hy1
  have hb := (h.walk_bound h.root_lt hx1).1
  have hr := h.root_lt
  obtain ⟨rfl, rfl⟩ := h.walk_leaf (by omega) hx2 hy1
  exact ⟨by simp, by rw [← hx3, hy3]⟩

/-- The code-table invariant of a state that holds the table of its own tree (R157). -/
theorem codesInv_of_table (h : TreeInv s) {ls : List (Symbol × BitString)} (hls : ∀ c q, (c, q) ∈ ls ↔ pathTo s q c)
    (ht : s.code = codeTable ls) : CodesInv s := by
  have key := codeAt_codeTable h hls ht
  have hvalid : ∀ c, (s.codeAt c).valid = true → ∃ q, s.codeAt c = codeEntry q ∧ pathTo s q c ∧ 1 ≤ q.length ∧
      q.length ≤ 255 ∧ (codeEntry q).len.toNat = q.length := by
    intro c hc
    rcases key c with ⟨h1, -⟩ | h1
    · rw [h1] at hc; exact absurd hc (by simp [CodeEntry.invalid])
    · exact h1
  constructor
  · intro c
    constructor
    · intro hc
      obtain ⟨q, -, hq, -⟩ := hvalid c hc
      exact h.leaf_of_path hq
    · rintro ⟨k, hk, rfl⟩
      obtain ⟨q, hq⟩ := h.path_of_leaf hk
      rcases key (nodeAt s.node k).sym with ⟨-, h2⟩ | ⟨q', h1, -⟩
      · exact absurd hq (h2 q)
      · rw [h1]; rfl
  · intro c hc
    obtain ⟨q, h1, h2, -⟩ := hvalid c hc
    rw [h1]; exact h2
  · intro c hc
    obtain ⟨q, h1, -, h3, -, h5⟩ := hvalid c hc
    rw [h1]; exact ⟨h3, h5⟩
  · intro c d hc hd hne hpre
    obtain ⟨q, h1, h2, -⟩ := hvalid c hc
    obtain ⟨r, h3, h4, -⟩ := hvalid d hd
    rw [h1, h3] at hpre
    exact hne (h.prefix_free h2 h4 hpre).2

/-! ## The tree is a tree -/

/-- The two children of an internal node differ: 2L - 2 nodes have a parent and L - 1 nodes are one (R156 items 1, 6). -/
theorem TreeInv.left_ne_right (h : TreeInv s) (hL : 2 ≤ s.leafCount.toNat) {k : Nat} (h1 : s.leafCount.toNat ≤ k)
    (h2 : k < s.nodeCount.toNat) : (nodeAt s.node k).left ≠ (nodeAt s.node k).right := by
  intro heq
  have hn := h.nodeCount
  rw [if_neg (by omega)] at hn
  have hr := h.rootLast
  let I := Finset.Ico s.leafCount.toNat s.nodeCount.toNat
  let C : Nat → Finset Nat := fun j => {(nodeAt s.node j).left.toNat, (nodeAt s.node j).right.toNat}
  have hsub : Finset.range (s.nodeCount.toNat - 1) ⊆ I.biUnion C := by
    intro c hc
    rw [Finset.mem_range] at hc
    obtain ⟨j, hj, hjc, -⟩ := h.oneParent c (by omega) (by omega)
    rw [Finset.mem_biUnion]
    refine ⟨j, Finset.mem_Ico.2 ⟨(h.child_lt hj hjc).2, hj⟩, ?_⟩
    rcases hjc with hjc | hjc <;> simp [C, hjc.2]
  have hcard := (Finset.card_le_card hsub).trans Finset.card_biUnion_le
  rw [Finset.card_range] at hcard
  have hlt : ∑ j ∈ I, (C j).card < ∑ j ∈ I, 2 := by
    apply Finset.sum_lt_sum
    · exact fun j _ => Finset.card_le_two
    · exact ⟨k, Finset.mem_Ico.2 ⟨h1, h2⟩, by simp [C, heq]⟩
  simp [I] at hlt hcard
  omega

/-- The two bits lead from a node to different children. -/
theorem TreeInv.child_bit (h : TreeInv s) {k c : NodeIdx} {b b' : Bool} (hk : k.toNat < s.nodeCount.toNat)
    (h1 : childOf s.node k b = some c) (h2 : childOf s.node k b' = some c) : b = b' := by
  by_contra hb
  have hkl := (h.childOf_lt hk h1).2
  have hL := h.leafRange
  rw [childOf_eq] at h1 h2
  by_cases hL1 : s.leafCount.toNat = 1
  · have hn := h.nodeCount
    rw [if_pos hL1] at hn
    have hk1 : k.toNat = 1 := by omega
    obtain ⟨-, -, a3, -⟩ := h.single hL1
    rw [hk1] at h1 h2
    cases b <;> cases b' <;> simp_all
  · have := h.left_ne_right (by omega) hkl hk
    cases b <;> cases b' <;> simp_all

/-- One path leads from the root to a node (R605). -/
theorem TreeInv.path_unique (h : TreeInv s) {p q : BitString} {x : NodeIdx} (hp : walkPath s.node s.root p = some x)
    (hq : walkPath s.node s.root q = some x) : p = q := by
  induction p using List.reverseRecOn generalizing q x with
  | nil =>
    simp only [walkPath, Option.some.injEq] at hp
    subst hp
    have := (h.walk_bound h.root_lt hq).1
    exact (List.length_eq_zero_iff.1 (by omega)).symm
  | append_singleton p b ih =>
    rcases List.eq_nil_or_concat q with rfl | ⟨q, b', rfl⟩
    · simp only [walkPath, Option.some.injEq] at hq
      subst hq
      have := (h.walk_bound h.root_lt hp).1
      simp at this
    · rw [walkPath_snoc] at hp
      rw [List.concat_eq_append, walkPath_snoc] at hq
      obtain ⟨y, hy, hyx⟩ := hp
      obtain ⟨z, hz, hzx⟩ := hq
      have b1 := (h.walk_bound h.root_lt hy).1
      have b2 := (h.walk_bound h.root_lt hz).1
      have hr := h.root_lt
      have hx := h.childOf_lt (k := y) (by omega) hyx
      obtain ⟨k, -, -, hk⟩ := h.oneParent x.toNat (by omega) (by omega)
      have e1 := hk y.toNat (by omega) (childOf_isChild hyx)
      have e2 := hk z.toNat (by omega) (childOf_isChild hzx)
      have : y = z := BitVec.eq_of_toNat_eq (by omega)
      subst this
      rw [ih hy hz, h.child_bit (by omega) hyx hzx, List.concat_eq_append]

/-- A symbol has one code. -/
theorem TreeInv.code_unique (h : TreeInv s) {p q : BitString} {c : Symbol} (hp : pathTo s p c) (hq : pathTo s q c) :
    p = q := by
  obtain ⟨x, x1, x2, x3⟩ := hp
  obtain ⟨y, y1, y2, y3⟩ := hq
  have b1 := (h.walk_bound h.root_lt x1).1
  have b2 := (h.walk_bound h.root_lt y1).1
  have hr := h.root_lt
  have : x = y := BitVec.eq_of_toNat_eq
    (h.sym_inj ((h.isLeaf_iff (by omega)).1 x2) ((h.isLeaf_iff (by omega)).1 y2) (by rw [x3, y3]))
  subst this
  exact h.path_unique x1 y1

/-- Each internal node splits its share equally between its children (R609). -/
theorem codeWalk_share (h : TreeInv s) (hL : 2 ≤ s.leafCount.toNat) (fuel : Nat) (k : NodeIdx) (p : BitString)
    (hk : k.toNat < s.nodeCount.toNat) (hf : k.toNat < fuel)
    (hd : p.length + (k.toNat + 1 - s.leafCount.toNat) ≤ 255) {ls : List (Symbol × BitString)}
    (hls : codeWalk s.node fuel k.toNat p = some ls) :
    (ls.map fun l => 2 ^ (255 - l.2.length)).sum = 2 ^ (255 - p.length) := by
  induction fuel generalizing k p ls with
  | zero => omega
  | succ fuel ih =>
    simp only [codeWalk] at hls
    split at hls
    · cases hls
      simp
    · rename_i hl
      rw [h.isLeaf_iff hk] at hl
      obtain ⟨c1, c2, c3, c4, -⟩ := h.children hL k.toNat (by omega) hk
      simp only [c1, c2, if_true] at hls
      cases h1 : codeWalk s.node fuel (nodeAt s.node k.toNat).left.toNat (p ++ [false]) with
      | none => rw [h1] at hls; simp at hls
      | some l1 =>
        cases h2 : codeWalk s.node fuel (nodeAt s.node k.toNat).right.toNat (p ++ [true]) with
        | none => rw [h1, h2] at hls; simp at hls
        | some l2 =>
          rw [h1, h2] at hls
          simp only [Option.some.injEq] at hls
          subst hls
          have e1 := ih _ _ (by omega) (by omega) (by simp; omega) h1
          have e2 := ih _ _ (by omega) (by omega) (by simp; omega) h2
          rw [List.map_append, List.sum_append, e1, e2]
          simp only [List.length_append, List.length_singleton]
          have : 255 - p.length = (255 - (p.length + 1)) + 1 := by omega
          rw [this, pow_succ]
          omega

/-- The code-table invariant speaks of the tree and the code memory only. -/
theorem CodesInv.congr {t : State} (h : CodesInv s) (hn : t.node = s.node) (hl : t.leafCount = s.leafCount)
    (hr : t.root = s.root) (hc : t.code = s.code) : CodesInv t := by
  have hcode : ∀ c, t.codeAt c = s.codeAt c := fun c => by simp [State.codeAt, hc]
  have hpath : ∀ p c, pathTo t p c ↔ pathTo s p c := fun p c => by simp [pathTo, hn, hr]
  obtain ⟨h1, h2, h3, h4⟩ := h
  constructor
  · intro c; rw [hcode, h1, hl, hn]
  · intro c hv; rw [hcode] at hv ⊢; rw [hpath]; exact h2 c hv
  · intro c hv; rw [hcode] at hv ⊢; exact h3 c hv
  · intro c d hv hw hne; rw [hcode] at hv ⊢; rw [hcode] at hw ⊢; exact h4 c d hv hw hne

end

end Sys2Proof.Machine
end

