-- ==== Sys2Proof/Laws/Pack.lean ====
section
/-! SUPPORT. The symbol loop of PACK, symbol by symbol, and the bytes it writes, bit by bit (R701..R708). -/

namespace Sys2Proof.Machine

open Sys2Proof

/-- A range cut at one of its members. -/
theorem range_cut {n j : Nat} (h : j < n) : List.range n = List.range j ++ j :: List.range' (j + 1) (n - j - 1) := by
  have h1 : n = j + ((n - j - 1) + 1) := by omega
  rw [List.range_eq_range', List.range_eq_range']
  conv_lhs => rw [h1]
  rw [← List.range'_append_1, List.range'_succ]
  simp

/-- The position of a member in a range is the member. -/
theorem range_split {n i : Nat} {l m : List Nat} (h : List.range n = l ++ i :: m) : i = l.length := by
  have h1 : (List.range n)[l.length]? = some i := by rw [h]; simp
  rw [List.getElem?_range] at h1
  · simpa [eq_comm] using h1
  · have := congrArg List.length h
    simp at this
    omega

/-- The code lengths of the symbols at some indices. -/
def State.lengthOf (s : State) (js : List Nat) : Nat := (js.map fun j => (s.codeAt (s.symAt j)).len.toNat).sum

/-- The code bits of the symbols at some indices. -/
def State.bitsOf (s : State) (js : List Nat) : BitString := js.flatMap fun j => (s.codeAt (s.symAt j)).bits

theorem State.lengthOf_range (s : State) (m : Nat) : s.lengthOf (List.range m) = s.codeLength m := rfl

theorem State.bitsOf_range (s : State) (m : Nat) : s.bitsOf (List.range m) = s.codeStream m := rfl

theorem State.codeLength_succ (s : State) (m : Nat) :
    s.codeLength (m + 1) = s.codeLength m + (s.codeAt (s.symAt m)).len.toNat := by
  simp [State.codeLength, List.range_succ]

theorem State.codeLength_mono (s : State) {m n : Nat} (h : m ≤ n) : s.codeLength m ≤ s.codeLength n := by
  induction n with
  | zero =>
    have : m = 0 := by omega
    rw [this]
  | succ n ih =>
    by_cases h1 : m = n + 1
    · rw [h1]
    · have := ih (by omega)
      rw [State.codeLength_succ]
      omega

theorem hasCode_iff (s : State) (j : Nat) :
    (!s.codesValid || !(s.codeAt (s.symAt j)).valid) = false ↔ s.hasCode j := by
  simp [State.hasCode]

/-- The loop passes symbols that have codes and fit. -/
theorem packLoop_pass {s : State} {js : List Nat} (ks : List Nat) {n : Nat} {T : BitString} (hc : ∀ j ∈ js, s.hasCode j)
    (hf : n + s.lengthOf js ≤ 8 * s.params.byteDepth) :
    packLoop s (js ++ ks) n T = packLoop s ks (n + s.lengthOf js) (T ++ s.bitsOf js) := by
  induction js generalizing n T with
  | nil => simp [State.lengthOf, State.bitsOf]
  | cons j js ih =>
    have h1 := (hasCode_iff s j).2 (hc j (by simp))
    simp only [State.lengthOf, List.map_cons, List.sum_cons] at hf ih ⊢
    simp only [List.cons_append, packLoop, h1, Bool.false_eq_true, if_false]
    rw [if_neg (by omega), ih (fun i hi => hc i (List.mem_cons_of_mem _ hi)) (by omega)]
    simp [State.bitsOf, Nat.add_assoc]

/-- When the loop ends without an error, every symbol has a code, they fit, and this is the stream. -/
theorem packLoop_ok {s : State} {js : List Nat} {n m : Nat} {T U : BitString} (h : packLoop s js n T = .ok (m, U)) :
    (∀ j ∈ js, s.hasCode j) ∧ m = n + s.lengthOf js ∧ U = T ++ s.bitsOf js ∧
    (n ≤ 8 * s.params.byteDepth → m ≤ 8 * s.params.byteDepth) := by
  induction js generalizing n T with
  | nil =>
    simp only [packLoop, Except.ok.injEq, Prod.mk.injEq] at h
    obtain ⟨rfl, rfl⟩ := h
    simp [State.lengthOf, State.bitsOf]
  | cons j js ih =>
    simp only [packLoop] at h
    split at h
    · simp at h
    · rename_i hc
      rw [Bool.not_eq_true, hasCode_iff] at hc
      split at h
      · simp at h
      · rename_i hf
        obtain ⟨h1, h2, h3, h4⟩ := ih h
        refine ⟨fun i hi => ?_, ?_, ?_, fun _ => h4 (by omega)⟩
        · rcases List.mem_cons.1 hi with rfl | hi
          · exact hc
          · exact h1 i hi
        · rw [h2]; simp [State.lengthOf, Nat.add_assoc]
        · rw [h3]; simp [State.bitsOf]

theorem packLoop_unknown {s : State} {j n : Nat} {T : BitString} (ks : List Nat) (hc : ¬ s.hasCode j) :
    packLoop s (j :: ks) n T =
      .error { code := .unknownSymbol, info := BitVec.ofNat 32 j, aux := (s.symAt j).setWidth 32 } := by
  rw [← hasCode_iff, Bool.not_eq_false] at hc
  simp [packLoop, hc]

theorem packLoop_overflow {s : State} {j n : Nat} {T : BitString} (ks : List Nat) (hc : s.hasCode j)
    (hf : 8 * s.params.byteDepth < n + (s.codeAt (s.symAt j)).len.toNat) :
    packLoop s (j :: ks) n T =
      .error { code := .outputOverflow, info := BitVec.ofNat 32 j, aux := (s.symAt j).setWidth 32 } := by
  rw [← hasCode_iff] at hc
  simp [packLoop, hc, hf]

/-! ## The bytes -/

/-- Bit `7 - i` of byte `k` is stream bit `8k + i`, and 0 past the end (R706). -/
theorem packByte_bit (n : Nat) (T : BitString) (k i : Nat) (hi : i < 8) :
    (packByte n T k).getLsbD (7 - i) = (T.take n).getD (8 * k + i) false := by
  have := getLsbD_bitWindow (T.take n) (8 * k) 8 i hi
  simpa [packByte] using this

theorem packBytes_length (n : Nat) (T : BitString) : (packBytes n T).length = ceil8 n := by simp [packBytes]

/-- The packed stream, read back bit by bit (R16). -/
theorem streamBit_packed (s : State) (n : Nat) (T : BitString) {i : Nat} (hi : i < 8 * ceil8 n) :
    (s.writeBytes 0 (packBytes n T)).streamBit i = (T.take n).getD i false := by
  have h1 : (packBytes n T)[i / 8]? = some (packByte n T (i / 8)) := by
    have h2 : i / 8 < ceil8 n := by omega
    simp [packBytes, h2]
  unfold State.streamBit
  rw [State.byteAt_writeBytes]
  simp only [Nat.zero_le, if_true, Nat.sub_zero, h1, Option.getD_some]
  rw [packByte_bit n T (i / 8) (i % 8) (by omega)]
  congr 1
  omega

/-- Bytes past the stream stay (R707). -/
theorem byteAt_packed (s : State) (n : Nat) (T : BitString) {k : Nat} (hk : ceil8 n ≤ k) :
    (s.writeBytes 0 (packBytes n T)).byteAt k = s.byteAt k := by
  rw [State.byteAt_writeBytes]
  simp [packBytes, hk]

/-- PACK without an error, said once (R701). -/
theorem runPack_ok {s t : State} (h : runPack s = .ok t) :
    s.symCount.toNat ≤ s.params.symDepth ∧ (∀ j < s.symCount.toNat, s.hasCode j) ∧
    s.codeLength s.symCount.toNat ≤ 8 * s.params.byteDepth ∧
    t = { s.writeBytes 0 (packBytes (s.codeLength s.symCount.toNat) (s.codeStream s.symCount.toNat)) with
      bitCount := BitVec.ofNat 32 (s.codeLength s.symCount.toNat)
      byteCount := BitVec.ofNat 32 (ceil8 (s.codeLength s.symCount.toNat)) } := by
  unfold runPack at h
  split at h
  · simp at h
  · split at h
    · simp at h
    · rename_i n T hl
      obtain ⟨h1, h2, h3, h4⟩ := packLoop_ok hl
      simp only [Except.ok.injEq] at h
      simp only [Nat.zero_add, List.nil_append, State.lengthOf_range, State.bitsOf_range] at h2 h3
      subst h2 h3
      exact ⟨by omega, fun j hj => h1 j (List.mem_range.2 hj), h4 (by omega), h.symm⟩

theorem runPack_error {s : State} {e : CmdFail} (h : runPack s = .error e) : e.code ≠ .none := by
  have loop : ∀ js n T, packLoop s js n T = .error e → e.code ≠ .none := by
    intro js
    induction js with
    | nil => intro n T h; simp [packLoop] at h
    | cons j js ih =>
      intro n T h
      simp only [packLoop] at h
      split at h
      · simp only [Except.error.injEq] at h; subst h; simp
      · split at h
        · simp only [Except.error.injEq] at h; subst h; simp
        · exact ih _ _ h
  unfold runPack at h
  split at h
  · simp only [Except.error.injEq] at h; subst h; simp
  · split at h
    · simp only [Except.error.injEq] at h
      subst h
      exact loop _ _ _ ‹_›
    · simp at h

end Sys2Proof.Machine
end

