-- ==== Sys2Proof/Laws/Unpack.lean ====
section
/-! SUPPORT. The bit loop of UNPACK, code by code (R801..R809). -/

namespace Sys2Proof.Machine

open Sys2Proof

/-- The walk through bits that meet no leaf. -/
theorem unpackLoop_walk {s : State} {is : List Nat} (js : List Nat) {cur k : NodeIdx} {out : List Symbol}
    (hw : walkPath s.node cur (is.map s.streamBit) = some k)
    (hn : ∀ q x, q ≠ [] → q <+: is.map s.streamBit → walkPath s.node cur q = some x →
      (nodeAt s.node x.toNat).leaf = false) :
    unpackLoop s (is ++ js) cur out = unpackLoop s js k out := by
  induction is generalizing cur with
  | nil =>
    simp only [List.map_nil, walkPath, Option.some.injEq] at hw
    rw [hw]; rfl
  | cons i is ih =>
    simp only [List.map_cons, walkPath] at hw hn
    simp only [List.cons_append, unpackLoop]
    cases hc : childOf s.node cur (s.streamBit i) with
    | none => rw [hc] at hw; simp at hw
    | some c =>
      rw [hc] at hw
      have hl : (nodeAt s.node c.toNat).leaf = false :=
        hn [s.streamBit i] c (by simp) (by simp) (by simp [walkPath, hc])
      simp only [hl, Bool.false_eq_true, if_false]
      refine ih hw fun q x h1 h2 h3 => ?_
      refine hn (s.streamBit i :: q) x (by simp) ?_ (by simpa [walkPath, hc] using h3)
      exact List.cons_prefix_cons.2 ⟨rfl, h2⟩

/-- The walk through one code: its last bit reaches the leaf. -/
theorem unpackLoop_code {s : State} {is : List Nat} {i : Nat} (js : List Nat) {c : Symbol} {out : List Symbol}
    (h : decodesTo s ((is ++ [i]).map s.streamBit) c) :
    unpackLoop s (is ++ i :: js) s.root out =
      if out.length = s.params.symDepth then
        .error { code := .outputOverflow, info := BitVec.ofNat 32 i, aux := BitVec.ofNat 32 s.params.symDepth }
      else unpackLoop s js s.root (out ++ [c]) := by
  obtain ⟨-, ⟨k, hw, hl, hc⟩, hn⟩ := h
  rw [List.map_append, List.map_singleton, walkPath_snoc] at hw
  rw [List.map_append, List.map_singleton, List.dropLast_concat] at hn
  obtain ⟨y, hy, hk⟩ := hw
  rw [unpackLoop_walk (i :: js) hy hn]
  simp only [unpackLoop, hk, hl, if_true, hc]

/-- The walk through a stream of codes that fits the buffer. -/
theorem unpackLoop_stream {s : State} {is : List Nat} (js : List Nat) {cs out : List Symbol}
    (h : streamOf s cs (is.map s.streamBit)) (hf : out.length + cs.length ≤ s.params.symDepth) :
    unpackLoop s (is ++ js) s.root out = unpackLoop s js s.root (out ++ cs) := by
  obtain ⟨ps, hT, hps⟩ := h
  induction hps generalizing is out with
  | nil =>
    simp only [List.flatten_nil, List.map_eq_nil_iff] at hT
    simp [hT]
  | @cons p c ps cs hp hps ih =>
    rw [List.flatten_cons, List.map_eq_append_iff] at hT
    obtain ⟨is1, is2, rfl, h1, h2⟩ := hT
    simp only [List.length_cons] at hf
    have hne : is1 ≠ [] := by
      rintro rfl
      exact hp.1 (by simpa using h1.symm)
    obtain ⟨is0, i, rfl⟩ : ∃ is0 i, is1 = is0 ++ [i] := ⟨is1.dropLast, is1.getLast hne,
      (List.dropLast_append_getLast hne).symm⟩
    rw [List.append_assoc, List.append_assoc, List.singleton_append, unpackLoop_code (c := c) _ (by rw [h1]; exact hp)]
    rw [if_neg (by omega), ih (by simp; omega) h2]
    simp

/-- The loop reads only the tree, the size of `SYM_BUF` and the bits it is given (R800, R807). -/
theorem unpackLoop_congr {s t : State} {is : List Nat} (hn : s.node = t.node) (hr : s.root = t.root)
    (hp : s.params = t.params) (hb : ∀ i ∈ is, s.streamBit i = t.streamBit i) (cur : NodeIdx) (out : List Symbol) :
    unpackLoop s is cur out = unpackLoop t is cur out := by
  induction is generalizing cur out with
  | nil => rfl
  | cons i is ih =>
    have ih' := ih fun j hj => hb j (List.mem_cons_of_mem _ hj)
    simp only [unpackLoop]
    rw [hb i (by simp), hn, hp, hr]
    simp only [ih']

/-- The loop never holds more symbols than the buffer (R805). -/
theorem unpackLoop_length {s : State} {is : List Nat} {cur k : NodeIdx} {out o : List Symbol}
    (h : unpackLoop s is cur out = .ok (k, o)) (hf : out.length ≤ s.params.symDepth) : o.length ≤ s.params.symDepth := by
  induction is generalizing cur out with
  | nil =>
    simp only [unpackLoop, Except.ok.injEq, Prod.mk.injEq] at h
    rw [← h.2]; exact hf
  | cons i is ih =>
    simp only [unpackLoop] at h
    split at h
    · simp at h
    · split at h
      · split at h
        · simp at h
        · exact ih h (by simp; omega)
      · exact ih h hf

/-- The errors of the loop (R809). -/
theorem unpackLoop_error {s : State} {is : List Nat} {cur : NodeIdx} {out : List Symbol} {e : CmdFail}
    (h : unpackLoop s is cur out = .error e) : e.code = .invalidPath ∨ e.code = .outputOverflow := by
  induction is generalizing cur out with
  | nil => simp [unpackLoop] at h
  | cons i is ih =>
    simp only [unpackLoop] at h
    split at h
    · simp only [Except.error.injEq] at h; exact .inl (by rw [← h])
    · split at h
      · split at h
        · simp only [Except.error.injEq] at h; exact .inr (by rw [← h])
        · exact ih h
      · exact ih h

/-- In a tree with two leaves or more every bit has a move (R804). -/
theorem unpackLoop_no_invalidPath {s : State} (ht : TreeInv s) (hL : 2 ≤ s.leafCount.toNat) {is : List Nat} {cur : NodeIdx}
    {out : List Symbol} {e : CmdFail} (h1 : s.leafCount.toNat ≤ cur.toNat) (h2 : cur.toNat < s.nodeCount.toNat)
    (h : unpackLoop s is cur out = .error e) : e.code = .outputOverflow := by
  have hr1 := ht.root_lt
  have hr2 : s.leafCount.toNat ≤ s.root.toNat := by
    by_contra hlt
    have := (ht.isLeaf_iff hr1).2 (by omega)
    rw [ht.root_not_leaf] at this
    exact absurd this (by simp)
  induction is generalizing cur out with
  | nil => simp [unpackLoop] at h
  | cons i is ih =>
    simp only [unpackLoop] at h
    obtain ⟨hl, hr, -⟩ := ht.children hL cur.toNat h1 h2
    split at h
    · rename_i hc
      rw [childOf_none] at hc
      cases hb : s.streamBit i <;> simp [hb, hl, hr] at hc
    · rename_i c hc
      have hlt := ht.childOf_lt h2 hc
      split at h
      · split at h
        · simp only [Except.error.injEq] at h; rw [← h]
        · exact ih hr2 hr1 h
      · rename_i hleaf
        rw [ht.isLeaf_iff (by omega)] at hleaf
        exact ih (by omega) (by omega) h

/-- A path to a leaf is a code the decoder reads (R810). -/
theorem TreeInv.decodesTo {s : State} (h : TreeInv s) {p : BitString} {c : Symbol} (hp : pathTo s p c) : decodesTo s p c := by
  have hne : p ≠ [] := by
    rintro rfl
    obtain ⟨x, hx1, hx2, -⟩ := hp
    simp only [walkPath, Option.some.injEq] at hx1
    subst hx1
    rw [h.root_not_leaf] at hx2
    exact absurd hx2 (by simp)
  refine ⟨hne, hp, fun q k _ hq hk => ?_⟩
  by_contra hleaf
  rw [Bool.not_eq_false] at hleaf
  have hpre : q <+: p := hq.trans (List.dropLast_prefix p)
  have := (h.prefix_free ⟨k, hk, hleaf, rfl⟩ hp hpre).1
  subst this
  have hlen := hq.length_le
  rw [List.length_dropLast] at hlen
  have := List.length_pos_iff.2 hne
  omega

/-- The stream PACK makes is a stream of codes (R810). -/
theorem codeStream_streamOf {s : State} (ht : TreeInv s) (hc : CodesInv s) {js : List Nat} (hj : ∀ j ∈ js, s.hasCode j) :
    streamOf s (js.map s.symAt) (s.bitsOf js) := by
  refine ⟨js.map fun j => (s.codeAt (s.symAt j)).bits, by simp [State.bitsOf, List.flatMap], ?_⟩
  induction js with
  | nil => exact .nil
  | cons j js ih =>
    refine .cons ?_ (ih fun i hi => hj i (List.mem_cons_of_mem _ hi))
    exact ht.decodesTo (hc.paths _ (hj j (by simp)).2)

/-- The length of that stream is the sum of the code lengths. -/
theorem bitsOf_length {s : State} (hc : CodesInv s) {js : List Nat} (hj : ∀ j ∈ js, s.hasCode j) :
    (s.bitsOf js).length = s.lengthOf js := by
  induction js with
  | nil => rfl
  | cons j js ih =>
    have h1 := (hc.lengths _ (hj j (by simp)).2).2
    have h2 := ih fun i hi => hj i (List.mem_cons_of_mem _ hi)
    simp only [State.bitsOf, State.lengthOf, List.flatMap_cons, List.length_append, List.map_cons, List.sum_cons] at h2 ⊢
    rw [h1, h2]

/-- UNPACK without an error, said once (R801, R808). -/
theorem runUnpack_ok {s t : State} (h : runUnpack s = .ok t) :
    s.treeValid = true ∧ s.byteCount.toNat ≤ s.params.byteDepth ∧ s.bitCount.toNat ≤ 8 * s.byteCount.toNat ∧
    ∃ out, unpackLoop s (List.range s.suppliedBits) s.root [] = .ok (s.root, out) ∧
      out.length ≤ s.params.symDepth ∧ t = { s.writeSyms 0 out with symCount := BitVec.ofNat 32 out.length } := by
  unfold runUnpack at h
  split at h
  · simp at h
  · rename_i hv
    split at h
    · simp at h
    · split at h
      · simp at h
      · rename_i cur out hl
        split at h
        · simp at h
        · rename_i hcur
          simp only [Except.ok.injEq] at h
          simp only [not_or, not_not, State.suppliedBits] at hcur
          obtain ⟨rfl, hA⟩ := hcur
          exact ⟨by simpa using hv, by omega, by omega, out, hl, unpackLoop_length hl (by simp), h.symm⟩

theorem runUnpack_error {s : State} {e : CmdFail} (h : runUnpack s = .error e) : e.code ≠ .none := by
  simp only [runUnpack] at h
  split_ifs at h <;> try (cases h; simp)
  split at h
  · cases h; rcases unpackLoop_error ‹_› with h1 | h1 <;> simp [h1]
  · split_ifs at h; cases h; simp

/-- A stream that is supplied in full and is codes of `cs` decodes to `cs`. -/
theorem runUnpack_stream {s : State} {cs : List Symbol} (hv : s.treeValid = true) (hd : s.byteCount.toNat ≤ s.params.byteDepth)
    (hb : s.bitCount.toNat ≤ 8 * s.byteCount.toNat) (hs : streamOf s cs (s.streamBits s.bitCount.toNat))
    (hf : cs.length ≤ s.params.symDepth) :
    runUnpack s = .ok { s.writeSyms 0 cs with symCount := BitVec.ofNat 32 cs.length } := by
  have hA : s.suppliedBits = s.bitCount.toNat := by unfold State.suppliedBits; omega
  have h1 := unpackLoop_stream (is := List.range s.bitCount.toNat) [] (out := []) hs (by simpa using hf)
  rw [List.append_nil] at h1
  unfold runUnpack
  rw [hA, h1, if_neg (by simp [hv]), if_neg (by omega)]
  simp [unpackLoop]

end Sys2Proof.Machine
end

