-- ==== Sys2Proof/Laws/Exec.lean ====
section
/-! SUPPORT. What one operation and one step can change, said once: the outcomes of the four commands, the outcomes of a
HOST_WRITE, and the kinds of step. The whole-machine statements are case analyses over these. -/

namespace Sys2Proof.Machine

open Sys2Proof

/-! ## Commands -/

/-- BUILD without an error (R501). -/
theorem execBuild_ok {s t : State} (h : execBuild s = .next t) (he : t.err = false) : ∃ N, BuiltTree s.freqAt N ∧
    t = State.succeed { s with
      node := N ++ s.node.drop N.length, leafCount := BitVec.ofNat 9 (presentSyms s.freqAt).length,
      nodeCount := BitVec.ofNat 9 N.length, root := BitVec.ofNat 9 (N.length - 1), treeValid := true,
      codesValid := false } := by
  simp only [execBuild, Host.Outcome.next.injEq] at h
  obtain ⟨u, hu, rfl⟩ := State.complete_ok h he
  obtain ⟨N, hN, rfl⟩ := runBuild_ok hu
  exact ⟨N, hN, rfl⟩

/-- GENCODES on a tree with the tree invariant (R601). -/
theorem execGencodes_tree {s : State} (hv : s.treeValid = true) (hT : TreeInv s) : ∃ ls, ls.Nodup ∧
    (∀ c q, (c, q) ∈ ls ↔ pathTo s q c) ∧ codeWalk s.node walkFuel s.root.toNat [] = some ls ∧
    execGencodes s = .next (State.succeed { s with code := codeTable ls, codesValid := true }) := by
  obtain ⟨ls, h1, h2, h3⟩ := codeWalk_root hT
  exact ⟨ls, h2, h3, h1, by simp [execGencodes, hv, h1, State.complete]⟩

/-- What a command that answers a next state completed with: its updates leave LASTOP, the pending flags and the
information words alone, and an error has a code. -/
theorem exec_command {i : Instr} {s t : State} (hi : isCommand i) (h : exec i s = .next t) :
    ∃ r, t = s.complete r ∧
      (∀ u, r = .ok u → u.lastop = s.lastop ∧ u.irqPend = s.irqPend ∧ u.errInfo = s.errInfo ∧ u.errAux = s.errAux ∧
        u.params = s.params ∧ u.freq = s.freq ∧ u.inbox = s.inbox) ∧
      ∀ f, r = .error f → f.code ≠ .none := by
  rcases hi with rfl | rfl | rfl | rfl
  · simp only [exec, execBuild, Host.Outcome.next.injEq] at h
    refine ⟨_, h.symm, fun u hu => ?_, fun f hf => ?_⟩
    · obtain ⟨N, -, rfl⟩ := runBuild_ok hu; exact ⟨rfl, rfl, rfl, rfl, rfl, rfl, rfl⟩
    · rw [(runBuild_error hf).1]; simp
  · simp only [exec, execGencodes] at h
    split at h
    · split at h
      · simp at h
      · simp only [Host.Outcome.next.injEq] at h
        exact ⟨_, h.symm, fun u hu => by cases hu; exact ⟨rfl, rfl, rfl, rfl, rfl, rfl, rfl⟩, fun f hf => by cases hf⟩
    · simp only [Host.Outcome.next.injEq] at h
      exact ⟨_, h.symm, fun u hu => (by cases hu), fun f hf => by cases hf; simp⟩
  · simp only [exec, execPack, Host.Outcome.next.injEq] at h
    refine ⟨_, h.symm, fun u hu => ?_, fun f hf => runPack_error hf⟩
    obtain ⟨-, -, -, rfl⟩ := runPack_ok hu; exact ⟨rfl, rfl, rfl, rfl, rfl, rfl, rfl⟩
  · simp only [exec, execUnpack, Host.Outcome.next.injEq] at h
    refine ⟨_, h.symm, fun u hu => ?_, fun f hf => runUnpack_error hf⟩
    obtain ⟨-, -, -, o, -, -, rfl⟩ := runUnpack_ok hu; exact ⟨rfl, rfl, rfl, rfl, rfl, rfl, rfl⟩

/-- The memories and valid flags each command leaves alone (R307). None draws a buffer anew. -/
theorem exec_command_frame {i : Instr} {s t : State} (hi : isCommand i) (h : exec i s = .next t) :
    (i ≠ .build → t.node = s.node ∧ t.treeValid = s.treeValid) ∧ (i ≠ .gencodes → t.code = s.code) ∧
    (i ≠ .build → i ≠ .gencodes → t.codesValid = s.codesValid) ∧ (i ≠ .unpack → t.symBuf = s.symBuf) ∧
    (i ≠ .pack → t.byteBuf = s.byteBuf) ∧ t.symDraw = s.symDraw ∧ t.byteDraw = s.byteDraw := by
  rcases hi with rfl | rfl | rfl | rfl
  · simp only [exec, execBuild, Host.Outcome.next.injEq] at h
    subst h
    cases hr : runBuild s with
    | error f => simp [State.complete]
    | ok u => obtain ⟨N, -, rfl⟩ := runBuild_ok hr; simp [State.complete]
  · simp only [exec, execGencodes] at h
    split at h
    · split at h
      · simp at h
      · cases h; simp [State.complete]
    · cases h; simp [State.complete]
  · simp only [exec, execPack, Host.Outcome.next.injEq] at h
    subst h
    cases hr : runPack s with
    | error f => simp [State.complete]
    | ok u => obtain ⟨-, -, -, rfl⟩ := runPack_ok hr; simp [State.complete]
  · simp only [exec, execUnpack, Host.Outcome.next.injEq] at h
    subst h
    cases hr : runUnpack s with
    | error f => simp [State.complete]
    | ok u => obtain ⟨-, -, -, o, -, -, rfl⟩ := runUnpack_ok hr; simp [State.complete]

/-! ## Host writes -/

/-- CTRL, CMD and IRQ_PEND are named by one offset each, as a bit vector. -/
theorem target_addr {p : Params} {a : Addr} (h4 : a.toNat % 4 = 0) :
    (target p a = .ctrl → a = ctrlAddr) ∧ (target p a = .cmd → a = cmdAddr) ∧
    (target p a = .irqPend → a = irqPendAddr) :=
  ⟨fun h => BitVec.eq_of_toNat_eq ((target_unique h4).1.1 h), fun h => BitVec.eq_of_toNat_eq ((target_unique h4).2.1.1 h),
    fun h => BitVec.eq_of_toNat_eq ((target_unique h4).2.2.2.1 h)⟩

/-- The windows of the memories, by number (R208). -/
theorem target_window {p : Params} {a : Addr} :
    (∀ k, target p a = .freq k → 0x400 ≤ a.toNat ∧ a.toNat < 0x800 ∧ k = (a.toNat - 0x400) / 4) ∧
    (∀ w, target p a = .symWord w → 0x10000 ≤ a.toNat ∧ a.toNat < 0x20000 ∧ a.toNat < 0x10000 + p.symDepth ∧
      w = (a.toNat - 0x10000) / 4) ∧
    (∀ w, target p a = .byteWord w → 0x20000 ≤ a.toNat ∧ a.toNat < 0x30000 ∧ a.toNat < 0x20000 + p.byteDepth ∧
      w = (a.toNat - 0x20000) / 4) := by
  have low : ∀ n < 0x80, (match (Cells.get regMap n).getD .unmapped with
      | .freq _ => true
      | .symWord _ => true
      | .byteWord _ => true
      | _ => false) = false := by decide
  rcases target_cases p a with ⟨h, e⟩ | ⟨h, h', e⟩ | ⟨h, h', e⟩ | ⟨h, h', h'', e⟩ | ⟨h, h', h'', e⟩ | ⟨h, e⟩ <;> rw [e]
  · have := low _ h
    refine ⟨fun k hk => ?_, fun k hk => ?_, fun k hk => ?_⟩ <;> rw [hk] at this <;> simp at this
  all_goals simp
  · exact ⟨h, h'⟩
  · exact ⟨h, h', h''⟩
  · exact ⟨h, h', h''⟩

/-- What a HOST_WRITE that is neither a soft reset nor an acknowledge can change (R402). -/
theorem execHostWrite_frame {a : Addr} {v : Word} {s t : State} (h : execHostWrite a v s = .next t)
    (hc : ¬ (a = ctrlAddr ∧ v.getLsbD 0 = true)) (hp : a ≠ irqPendAddr) :
    t.params = s.params ∧ t.node = s.node ∧ t.code = s.code ∧ t.treeValid = s.treeValid ∧
    t.codesValid = s.codesValid ∧
    (t.freq ≠ s.freq → 0x400 ≤ a.toNat ∧ a.toNat < 0x800) ∧
    (t.symBuf ≠ s.symBuf → 0x10000 ≤ a.toNat ∧ a.toNat < 0x20000) ∧
    (t.byteBuf ≠ s.byteBuf → 0x20000 ≤ a.toNat ∧ a.toNat < 0x30000) ∧
    (t.lastop ≠ s.lastop → a = cmdAddr ∧ s.eng = .idle ∧ t.lastop = cmdOp v) ∧
    t.symDraw = s.symDraw ∧ t.byteDraw = s.byteDraw ∧
    ∀ i < 3, s.irqPend.getLsbD i = true → t.irqPend.getLsbD i = true := by
  rcases execHostWrite_cases a v s with ⟨-, e⟩ | ⟨-, -, -, e⟩ | ⟨h4, hb, e⟩ <;>
    rw [e, Host.Outcome.next.injEq] at h <;> subst h
  · simp [answered]
  · simp only [answered, State.setIrq_irqPend, State.setIrq_freq, State.setIrq_symBuf, State.setIrq_byteBuf,
      State.setIrq_lastop, ne_eq, not_true_eq_false, false_implies, true_and, State.setIrq_params, State.setIrq_node,
      State.setIrq_code, State.setIrq_treeValid, State.setIrq_codesValid, State.setIrq_symDraw, State.setIrq_byteDraw]
    intro i _ h1
    rw [BitVec.getLsbD_or, h1, Bool.true_or]
  · have hc' : target s.params a ≠ .ctrl ∨ v.getLsbD 0 = false := by
      by_cases h1 : target s.params a = .ctrl
      · refine .inr ?_
        by_contra h2
        exact hc ⟨(target_addr h4).1 h1, by simpa using h2⟩
      · exact .inl h1
    obtain ⟨f1, f2, f3, f4, f5, -, -, -, f9, f10, f11, f12, f13, f14, f15⟩ := regWrite_frame s v _ hc'
    refine ⟨f1, f2, f3, f4, f5, fun h => ?_, fun h => ?_, fun h => ?_, fun h => ?_, f9, f10, fun i _ h => ?_⟩
    · by_contra hn
      exact h (f11 fun k hk => hn ⟨(target_window.1 k hk).1, (target_window.1 k hk).2.1⟩)
    · by_contra hn
      exact h (f12 fun k hk => hn ⟨(target_window.2.1 k hk).1, (target_window.2.1 k hk).2.1⟩)
    · by_contra hn
      exact h (f13 fun k hk => hn ⟨(target_window.2.2 k hk).1, (target_window.2.2 k hk).2.1⟩)
    · by_cases hcmd : target s.params a = .cmd
      · rw [hcmd] at hb
        refine ⟨(target_addr h4).2.1 hcmd, ?_, by rw [hcmd]; rfl⟩
        simp only [Target.busyOk, Bool.false_eq_true, or_false] at hb
        unfold State.busy at hb
        split at hb <;> simp_all
      · exact absurd (f14 hcmd).1 h
    · have : (answered (s.regWrite v (target s.params a)) false 0).irqPend = s.irqPend :=
        f15 fun h1 => hp ((target_addr h4).2.2 h1)
      rw [this]; exact h

/-! ## Steps -/

/-- The kinds of step: a command, a soft reset, a power-on reset, a host write, an acknowledge, an illegal command word,
or one that changes at most the response and the events. -/
theorem step_kinds {s t : State} (hs : step s = .next t) :
    (∃ i es, fetch s = .instr i { s with inbox := es } ∧ isCommand i ∧ exec i { s with inbox := es } = .next t ∧
      ∃ w, s.eng = .pending w) ∨
    (∃ es, fetch s = .instr .softReset { s with inbox := es } ∧
      t = answered (State.softReset { s with inbox := es }) false 0) ∨
    (∃ es, fetch s = .powerOn { s with inbox := es } ∧ t = State.powerOn { s with inbox := es }) ∨
    (∃ a v es, fetch s = .instr (.hostWrite a v) { s with inbox := es } ∧
      execHostWrite a v { s with inbox := es } = .next t ∧ a ≠ irqPendAddr ∧
      ¬ (a = ctrlAddr ∧ v.getLsbD 0 = true)) ∨
    (∃ m es, fetch s = .instr (.irqAck m) { s with inbox := es } ∧
      t = answered (State.clearIrq { s with inbox := es } m) false 0) ∨
    (∃ w es, t = State.raiseError { s with inbox := es } { code := .illegalCmd, info := w, aux := 0 }) ∨
    ∃ es r, t = { s with inbox := es, resp := r } := by
  rcases step_cases hs with ⟨i, u, hf, he⟩ | ⟨w, u, hf, rfl⟩ | ⟨u, hf, rfl⟩ | hf
  · obtain ⟨⟨es, rfl⟩, hc⟩ := fetch_instr hf
    rcases hc with ⟨w, es', -, rfl⟩ | ⟨w, hw, hd⟩
    · rcases decodeTxn_cases w with ⟨a, h⟩ | ⟨m, h⟩ | h | ⟨a, v, h, h1, h2⟩ <;> rw [h] at he hf
      · simp only [exec, execHostRead] at he
        split at he <;> (cases he; exact .inr (.inr (.inr (.inr (.inr (.inr ⟨es, _, rfl⟩))))))
      · cases he
        exact .inr (.inr (.inr (.inr (.inl ⟨m, es, hf, rfl⟩))))
      · cases he
        exact .inr (.inl ⟨es, hf, rfl⟩)
      · exact .inr (.inr (.inr (.inl ⟨a, v, es, hf, he, h1, h2⟩)))
    · exact .inl ⟨i, es, hf, decodeCmd_cases hd, he, w, hw⟩
  · obtain ⟨⟨es, rfl⟩, -⟩ := fetch_illegal hf
    exact .inr (.inr (.inr (.inr (.inr (.inl ⟨w, es, rfl⟩)))))
  · obtain ⟨es, he⟩ := fetch_state s
    rw [hf] at he
    simp only [Fetched.state] at he
    subst he
    exact .inr (.inr (.inl ⟨es, hf, rfl⟩))
  · obtain ⟨es, he⟩ := fetch_state s
    rw [hf] at he
    simp only [Fetched.state] at he
    subst he
    exact .inr (.inr (.inr (.inr (.inr (.inr ⟨es, s.resp, rfl⟩)))))

end Sys2Proof.Machine
end

