-- ==== Sys2Proof/Laws/Invariant.lean ====
section
/-! SUPPORT. The invariant of the machine under the shared updates: the registers it does not read, a response, an error, a
soft reset and a register write. -/

namespace Sys2Proof.Machine

open Sys2Proof

/-- The status invariant reads these fields only. -/
theorem StatusInv.congr {s t : State} (h : StatusInv s) (h1 : t.eng = s.eng) (h2 : t.done = s.done)
    (h3 : t.errcode = s.errcode) (h4 : t.lastop = s.lastop) (h5 : t.err = s.err) (h6 : t.errInfo = s.errInfo)
    (h7 : t.errAux = s.errAux) (h8 : t.codesValid = s.codesValid) (h9 : t.treeValid = s.treeValid)
    (h10 : t.leafCount = s.leafCount) (h11 : t.nodeCount = s.nodeCount) (h12 : t.root = s.root) : StatusInv t := by
  obtain ⟨a, b, c, d, e, f⟩ := h
  constructor <;> simp_all

/-- The machine invariant of a state with the same tree and code table. -/
theorem MachineInv.congr {s t : State} (h : MachineInv s) (hp : t.params = s.params) (hm : Memory.wf t = true)
    (hs : StatusInv t) (hv : t.treeValid = s.treeValid) (hv' : t.codesValid = s.codesValid) (hn : t.node = s.node)
    (hl : t.leafCount = s.leafCount) (hc : t.nodeCount = s.nodeCount) (hr : t.root = s.root)
    (hcd : t.code = s.code) : MachineInv t :=
  ⟨by rw [hp]; exact h.params, hm, hs, fun h' => (h.tree (hv ▸ h')).congr hn hl hc hr,
    fun h' => (h.codes (hv' ▸ h')).congr hn hl hr hcd⟩

/-- A change of the interrupt registers, the counts, the selectors, the response or the events keeps it. -/
theorem MachineInv.plain {s t : State} (h : MachineInv s)
    (ht : t = { s with
      irqEn := t.irqEn, irqPend := t.irqPend, symCount := t.symCount, bitCount := t.bitCount, byteCount := t.byteCount,
      nodeSel := t.nodeSel, codeSel := t.codeSel, resp := t.resp, inbox := t.inbox }) : MachineInv t := by
  rw [ht]
  exact h.congr rfl (Memory.wf_congr h.mem rfl rfl rfl rfl rfl rfl)
    (h.status.congr rfl rfl rfl rfl rfl rfl rfl rfl rfl rfl rfl rfl) rfl rfl rfl rfl rfl rfl rfl

/-- A command error keeps it (R1005). -/
theorem MachineInv.raiseError {s : State} (h : MachineInv s) (f : CmdFail) (hf : f.code ≠ .none) :
    MachineInv (s.raiseError f) := by
  refine h.congr rfl (Memory.wf_congr h.mem rfl rfl rfl rfl rfl rfl) ?_ rfl rfl rfl rfl rfl rfl rfl
  have := h.status
  constructor <;> simp [hf]
  · exact this.codesTree
  · exact this.noTree

/-- Completion without error keeps it, when the information words are clear (R1104). -/
theorem MachineInv.succeed {s : State} (h : MachineInv s) (h1 : s.errInfo = 0) (h2 : s.errAux = 0) :
    MachineInv s.succeed := by
  refine h.congr rfl (Memory.wf_congr h.mem rfl rfl rfl rfl rfl rfl) ?_ rfl rfl rfl rfl rfl rfl rfl
  have := h.status
  constructor <;> simp
  · exact ⟨h1, h2⟩
  · exact this.codesTree
  · exact this.noTree

/-- The registers both resets clear (R160). -/
theorem MachineInv.cleared {s t : State} (h : MachineInv s)
    (ht : t = { s.clearRegs with
      node := t.node, code := t.code, symBuf := t.symBuf, byteBuf := t.byteBuf, symDraw := t.symDraw,
      byteDraw := t.byteDraw, resp := t.resp }) (hm : Memory.wf t = true) : MachineInv t := by
  refine ⟨by rw [ht]; exact h.params, hm, ?_, fun h' => ?_, fun h' => ?_⟩
  · constructor <;> rw [ht] <;> simp
  · rw [ht] at h'; simp at h'
  · rw [ht] at h'; simp at h'

theorem MachineInv.softReset {s : State} (h : MachineInv s) : MachineInv s.softReset := by
  refine h.cleared ?_ (Memory.wf_softReset h.mem)
  rcases State.softReset_cases s with ⟨_, e⟩ | ⟨_, e⟩ | ⟨_, _, e⟩ <;> rw [e] <;> rfl

theorem MachineInv.powerOn {s : State} (h : MachineInv s) : MachineInv s.powerOn :=
  h.cleared rfl (Memory.wf_powerOn h.mem)

/-- An accepted command word (R404). -/
theorem MachineInv.accept {s : State} (h : MachineInv s) (v : Word) : MachineInv (s.accept v) := by
  refine h.congr rfl (Memory.wf_congr h.mem rfl rfl rfl rfl rfl rfl) ?_ rfl rfl rfl rfl rfl rfl rfl
  have := h.status
  constructor <;> simp
  · exact this.codesTree
  · exact this.noTree

/-- A register write at an aligned offset (R402). -/
theorem MachineInv.regWrite {s : State} (h : MachineInv s) (v : Word) (a : Addr) :
    MachineInv (s.regWrite v (target s.params a)) := by
  have mem : ∀ {t : State}, Memory.wf t = true →
      t = { s with freq := t.freq, symBuf := t.symBuf, byteBuf := t.byteBuf } → MachineInv t := by
    intro t hm ht
    rw [ht] at hm ⊢
    exact h.congr rfl hm (h.status.congr rfl rfl rfl rfl rfl rfl rfl rfl rfl rfl rfl rfl) rfl rfl rfl rfl rfl rfl rfl
  cases ht : target s.params a with
  | ctrl =>
    simp only [State.regWrite]
    split
    · exact h.softReset
    · exact h
  | cmd => exact h.accept v
  | freq k =>
    obtain ⟨h1, h2, h3⟩ := target_window.1 k ht
    exact mem (Memory.wf_setFreq v h.mem (by omega)) rfl
  | symWord w =>
    obtain ⟨-, -, h1, rfl⟩ := target_window.2.1 w ht
    have := symWord_bound h.params h1
    exact mem (Memory.wf_writeSyms _ h.mem (by simp only [splitWord, List.length_cons, List.length_nil]; omega)) rfl
  | byteWord w =>
    obtain ⟨-, -, h1, rfl⟩ := target_window.2.2 w ht
    have := byteWord_bound h.params h1
    exact mem (Memory.wf_writeBytes _ h.mem (by simp only [splitWord, List.length_cons, List.length_nil]; omega)) rfl
  | _ => exact h.plain rfl

end Sys2Proof.Machine
end

