-- ==== Sys2Proof/Laws/PerInstr.lean ====
section
/-! SUPPORT. One lemma per operation: its encoding has the width its row of spec/opcode_table.json gives it and the bits
that row fixes. -/

namespace Sys2Proof.Laws.MatchesRow

open Sys2Proof

/-- The encoding of a well-formed operation lies in its row of the opcode table. -/
def Statement (i : Instr) : Prop :=
  i.wf = true → (encode i).bits.1 = i.row.width ∧ (encode i).bits.2 < 2 ^ i.row.width ∧
    (encode i).bits.2 &&& i.row.mask = i.row.value

/-- A request has fixed bits when each bit under the mask is the value's. -/
theorem txn_fixed {w m v : Txn} (h : ∀ i < 51, (w.getLsbD i && m.getLsbD i) = v.getLsbD i) :
    w.toNat < 2 ^ 51 ∧ w.toNat &&& m.toNat = v.toNat := by
  have : w &&& m = v := BitVec.eq_of_getLsbD_eq fun i hi => by rw [BitVec.getLsbD_and]; exact h i hi
  exact ⟨w.isLt, by rw [← BitVec.toNat_and, this]⟩

theorem write_bit : ∀ i < 51, (0x4000000000000 : Txn).getLsbD i = decide (i = 50) := by decide

theorem zero_bit : ∀ i < 51, (0 : Txn).getLsbD i = false := by decide

theorem ack_bits : ∀ i < 51, (0x7FFFF00000000 : Txn).getLsbD i = decide (32 ≤ i) ∧
    (0x4001C00000000 : Txn).getLsbD i =
      (if i = 50 then true else if 32 ≤ i then irqPendAddr.getLsbD (i - 32) else false) := by decide

theorem hostRead (addr : Addr) : Statement (.hostRead addr) := fun _ =>
  ⟨rfl, txn_fixed (m := 0x4000000000000) (v := 0) fun i hi => by
    rw [write_bit i hi, zero_bit i hi, getLsbD_encodeTxn _ _ _ hi]
    by_cases h : i = 50 <;> simp [h]⟩

theorem hostWrite (addr : Addr) (wdata : Word) : Statement (.hostWrite addr wdata) := fun _ =>
  ⟨rfl, txn_fixed (m := 0x4000000000000) (v := 0x4000000000000) fun i hi => by
    rw [write_bit i hi, getLsbD_encodeTxn _ _ _ hi]
    by_cases h : i = 50 <;> simp [h]⟩

theorem irqAck (mask : Word) : Statement (.irqAck mask) := fun _ =>
  ⟨rfl, txn_fixed (m := 0x7FFFF00000000) (v := 0x4001C00000000) fun i hi => by
    rw [(ack_bits i hi).1, (ack_bits i hi).2, getLsbD_encodeTxn _ _ _ hi]
    by_cases h : i = 50
    · simp [h]
    · by_cases h' : 32 ≤ i <;> simp only [h, h', if_true, if_false, decide_true, decide_false, Bool.and_true,
        Bool.and_false]⟩

theorem softReset : Statement .softReset := fun _ => ⟨rfl, by decide, by decide⟩
theorem build : Statement .build := fun _ => ⟨rfl, by decide, by decide⟩
theorem gencodes : Statement .gencodes := fun _ => ⟨rfl, by decide, by decide⟩
theorem pack : Statement .pack := fun _ => ⟨rfl, by decide, by decide⟩
theorem unpack : Statement .unpack := fun _ => ⟨rfl, by decide, by decide⟩

end Sys2Proof.Laws.MatchesRow
end

