-- ==== Sys2Proof/Machine/HostScript.lean ====
section
/-! DEFINITION. The host-script syntax of spec/30_encoding.md R312 and its pseudo-instructions (R313), as data, with the
bus requests they stand for. The block itself does not use this file: it says what a host program is. -/

namespace Sys2Proof.Machine

open Sys2Proof

/-- One line of a host script (R312). -/
inductive HostLine where
  /-- `write OFF, VAL`. -/
  | write (off : Addr) (val : Word)
  /-- `read OFF`. -/
  | read (off : Addr)
  /-- `read OFF -> VAL`. -/
  | readExpect (off : Addr) (val : Word)
  /-- `poll OFF, MASK, VAL`. -/
  | poll (off : Addr) (mask val : Word)
  /-- `# text`. -/
  | comment (text : String)
  deriving DecidableEq, Repr

/-- The requests of a line (R312, R305). A poll is one or more identical reads; `reads` says how many this run took
(no bound is given, R1105). -/
def HostLine.requests (reads : Nat) : HostLine → List Txn
  | .write off val => [encodeTxn true off val]
  | .read off => [encodeTxn false off 0]
  | .readExpect off _ => [encodeTxn false off 0]
  | .poll off _ _ => List.replicate reads (encodeTxn false off 0)
  | .comment _ => []

/-- Whether a response is one the line goes on after (R312): the script's `-> VAL` checks `rdata`, a poll ends on a
match. -/
def HostLine.accepts (r : BusResponse) : HostLine → Bool
  | .write _ _ => true
  | .read _ => true
  | .readExpect _ val => r.rdata == val
  | .poll _ mask val => r.rdata &&& mask == val
  | .comment _ => true

/-- Offset of `FREQ[c]` (R312). -/
def freqAddr (c : Symbol) : Addr := BitVec.ofNat 18 (0x400 + 4 * c.toNat)

/-- Offset of word `n` of the `SYM_BUF` window (R312). Past the window the rule gives no offset: there the 18-bit
reduction is the model's choice (DESIGN CHOICE, assumption 22). -/
def symWordAddr (n : Nat) : Addr := BitVec.ofNat 18 (0x10000 + 4 * n)

/-- Offset of word `n` of the `BYTE_BUF` window (R312). Past the window the rule gives no offset: there the 18-bit
reduction is the model's choice (DESIGN CHOICE, assumption 22). -/
def byteWordAddr (n : Nat) : Addr := BitVec.ofNat 18 (0x20000 + 4 * n)

/-- The words of a byte list, four bytes each, "with bytes past the end of t taken as 0" (R313). -/
def packWords : List Byte → List Word
  | [] => []
  | [a] => [joinBytes a 0 0 0]
  | [a, b] => [joinBytes a b 0 0]
  | [a, b, c] => [joinBytes a b c 0]
  | a :: b :: c :: d :: bs => joinBytes a b c d :: packWords bs

/-- Writes of words to consecutive word offsets given by `addr`, from word `n` on. -/
def writeWords (addr : Nat → Addr) : Nat → List Word → List HostLine
  | _, [] => []
  | n, w :: ws => .write (addr n) w :: writeWords addr (n + 1) ws

/-- The pseudo-instructions of R313. -/
inductive HostPseudo where
  | build
  | gencodes
  | pack
  | unpack
  | wait
  | setfreq (c : Symbol) (v : Word)
  | softreset
  | ackirq (m : Word)
  | loadsyms (t : List Byte)
  | loadbytes (bs : List Byte)
  deriving DecidableEq, Repr

/-- The expansions of R313. What a host does with data longer than the buffer is left open: every word is written, and a
length is reduced to 32 bits (DESIGN CHOICE, assumption 22). -/
def HostPseudo.expand : HostPseudo → List HostLine
  | .build => [.write cmdAddr 0x1]
  | .gencodes => [.write cmdAddr 0x2]
  | .pack => [.write cmdAddr 0x3]
  | .unpack => [.write cmdAddr 0x4]
  | .wait => [.poll 0x014 0x1 0x0]
  | .setfreq c v => [.write (freqAddr c) v]
  | .softreset => [.write ctrlAddr 0x1]
  | .ackirq m => [.write irqPendAddr m]
  | .loadsyms t => writeWords symWordAddr 0 (packWords t) ++ [.write 0x028 (BitVec.ofNat 32 t.length)]
  | .loadbytes bs => writeWords byteWordAddr 0 (packWords bs)

end Sys2Proof.Machine
end

