-- ==== Sys2Proof/Machine/HostArtifacts.lean ====
section
/-! DEFINITION. The host-side duties and persistence artifacts of spec/45_host_artifacts.md (R901..R904), as functions of
what the host reads from the block. They bind host software: the block itself does not use this file. -/

namespace Sys2Proof.Machine

open Sys2Proof

/-- The frequency duty (R901): how often `c` occurs in `text`; none where the count has no 32-bit value, an input the
host must refuse. -/
def hostCount (text : List Symbol) (c : Symbol) : Option Word :=
  if text.count c < 2 ^ 32 then some (BitVec.ofNat 32 (text.count c)) else none

/-- ASCII decimal digits of a number. -/
def decimalBytes (n : Nat) : List Byte := (Nat.toDigits 10 n).map fun d => BitVec.ofNat 8 d.toNat

/-- One line of the header artifact (R902): the symbol's raw byte, a colon, the code in ASCII, a newline. -/
def headerLine (c : Symbol) (bits : BitString) : List Byte :=
  [c, 0x3A] ++ (bits.map fun b => if b then (0x31 : Byte) else 0x30) ++ [0x0A]

/-- The header artifact (R902), with the spelling that rule chooses for the host (assumption 19). -/
def headerArtifact (s : State) : List Byte :=
  decimalBytes s.leafCount.toNat ++ [0x0A] ++
    (List.range Config.alphabet).flatMap fun c =>
      let e := s.codeAt (BitVec.ofNat 8 c)
      if s.codesValid && e.valid then headerLine (BitVec.ofNat 8 c) e.bits else []

/-- The bit-stream artifact (R903): `BIT_COUNT` in ASCII decimal, a newline, and the packed bytes. -/
def bitStreamArtifact (s : State) : List Byte :=
  decimalBytes s.bitCount.toNat ++ [0x0A] ++ (List.range s.byteCount.toNat).map s.byteAt

/-- Loading a bit-stream artifact of `n` bits and the raw bytes `bs` (R904, steps 1 to 3). The rule does not say what a host
does with more raw bytes than `BYTE_BUF` holds: here it writes every word and the length modulo 2^32, which is the
model's choice (DESIGN CHOICE, assumption 22). -/
def loadArtifact (n : Word) (bs : List Byte) : List HostLine :=
  [.write 0x02C n, .write 0x030 (BitVec.ofNat 32 bs.length)] ++ HostPseudo.expand (.loadbytes bs)

end Sys2Proof.Machine
end

