-- ==== Sys2Proof/Tests/Slice0.lean ====
section
/-! SUPPORT. The tests of the model: the checks of WellFormed, words written out from spec/30_encoding.md and
spec/95_test_vectors.md section 3, vectors of its section 2, and, for every statement with hypotheses, states that meet
them. Every expected value comes from the spec. -/

namespace Sys2Proof.Tests

open Sys2Proof Sys2Proof.Machine

/-! ## WellFormed: one ill-formed operation for each check -/

theorem test_wf_refuses_write_to_irq_pend : (Instr.hostWrite 0x0001C 0x7).wf = false := by decide

theorem test_wf_refuses_ctrl_write_of_bit_0 : (Instr.hostWrite 0x0000C 0x1).wf = false := by decide

theorem test_wf_accepts_ctrl_write_without_bit_0 : (Instr.hostWrite 0x0000C 0x2).wf = true := by decide

/-! ## Decoding: words of 95_test_vectors.md section 3 and of 30_encoding.md, bit by bit -/

/-- P2 row 8: WRITE 0, ADDR 0x00034. -/
theorem test_decode_hostRead :
    decodeTxn 0b0_000000000000110100_00000000000000000000000000000000 = .hostRead 0x00034 := by decide

/-- P1 row 2: WRITE 1, ADDR 0x00584, WDATA 2. -/
theorem test_decode_hostWrite :
    decodeTxn 0b1_000000010110000100_00000000000000000000000000000010 = .hostWrite 0x00584 0x2 := by decide

/-- P3 row 20: WRITE 1, ADDR 0x0001C, WDATA 3. -/
theorem test_decode_irqAck :
    decodeTxn 0b1_000000000000011100_00000000000000000000000000000011 = .irqAck 0x3 := by decide

/-- P6 row 14: WRITE 1, ADDR 0x0000C, WDATA 1. -/
theorem test_decode_softReset :
    decodeTxn 0b1_000000000000001100_00000000000000000000000000000001 = .softReset ∧
    decodeCtrl 0b11110000111100001111000011110001 = .ok .softReset := by decide

/-- R306: a CTRL word with bit 0 clear encodes nothing. -/
theorem test_decode_ctrl_bit_0_clear : decodeCtrl 0xFFFFFFFE = .error (.emptyCtrl 0xFFFFFFFE) := by decide

/-- R302: the four legal words. -/
theorem test_decode_commands :
    decodeCmd 0b00000000000000000000000000000001 = .ok .build ∧
    decodeCmd 0b00000000000000000000000000000010 = .ok .gencodes ∧
    decodeCmd 0b00000000000000000000000000000011 = .ok .pack ∧
    decodeCmd 0b00000000000000000000000000000100 = .ok .unpack := by decide

/-- R303 and the rows I1..I6: OP 0x0, 0x5 and 0xF, and a reserved bit set. -/
theorem test_decode_refuses_illegal_commands :
    decodeCmd 0x0 = .error (.illegalCmd 0x0) ∧ decodeCmd 0x5 = .error (.illegalCmd 0x5) ∧
    decodeCmd 0xF = .error (.illegalCmd 0xF) ∧ decodeCmd 0x10 = .error (.illegalCmd 0x10) ∧
    decodeCmd 0x11 = .error (.illegalCmd 0x11) ∧ decodeCmd 0x80000001 = .error (.illegalCmd 0x80000001) := by decide

/-- The table's numbering (bit 50 first) and the row that fixes more bits (assumption 7). -/
theorem test_decodeTableWord :
    decodeTableWord 56 0x4001C00000003 = some (.irqAck 0x3) ∧ decodeTableWord 56 0x1400000000 = some (.hostRead 0x14) ∧
    decodeTableWord 32 0x1 = some .build ∧ decodeTableWord 32 0xFFFFFFFF = some .softReset ∧
    decodeTableWord 32 0x8 = none := by decide +kernel

/-- R305: the responses of H1 (no error, 0x48554646) and H3 (ERR in bit 32, RDATA 0), bit 32 first. -/
theorem test_response_words :
    BusResponse.word ⟨false, 0x48554646⟩ = 0b0_01001000010101010100011001000110 ∧
    BusResponse.word ⟨true, 0⟩ = 0b1_00000000000000000000000000000000 ∧
    BusResponse.ofWord 0b1_00000000000000000000000000000000 = ⟨true, 0⟩ := by decide

/-! ## States -/

/-- The state an outcome goes on in. -/
def nextOf : Host.Outcome State Fault Refusal → State
  | .next t => t
  | .fault _ => State.reset
  | .refused _ => State.reset

/-- The outcome is a next state. -/
def goesOn : Host.Outcome State Fault Refusal → Bool
  | .next _ => true
  | .fault _ => false
  | .refused _ => false

theorem next_nextOf {o : Host.Outcome State Fault Refusal} (h : goesOn o = true) : o = .next (nextOf o) := by
  cases o with
  | next t => rfl
  | fault f => cases h
  | refused r => cases h

/-- Reset with a command word pending. -/
def busy (w : Word) : State := { State.reset with eng := .pending w, lastop := cmdOp w }

/-- Reset with a frequency table. -/
def table (f : List (Nat × Word)) : State := { State.reset with freq := f }

/-- The state BUILD leaves from a table. -/
def tree (f : List (Nat × Word)) : State := nextOf (exec .build (table f))

/-- The state GENCODES leaves after that. -/
def codes (f : List (Nat × Word)) : State := nextOf (exec .gencodes (tree f))

/-- A state with other sizes, counts and buffer contents. -/
def loaded (s : State) (p : Params) (sc bc yc : Word) (sb yb : List Host.Cell) : State :=
  { s with params := p, symCount := sc, bitCount := bc, byteCount := yc, symBuf := sb, byteBuf := yb }

/-- A byte list as buffer contents. -/
def bytes (bs : List Byte) : List Host.Cell := Cells.putAll [] 0 bs

/-- Sizes of 4 bytes each, the smallest R10 allows. -/
def small : Params := { symDepth := 4, byteDepth := 4 }

/-- Row B2: a:2, b:2. -/
def ab : List (Nat × Word) := [(0x61, 2), (0x62, 2)]

/-- Row B3: x:5. -/
def x5 : List (Nat × Word) := [(0x78, 5)]

/-- Row B6: A:1, B:1, C:2. -/
def abc : List (Nat × Word) := [(0x41, 1), (0x42, 1), (0x43, 2)]

/-- Row B1: a:4, b:4, c:4, d:4. -/
def abcd : List (Nat × Word) := [(0x61, 4), (0x62, 4), (0x63, 4), (0x64, 4)]

/-- Row B4: the table of "abracadabra". -/
def abra : List (Nat × Word) := [(0x61, 5), (0x62, 2), (0x63, 1), (0x64, 1), (0x72, 2)]

/-- "abracadabra". -/
def abraText : List Byte := [0x61, 0x62, 0x72, 0x61, 0x63, 0x61, 0x64, 0x61, 0x62, 0x72, 0x61]

/-! ## Vectors of 95_test_vectors.md section 2 -/

/-- H1. -/
theorem test_hostRead_id : (nextOf (exec (.hostRead 0x00000) State.reset)).resp = some ⟨false, 0x48554646⟩ := by decide

/-- H3. -/
theorem test_hostRead_misaligned : (nextOf (exec (.hostRead 0x00002) State.reset)).resp = some ⟨true, 0⟩ := by decide

/-- H6. -/
theorem test_hostWrite_drops_reserved_bits :
    (nextOf (exec (.hostWrite 0x00040 0xFFFFFFFF) State.reset)).nodeSel = 0x1FF := by decide

/-- H17. -/
theorem test_hostWrite_while_busy :
    (nextOf (exec (.hostWrite 0x00584 9) (busy 1))).freqAt 0x61 = 0 ∧
    (nextOf (exec (.hostWrite 0x00584 9) (busy 1))).irqPend = 0x4 := by decide

/-- H21, H22. -/
theorem test_irqAck :
    (nextOf (exec (.irqAck 0x1) { State.reset with irqPend := 0x6 })).irqPend = 0x6 ∧
    (nextOf (exec (.irqAck 0x6) { State.reset with irqPend := 0x6 })).irqPend = 0 := by decide

/-- Row R1: a pending PACK is discarded, SYM_BUF keeps its word and no flag is raised. -/
theorem test_softReset_aborts_pack :
    let t := nextOf (exec .softReset { loaded (busy 3) Params.default 4 0 0 (bytes [0x61, 0x62, 0x61, 0x62]) [] with
      treeValid := true, leafCount := 2 })
    t.statusWord = 0 ∧ t.irqPend = 0 ∧ t.symCount = 0 ∧ t.leafCount = 0 ∧ t.symWordAt 0 = 0x61626162 ∧
      t.byteDraw = 1 := by decide

/-- B4: the merges in order. -/
theorem test_build_abracadabra :
    (nextOf (step { table abra with eng := .pending 0x1, lastop := 1 })).statusWord = 0x0001000A ∧ (tree abra).root = 8 ∧
    ((tree abra).node.drop 5).map (fun n => (n.freq, n.left, n.right)) =
      [(2, 2, 3), (4, 1, 4), (6, 5, 6), (11, 0, 7)] := by decide +kernel

/-- B8: frequencies above 32 bits. -/
theorem test_build_wide_sums :
    (nextOf (exec .build (table [(0, 0xFFFFFFFF), (1, 0xFFFFFFFF), (2, 0xFFFFFFFF)]))).node.drop 3 =
      [⟨false, 0, 0x1FFFFFFFE, true, 0, true, 1⟩, ⟨false, 0, 0x2FFFFFFFD, true, 2, true, 3⟩] := by decide +kernel

/-- G4. -/
theorem test_gencodes_abracadabra :
    (codes abra).code.map (fun c => (c.1, c.2.bits)) =
      [(0x61, [false]), (0x62, [true, true, false]), (0x63, [true, false, false]), (0x64, [true, false, true]),
        (0x72, [true, true, true])] := by decide +kernel

/-- G3: the code window for 'x', and none for 'y'. -/
theorem test_gencodes_single :
    ({ codes x5 with codeSel := 0x78 } : State).codeLenWord = 0x80000001 ∧
    ({ codes x5 with codeSel := 0x78 } : State).codeBitsWord 0 = 0 ∧
    ({ codes x5 with codeSel := 0x79 } : State).codeLenWord = 0 := by decide +kernel

/-- K8. -/
theorem test_pack_abracadabra :
    let t := nextOf (exec .pack (loaded (codes abra) Params.default 11 0 0 (bytes abraText) []))
    t.bitCount = 23 ∧ t.byteCount = 3 ∧ t.byteBuf = [(0, 0x6E), (1, 0x8A), (2, 0xDC)] := by decide +kernel

/-- K17: 'c' has no code. -/
theorem test_pack_unknown_symbol :
    let t := nextOf (exec .pack (loaded (codes ab) Params.default 2 0 0 (bytes [0x61, 0x63]) []))
    t.errcode = .unknownSymbol ∧ t.errInfo = 1 ∧ t.errAux = 0x63 ∧ t.byteBuf = [] := by decide +kernel

/-- U18. -/
theorem test_unpack_abracadabra :
    let t := nextOf (exec .unpack (loaded (tree abra) Params.default 0 23 3 [] (bytes [0x6E, 0x8A, 0xDC])))
    t.err = false ∧ t.symCount = 11 ∧ t.symBuf = bytes abraText := by decide +kernel

/-- U4: fewer bits supplied than declared. -/
theorem test_unpack_truncated :
    let t := nextOf (exec .unpack (loaded (tree abcd) Params.default 0 16 1 [] (bytes [0x1B])))
    t.errcode = .truncatedStream ∧ t.errInfo = 8 ∧ t.errAux = 4 ∧ t.symBuf = [] ∧ t.symCount = 0 := by decide +kernel

/-- Row I6: a reserved bit makes the command illegal; the engine raises it. -/
theorem test_illegal_command :
    (nextOf (step (busy 0x80000001))).statusWord = 0x00010806 ∧ (nextOf (step (busy 0x80000001))).errInfo = 0x80000001 ∧
    (nextOf (step (busy 0x80000001))).irqPend = 0x2 := by decide

/-- withFetchWord: the very next step runs the row's operation. -/
theorem test_withFetchWord :
    (nextOf (step (State.reset.withFetchWord 56 0x0000000000000))).resp = some ⟨false, 0x48554646⟩ ∧
    (nextOf (step (State.reset.withFetchWord 32 0x2))).errcode = .noTree ∧
    (nextOf (step (State.reset.withFetchWord 32 0xFFFFFFFF))).resp = some ⟨false, 0⟩ := by decide

/-- P2 rows 25..28: the requests of `loadsyms "abracadabra"`. -/
theorem test_loadsyms :
    (HostPseudo.expand (.loadsyms abraText)).flatMap (HostLine.requests 1) =
      [0x5000061627261, 0x5000463616461, 0x5000862726100, 0x400280000000B] := by decide

/-- R902 on row G2: "2\n", "a:0\n", "b:1\n". -/
theorem test_header :
    headerArtifact (codes ab) = [0x32, 0x0A, 0x61, 0x3A, 0x30, 0x0A, 0x62, 0x3A, 0x31, 0x0A] := by decide +kernel

/-! ## Witnesses: invariants of the test states -/

theorem table_step (f : List (Nat × Word)) : exec .build (table f) = .next (tree f) := next_nextOf rfl

theorem tree_inv {f : List (Nat × Word)} (h : (tree f).err = false) : TreeInv (tree f) := by
  obtain ⟨N, hN, e⟩ := execBuild_ok (table_step f) h
  rw [e]
  exact hN.treeInv rfl rfl rfl rfl

theorem tree_valid {f : List (Nat × Word)} (h : (tree f).err = false) : (tree f).treeValid = true := by
  obtain ⟨N, hN, e⟩ := execBuild_ok (table_step f) h
  rw [e]; rfl

theorem codes_step {f : List (Nat × Word)} (h : (tree f).err = false) :
    exec .gencodes (tree f) = .next (codes f) ∧ TreeInv (codes f) ∧ CodesInv (codes f) ∧ (codes f).codesValid = true ∧
    (codes f).treeValid = true ∧ (codes f).eng = .idle ∧ (codes f).errInfo = (tree f).errInfo := by
  obtain ⟨ls, -, h2, -, h4⟩ := execGencodes_tree (tree_valid h) (tree_inv h)
  have e : exec .gencodes (tree f) = .next (codes f) := next_nextOf (by rw [show exec .gencodes (tree f) = _ from h4]; rfl)
  have e' : codes f = State.succeed { tree f with code := codeTable ls, codesValid := true } :=
    (Host.Outcome.next.inj (h4.symm.trans e)).symm
  have hT : TreeInv (codes f) := by rw [e']; exact (tree_inv h).congr rfl rfl rfl rfl
  refine ⟨e, hT, codesInv_of_table hT (ls := ls) ?_ (by rw [e']; rfl), by rw [e']; rfl, ?_, by rw [e']; rfl, by rw [e']; rfl⟩
  · rw [e']; exact h2
  · rw [e']; exact tree_valid h

theorem loaded_tree {s : State} (h : TreeInv s) (p : Params) (sc bc yc : Word) (sb yb : List Host.Cell) :
    TreeInv (loaded s p sc bc yc sb yb) := h.congr rfl rfl rfl rfl

theorem loaded_codes {f : List (Nat × Word)} (h : (tree f).err = false) {p : Params} {sc bc yc : Word}
    {sb yb : List Host.Cell} (hp : p.legal = true) (hw : Memory.wf (loaded (codes f) p sc bc yc sb yb) = true)
    (hs : StatusInv (codes f)) : MachineInv (loaded (codes f) p sc bc yc sb yb) := by
  obtain ⟨-, h2, h3, -⟩ := codes_step h
  exact ⟨hp, hw, hs.congr rfl rfl rfl rfl rfl rfl rfl rfl rfl rfl rfl rfl, fun _ => loaded_tree h2 ..,
    fun _ => h3.congr rfl rfl rfl rfl⟩

theorem ab_ok : (tree ab).err = false := by decide +kernel
theorem x5_ok : (tree x5).err = false := by decide +kernel
theorem abc_ok : (tree abc).err = false := by decide +kernel

theorem ab_status : StatusInv (codes ab) := by
  have h : (codes ab).eng = .idle := by decide +kernel
  refine ⟨fun w hw => ?_, by decide +kernel, by decide +kernel, fun _ => by decide +kernel, fun _ => by decide +kernel,
    fun h => ?_⟩
  · rw [h] at hw; cases hw
  · exact absurd h (by decide +kernel)

theorem reset_inv : MachineInv State.reset := by
  refine ⟨by decide, Memory.wf_resetWith _, ?_, fun h => ?_, fun h => ?_⟩
  · constructor <;> simp [State.reset, State.resetWith]
  · cases h
  · cases h

theorem busy_inv (w : Word) : MachineInv (busy w) :=
  reset_inv.congr rfl (Memory.wf_resetWith _) (by constructor <;> simp [busy, State.reset, State.resetWith]) rfl rfl rfl rfl
    rfl rfl rfl


/-! ## Witnesses: states that meet the hypotheses of the statements, clause by clause -/

theorem witness_DecodeEncodeGivesTheOperationBack :
    (Instr.hostWrite 0x3FFFF 0xFFFFFFFF).wf = true ∧ (Instr.hostWrite 0x0000C 0xFFFFFFFE).wf = true ∧
    (Instr.irqAck 0x7).wf = true ∧ Instr.softReset.wf = true := by decide

theorem witness_StepRunsTheDecodedOperation :
    (∃ s : State, s.inbox = .txn 0x0001400000000 :: [] ∧ decode (.txn 0x0001400000000) = .ok (.hostRead 0x14)) ∧
    (∃ s : State, s.eng = .pending 0x4 ∧ s.inbox = .engine :: [] ∧ decode (.cmd 0x4) = .ok .unpack) ∧
    (∃ s : State, s.eng = .pending 0x1 ∧ s.inbox = [] ∧ decode (.cmd 0x1) = .ok .build) ∧
    (∃ s : State, s.eng = .idle ∧ s.inbox = []) ∧ ∃ s : State, s.eng = .idle ∧ s.inbox = .engine :: [] :=
  ⟨⟨{ State.reset with inbox := [.txn 0x0001400000000] }, by decide⟩, ⟨{ busy 4 with inbox := [.engine] }, by decide⟩,
    ⟨busy 1, by decide⟩, ⟨State.reset, by decide⟩, ⟨{ State.reset with inbox := [.engine] }, by decide⟩⟩

/-- Both sides of the legal words, idle and pending. -/
theorem witness_IllegalCommandIsAcceptedThenRaised :
    (0x0 : Word) ≠ 0x1 ∧ (0x5 : Word) ≠ 0x4 ∧ State.reset.eng = .idle ∧ (busy 0x0).eng = .pending 0x0 ∧
    (busy 0x5).eng = .pending 0x5 ∧ (busy 0x5).inbox = [] ∧
    ({ busy 0x5 with inbox := [.engine] } : State).inbox = .engine :: [] := by decide

theorem witness_PendingCommandCompletes : MachineInv (busy 0x3) ∧ (busy 0x3).eng = .pending 0x3 ∧ (busy 0x3).inbox = [] :=
  ⟨busy_inv _, rfl, rfl⟩

theorem witness_MisalignedAccessIsABusErrorWithoutEffect : ¬ aligned 0x00002 ∧ ¬ aligned 0x3FFFF := by decide

theorem witness_RegistersReadTheirValue : State.reset.eng = .idle := rfl

/-- The ends of every gated range (R1108). -/
theorem witness_GatedReadsReturnZeroWhileBusy :
    (busy 1).params.legal = true ∧ (busy 1).eng = .pending 1 ∧
    ∀ a ∈ ([0x00020, 0x0003C, 0x00044, 0x00050, 0x00064, 0x00080, 0x0009C, 0x00400, 0x007FC, 0x10000, 0x10FFC, 0x20000,
      0x20FFC] : List Addr), aligned a ∧ gatedOffset (busy 1).params a := by
  refine ⟨by decide, rfl, ?_⟩
  simp [aligned, gatedOffset, busy, State.reset, State.resetWith, Params.default]

/-- The last node, the index past it, and no tree. -/
theorem witness_NodeWindowShowsTheSelectedNode :
    (∃ s : State, s.eng = .idle ∧ s.treeValid = true ∧ s.nodeSel.toNat < s.nodeCount.toNat) ∧
    (∃ s : State, s.eng = .idle ∧ s.treeValid = true ∧ ¬ s.nodeSel.toNat < s.nodeCount.toNat) ∧
    ∃ s : State, s.eng = .idle ∧ s.treeValid = false :=
  ⟨⟨{ tree ab with nodeSel := 2 }, by decide +kernel⟩, ⟨{ tree ab with nodeSel := 3 }, by decide +kernel⟩,
    ⟨State.reset, by decide⟩⟩

/-- A symbol with a code and one without, first and last window word. -/
theorem witness_CodeWindowShowsTheSelectedCode :
    0 < 8 ∧ 7 < 8 ∧
    (∃ s : State, s.eng = .idle ∧ s.codesValid = true ∧ (s.codeAt s.codeSel).valid = true) ∧
    ∃ s : State, s.eng = .idle ∧ ¬ (s.codesValid = true ∧ (s.codeAt s.codeSel).valid = true) :=
  ⟨by decide, by decide, ⟨{ codes ab with codeSel := 0x62 }, by decide +kernel⟩,
    ⟨{ codes ab with codeSel := 0x63 }, by decide +kernel⟩⟩

/-- The ends of every unmapped range (R205, R208), idle and busy. -/
theorem witness_UnmappedOffsetsReadZeroAndIgnoreWrites :
    (busy 1).params.legal = true ∧ (busy 1).eng = .pending 1 ∧ State.reset.eng = .idle ∧
    ∀ a ∈ ([0x00054, 0x0005C, 0x00068, 0x0007C, 0x000A0, 0x003FC, 0x00800, 0x0FFFC, 0x11000, 0x1FFFC, 0x21000, 0x2FFFC,
      0x30000, 0x3FFFC] : List Addr), aligned a ∧ unmappedOffset (busy 1).params a := by
  refine ⟨by decide, rfl, rfl, ?_⟩
  simp [aligned, unmappedOffset, busy, State.reset, State.resetWith, Params.default]

theorem witness_WritesWhileBusyAreDroppedAndFlagged :
    (busy 1).eng = .pending 1 ∧
    ∀ a ∈ ([0x00008, 0x00010, 0x00014, 0x00020, 0x3FFFC] : List Addr),
      aligned a ∧ a ≠ 0x0000C ∧ a ≠ 0x00018 ∧ a ≠ 0x0001C := ⟨rfl, by simp [aligned]⟩

theorem witness_CommandIssueLatchesTheWord : State.reset.eng = .idle := rfl

theorem witness_RegisterWritesStoreTheirBits : State.reset.eng = .idle ∧ (0xFFFFFFFE : Word).getLsbD 0 = false := by decide

theorem witness_ReadOnlyRegistersIgnoreWrites : State.reset.eng = .idle ∧ (0x00064 : Addr) ∈ readOnlyAddrs :=
  ⟨rfl, by simp [readOnlyAddrs]⟩

theorem witness_FreqWritesReadBack : State.reset.eng = .idle := rfl

/-- The first and the last word, for the default and the smallest sizes. -/
theorem witness_WindowWritesStoreBigEndian :
    State.reset.params.legal = true ∧ State.reset.eng = .idle ∧ 0 < State.reset.params.symDepth / 4 ∧
    1023 < State.reset.params.symDepth / 4 ∧ 1023 < State.reset.params.byteDepth / 4 ∧ small.legal = true ∧
    0 < small.symDepth / 4 ∧ 0 < small.byteDepth / 4 := by decide

theorem witness_WindowReadsAreBigEndian :
    small.legal = true ∧ 0 < small.symDepth / 4 ∧ 0 < small.byteDepth / 4 ∧ State.reset.params.legal = true ∧
    State.reset.eng = .idle ∧ 1023 < State.reset.params.symDepth / 4 ∧ 1023 < State.reset.params.byteDepth / 4 := by decide

theorem witness_PendingCommandKeepsItsInputs :
    (busy 1).eng = .pending 1 ∧ (Instr.hostRead 0x400).wf = true ∧ (Instr.hostWrite 0x400 1).wf = true ∧
    (∃ t, exec (.hostRead 0x400) (busy 1) = .next t) ∧ (∃ t, exec (.hostWrite 0x400 1) (busy 1) = .next t) ∧
    ∃ t, exec (.irqAck 0x7) (busy 1) = .next t :=
  ⟨rfl, rfl, by decide, ⟨_, rfl⟩, ⟨_, next_nextOf (by decide)⟩, ⟨_, rfl⟩⟩

theorem witness_SoftResetLeavesItsResetValues :
    (0xFFFFFFFF : Word).getLsbD 0 = true ∧ (busy 3).eng = .pending 0x3 ∧ (busy 4).eng = .pending 0x4 ∧
    (busy 1).eng ≠ .pending 0x3 ∧ (busy 1).eng ≠ .pending 0x4 := by decide

theorem witness_PowerOnResetLeavesItsResetValues : ({ busy 3 with inbox := [.rstN, .engine] } : State).inbox = [.rstN, .engine] :=
  rfl

/-- Each of the four commands completes, and each with an error, from reset with one symbol declared. -/
theorem witness_CommandsRecordTheirCompletion :
    (isCommand .build ∧ isCommand .gencodes ∧ isCommand .pack ∧ isCommand .unpack) ∧
    ∀ i ∈ [Instr.build, .gencodes, .pack, .unpack], ∃ t, exec i { State.reset with symCount := 1 } = .next t ∧
      t.err = true := by
  refine ⟨by simp [isCommand], ?_⟩
  have h : ∀ i ∈ [Instr.build, .gencodes, .pack, .unpack], goesOn (exec i { State.reset with symCount := 1 }) = true ∧
      (nextOf (exec i { State.reset with symCount := 1 })).err = true := by decide +kernel
  exact fun i hi => ⟨_, next_nextOf (h i hi).1, (h i hi).2⟩

theorem witness_FailedCommandsChangeOnlyTheCompletionFields :
    isCommand .pack ∧ ∃ t, exec .pack { State.reset with symCount := 1 } = .next t ∧ t.err = true :=
  ⟨by simp [isCommand], witness_CommandsRecordTheirCompletion.2 _ (by simp)⟩

theorem witness_BuildOfNothingRaisesEmptyInput : ∀ k < 256, State.reset.freqAt k = 0 := fun _ _ => rfl

theorem witness_BuildCompletesWithAPresentSymbol :
    (∃ k < 256, (table [(0, 1)]).freqAt k ≠ 0) ∧ ∃ k < 256, (table [(255, 1)]).freqAt k ≠ 0 :=
  ⟨⟨0, by decide⟩, ⟨255, by decide⟩⟩

theorem witness_BuildLeavesAscendBySymbol :
    exec .build (table [(0, 1), (255, 1)]) = .next (tree [(0, 1), (255, 1)]) ∧
    (table [(0, 1), (255, 1)]).freqAt 0 ≠ 0 ∧ 255 < 256 ∧ (table [(0, 1), (255, 1)]).freqAt 255 ≠ 0 :=
  ⟨table_step _, by decide, by decide, by decide⟩

theorem witness_BuildOfOneSymbolMakesTwoNodes :
    0x78 < 256 ∧ (table x5).freqAt 0x78 ≠ 0 ∧ ∀ k < 256, k ≠ 0x78 → (table x5).freqAt k = 0 :=
  ⟨by decide, by decide, fun k _ h => by simp [table, x5, State.freqAt, Cells.get, h]⟩

/-- The first and the last internal node of row B4. -/
theorem witness_BuildMergesTheTwoSmallest :
    exec .build (table abra) = .next (tree abra) ∧ (tree abra).err = false ∧ 2 ≤ (tree abra).leafCount.toNat ∧
    (tree abra).leafCount.toNat ≤ 5 ∧ 5 < (tree abra).nodeCount.toNat ∧ 8 < (tree abra).nodeCount.toNat :=
  ⟨table_step _, by decide +kernel⟩

theorem witness_BuildEstablishesTheTreeInvariant :
    exec .build (table ab) = .next (tree ab) ∧ (tree ab).err = false := ⟨table_step _, ab_ok⟩

theorem witness_RootFrequencyIsTheSumOfTheTable :
    exec .build (table abra) = .next (tree abra) ∧ (tree abra).err = false := ⟨table_step _, by decide +kernel⟩

/-- Two states that differ outside the table. -/
theorem witness_BuildDependsOnlyOnTheTable : ∃ s₁ s₂ t₁ t₂ : State, s₁ ≠ s₂ ∧
    (∀ k < 256, s₁.freqAt k = s₂.freqAt k) ∧ exec .build s₁ = .next t₁ ∧ exec .build s₂ = .next t₂ ∧ t₁.err = false :=
  ⟨table ab, { table ab with symCount := 1 }, tree ab, _, by decide, fun _ _ => rfl, table_step _, next_nextOf rfl,
    ab_ok⟩

theorem witness_GencodesWithoutATreeRaisesNoTree : State.reset.treeValid = false := rfl

theorem witness_GencodesCompletesWithTheCodeTable : (tree ab).treeValid = true ∧ TreeInv (tree ab) :=
  ⟨tree_valid ab_ok, tree_inv ab_ok⟩

theorem witness_CodeLengthsAreOneTo255 :
    (tree ab).treeValid = true ∧ TreeInv (tree ab) ∧ exec .gencodes (tree ab) = .next (codes ab) ∧
    ((codes ab).codeAt 0x61).valid = true :=
  ⟨tree_valid ab_ok, tree_inv ab_ok, (codes_step ab_ok).1, by decide +kernel⟩

/-- A tree with two leaves and a tree with one. -/
theorem witness_CodesFillTheCodeSpace :
    (TreeInv (tree ab) ∧ exec .gencodes (tree ab) = .next (codes ab) ∧ (tree ab).leafCount.toNat = 2) ∧
    (tree x5).treeValid = true ∧ TreeInv (tree x5) ∧ exec .gencodes (tree x5) = .next (codes x5) ∧
    (tree x5).leafCount.toNat = 1 :=
  ⟨⟨tree_inv ab_ok, (codes_step ab_ok).1, by decide +kernel⟩, tree_valid x5_ok, tree_inv x5_ok, (codes_step x5_ok).1,
    by decide +kernel⟩

theorem witness_PackChecksItsInputLength :
    (loaded State.reset Params.default 4097 0 0 [] []).params.symDepth <
      (loaded State.reset Params.default 4097 0 0 [] []).symCount.toNat := by decide

/-- No current table at symbol 0, and a symbol without a code at symbol 1 (K17). -/
theorem witness_PackReportsTheFirstUnknownSymbol :
    (∃ s : State, s.symCount.toNat ≤ s.params.symDepth ∧ 0 < s.symCount.toNat ∧ ¬ s.hasCode 0 ∧
      s.codeLength 0 ≤ 8 * s.params.byteDepth) ∧
    ∃ s : State, s.symCount.toNat ≤ s.params.symDepth ∧ 1 < s.symCount.toNat ∧ ¬ s.hasCode 1 ∧ (∀ i < 1, s.hasCode i) ∧
      s.codeLength 1 ≤ 8 * s.params.byteDepth := by
  refine ⟨⟨{ State.reset with symCount := 1 }, by decide, by decide, fun h => ?_, by decide⟩,
    loaded (codes ab) small 2 0 0 (bytes [0x61, 0x63]) [], by decide +kernel, by decide +kernel, fun h => ?_, fun i hi => ?_,
    by decide +kernel⟩
  · exact absurd h.1 (by decide)
  · exact absurd h.2 (by decide +kernel)
  · obtain rfl : i = 0 := by omega
    exact ⟨by decide +kernel, by decide +kernel⟩

/-- K19: 33 symbols of one bit in a buffer of 4 bytes. -/
theorem witness_PackReportsTheFirstOverflow : ∃ s : State, s.symCount.toNat ≤ s.params.symDepth ∧ 32 < s.symCount.toNat ∧
    (∀ i ≤ 32, s.hasCode i) ∧ s.codeLength 32 ≤ 8 * s.params.byteDepth ∧ 8 * s.params.byteDepth < s.codeLength (32 + 1) := by
  refine ⟨loaded (codes ab) { symDepth := 36, byteDepth := 4 } 33 0 0 (bytes (List.replicate 33 0x61)) [],
    by decide +kernel, by decide +kernel, fun i hi => ⟨by decide +kernel, ?_⟩, by decide +kernel, by decide +kernel⟩
  have h : ∀ i < 33, ((loaded (codes ab) { symDepth := 36, byteDepth := 4 } 33 0 0 (bytes (List.replicate 33 0x61)) []).codeAt
    ((loaded (codes ab) { symDepth := 36, byteDepth := 4 } 33 0 0 (bytes (List.replicate 33 0x61)) []).symAt i)).valid = true := by
    decide +kernel
  exact h i (by omega)

/-- "aabb" with the codes of row G2, in the smallest buffers (K4). -/
def aabb : State := loaded (codes ab) small 4 0 0 (bytes [0x61, 0x61, 0x62, 0x62]) []

theorem aabb_inv : MachineInv aabb := loaded_codes ab_ok (by decide) (by decide +kernel) ab_status

theorem aabb_codes : ∀ j < 4, aabb.hasCode j := by
  have h : ∀ j < 4, (aabb.codeAt (aabb.symAt j)).valid = true := by decide +kernel
  exact fun j hj => ⟨by decide +kernel, h j hj⟩

theorem witness_PackCompletesWithThePackedStream : MachineInv aabb ∧ aabb.symCount.toNat ≤ aabb.params.symDepth ∧
    (∀ j < aabb.symCount.toNat, aabb.hasCode j) ∧ aabb.codeLength aabb.symCount.toNat ≤ 8 * aabb.params.byteDepth :=
  ⟨aabb_inv, by decide, aabb_codes, by decide +kernel⟩

theorem witness_UnpackChecksItsPreconditions : State.reset.treeValid = false ∧ ∃ s : State, s.treeValid = true ∧
    s.params.byteDepth < s.byteCount.toNat :=
  ⟨rfl, loaded (tree ab) small 0 8 5 [] [], tree_valid ab_ok, by decide⟩

/-! ## Witnesses: streams -/

/-- A one-bit code. -/
theorem decodes_one {s : State} {b : Bool} {k : NodeIdx} {c : Symbol} (h1 : childOf s.node s.root b = some k)
    (h2 : (nodeAt s.node k.toNat).leaf = true) (h3 : (nodeAt s.node k.toNat).sym = c) : decodesTo s [b] c := by
  refine ⟨by simp, ⟨k, by simp [walkPath, h1], h2, h3⟩, fun q k hq hp => ?_⟩
  simp at hp; exact absurd hp hq

theorem stream_nil (s : State) : streamOf s [] [] := ⟨[], rfl, .nil⟩

theorem stream_cons {s : State} {p T : BitString} {c : Symbol} {cs : List Symbol} (h : decodesTo s p c)
    (h' : streamOf s cs T) : streamOf s (c :: cs) (p ++ T) := by
  obtain ⟨ps, rfl, hp⟩ := h'
  exact ⟨p :: ps, rfl, .cons h hp⟩

/-- 'a' and 'b' of the tree of row B2. -/
theorem ab_decodes (p : Params) (sc bc yc : Word) (sb yb : List Host.Cell) :
    decodesTo (loaded (tree ab) p sc bc yc sb yb) [false] 0x61 ∧ decodesTo (loaded (tree ab) p sc bc yc sb yb) [true] 0x62 := by
  have e : (tree ab).node = [leafOf 0x61 2, leafOf 0x62 2, ⟨false, 0, 4, true, 0, true, 1⟩] ∧ (tree ab).root = 2 := by
    decide +kernel
  constructor
  · exact decodes_one (k := 0) (by simp only [loaded]; rw [e.1, e.2]; rfl) (by simp only [loaded]; rw [e.1]; rfl)
      (by simp only [loaded]; rw [e.1]; rfl)
  · exact decodes_one (k := 1) (by simp only [loaded]; rw [e.1, e.2]; rfl) (by simp only [loaded]; rw [e.1]; rfl)
      (by simp only [loaded]; rw [e.1]; rfl)

/-- U11 and the example of R801: no bit, and 0x30 read as "aabb". -/
theorem witness_UnpackCompletesWithTheDecodedSymbols : ∃ (s : State) (cs : List Symbol), cs = [0x61, 0x61, 0x62, 0x62] ∧
    s.treeValid = true ∧ s.byteCount.toNat ≤ s.params.byteDepth ∧ s.bitCount.toNat ≤ 8 * s.byteCount.toNat ∧
    streamOf s cs (s.streamBits s.bitCount.toNat) ∧ cs.length ≤ s.params.symDepth := by
  refine ⟨loaded (tree ab) small 0 4 1 [] (bytes [0x30]), _, rfl, tree_valid ab_ok, by decide, by decide, ?_, by decide⟩
  have e : (loaded (tree ab) small 0 4 1 [] (bytes [0x30])).streamBits
      (loaded (tree ab) small 0 4 1 [] (bytes [0x30])).bitCount.toNat = [false, false, true, true] := by decide +kernel
  rw [e]
  have h := ab_decodes small 0 4 1 [] (bytes [0x30])
  exact stream_cons h.1 (stream_cons h.1 (stream_cons h.2 (stream_cons h.2 (stream_nil _))))

/-- No bit has been walked. -/
theorem meets_nil (s : State) : meetsNoLeaf s [] := fun q k hq hp => absurd (by simpa using hp) hq

/-- 'x' of the tree of row B3. -/
theorem x_decodes (p : Params) (sc bc yc : Word) (sb yb : List Host.Cell) :
    decodesTo (loaded (tree x5) p sc bc yc sb yb) [false] 0x78 := by
  have e : (tree x5).node = [leafOf 0x78 5, rootOverLeaf 5] ∧ (tree x5).root = 1 := by decide +kernel
  exact decodes_one (k := 0) (by simp only [loaded]; rw [e.1, e.2]; rfl) (by simp only [loaded]; rw [e.1]; rfl)
      (by simp only [loaded]; rw [e.1]; rfl)

/-- U9: the third bit of 0x20. -/
theorem witness_UnpackReportsAnInvalidPath : ∃ (s : State) (cs : List Symbol) (T r rest : BitString) (b : Bool) (k : NodeIdx),
    s.treeValid = true ∧ s.byteCount.toNat ≤ s.params.byteDepth ∧ cs.length ≤ s.params.symDepth ∧ streamOf s cs T ∧
    walkPath s.node s.root r = some k ∧ meetsNoLeaf s r ∧
    (if b then (nodeAt s.node k.toNat).hasR else (nodeAt s.node k.toNat).hasL) = false ∧
    s.streamBits (min s.bitCount.toNat (8 * s.byteCount.toNat)) = T ++ r ++ b :: rest := by
  refine ⟨loaded (tree x5) small 0 3 1 [] (bytes [0x20]), [0x78, 0x78], [false, false], [], [], true, 1, tree_valid x5_ok,
    by decide, by decide, ?_, by decide +kernel, meets_nil _, by decide +kernel, by decide +kernel⟩
  have h := x_decodes small 0 3 1 [] (bytes [0x20])
  exact stream_cons h (stream_cons h (stream_nil _))

/-- U14: the fifth 'a' completes at bit 4. -/
theorem witness_UnpackReportsAnOverflow : ∃ (s : State) (cs : List Symbol) (T p rest : BitString) (c : Symbol),
    s.treeValid = true ∧ s.byteCount.toNat ≤ s.params.byteDepth ∧ cs.length = s.params.symDepth ∧ streamOf s cs T ∧
    decodesTo s p c ∧ s.streamBits (min s.bitCount.toNat (8 * s.byteCount.toNat)) = T ++ p ++ rest := by
  have h := (ab_decodes small 0 8 1 [] (bytes [0x00])).1
  exact ⟨loaded (tree ab) small 0 8 1 [] (bytes [0x00]), [0x61, 0x61, 0x61, 0x61], [false, false, false, false], [false],
    [false, false, false], 0x61, tree_valid ab_ok, by decide, by decide,
    stream_cons h (stream_cons h (stream_cons h (stream_cons h (stream_nil _)))), h, by decide +kernel⟩

/-- A walk that ends at node 3 of row B6, and a stream cut at a code boundary (U13). -/
theorem witness_UnpackReportsATruncatedStream : ∃ (s : State) (cs : List Symbol) (T r : BitString) (k : NodeIdx),
    s.treeValid = true ∧ s.byteCount.toNat ≤ s.params.byteDepth ∧ cs.length ≤ s.params.symDepth ∧ streamOf s cs T ∧
    walkPath s.node s.root r = some k ∧ meetsNoLeaf s r ∧
    s.streamBits (min s.bitCount.toNat (8 * s.byteCount.toNat)) = T ++ r ∧ k ≠ s.root := by
  have e : childOf (tree abc).node (tree abc).root true = some 3 := by decide +kernel
  refine ⟨loaded (tree abc) small 0 2 1 [] (bytes [0x40]), [0x43], [false], [true], 3, tree_valid abc_ok, by decide, by decide,
    stream_cons (decodes_one (k := 2) (by decide +kernel) (by decide +kernel) (by decide +kernel)) (stream_nil _),
    by decide +kernel, fun q k hq hp hw => ?_, by decide +kernel, by decide +kernel⟩
  obtain rfl : q = [true] := by
    rcases List.prefix_cons_iff.1 hp with h | ⟨t, rfl, h⟩
    · exact absurd h hq
    · simpa using h
  simp only [walkPath, loaded, e, Option.some.injEq] at hw
  subst hw
  decide +kernel

theorem witness_UnpackReportsATruncatedStream_boundary : ∃ (s : State) (T : BitString), s.treeValid = true ∧
    s.byteCount.toNat ≤ s.params.byteDepth ∧ streamOf s [] T ∧ walkPath s.node s.root [] = some s.root ∧
    meetsNoLeaf s [] ∧ s.streamBits (min s.bitCount.toNat (8 * s.byteCount.toNat)) = T ++ [] ∧
    8 * s.byteCount.toNat < s.bitCount.toNat :=
  ⟨loaded (tree ab) small 0 5 0 [] [], [], tree_valid ab_ok, by decide, stream_nil _, rfl, meets_nil _, by decide +kernel, by decide⟩

/-- U10 and U9: three zero bits, and a 1 after two. -/
theorem witness_UnpackOfTheSingleSymbolTree :
    (∃ s : State, s.treeValid = true ∧ TreeInv s ∧ s.leafCount = 1 ∧ s.byteCount.toNat ≤ s.params.byteDepth ∧
      s.bitCount.toNat ≤ 8 * s.byteCount.toNat ∧ s.bitCount.toNat ≤ s.params.symDepth ∧
      ∀ i < s.bitCount.toNat, s.streamBit i = false) ∧
    ∃ s : State, s.treeValid = true ∧ TreeInv s ∧ s.leafCount = 1 ∧ s.byteCount.toNat ≤ s.params.byteDepth ∧
      s.bitCount.toNat ≤ 8 * s.byteCount.toNat ∧ 2 < s.bitCount.toNat ∧ 2 ≤ s.params.symDepth ∧
      (∀ j < 2, s.streamBit j = false) ∧ s.streamBit 2 = true :=
  ⟨⟨loaded (tree x5) small 0 3 1 [] (bytes [0x00]), tree_valid x5_ok, loaded_tree (tree_inv x5_ok) .., by decide +kernel⟩,
    loaded (tree x5) small 0 3 1 [] (bytes [0x20]), tree_valid x5_ok, loaded_tree (tree_inv x5_ok) .., by decide +kernel⟩

theorem witness_InvalidPathNeedsASingleSymbolTree :
    TreeInv (loaded (tree ab) small 0 1 1 [] (bytes [0xFF])) ∧ 2 ≤ (loaded (tree ab) small 0 1 1 [] (bytes [0xFF])).leafCount.toNat ∧
    ∃ t, exec .unpack (loaded (tree ab) small 0 1 1 [] (bytes [0xFF])) = .next t :=
  ⟨loaded_tree (tree_inv ab_ok) .., by decide +kernel, _, next_nextOf rfl⟩

/-- U2: two paddings and another code table. -/
theorem witness_UnpackReadsOnlyTheSuppliedBitsAndTheTree : ∃ s₁ s₂ t₁ t₂ : State, s₁.byteBuf ≠ s₂.byteBuf ∧
    s₁.code ≠ s₂.code ∧ s₁.params = s₂.params ∧ s₁.treeValid = s₂.treeValid ∧ s₁.bitCount = s₂.bitCount ∧
    s₁.byteCount = s₂.byteCount ∧ s₁.node = s₂.node ∧ s₁.root = s₂.root ∧
    (∀ i < min s₁.bitCount.toNat (8 * s₁.byteCount.toNat), s₁.streamBit i = s₂.streamBit i) ∧
    exec .unpack s₁ = .next t₁ ∧ exec .unpack s₂ = .next t₂ :=
  ⟨loaded (tree ab) small 0 4 1 [] (bytes [0x30]), { loaded (tree ab) small 0 4 1 [] (bytes [0x3F]) with code := [(0, codeEntry [])] },
    _, _, by decide, by decide +kernel, rfl, rfl, rfl, rfl, rfl, rfl, by decide +kernel, next_nextOf rfl, next_nextOf rfl⟩

theorem witness_UnpackAfterPackGivesTheSymbolsBack :
    MachineInv aabb ∧ aabb.codesValid = true ∧ ∃ t, exec .pack aabb = .next t ∧ t.err = false :=
  ⟨aabb_inv, by decide +kernel, _, next_nextOf rfl, by decide +kernel⟩

/-! ## Witnesses: the machine as a whole -/

theorem witness_ResetStateMeetsTheMachineInvariant :
    Params.default.legal = true ∧ ({ symDepth := 4, byteDepth := 65536 } : Params).legal = true := by decide

theorem witness_EveryStepKeepsTheMachineInvariant : MachineInv (busy 1) ∧ ∃ t, step (busy 1) = .next t :=
  ⟨busy_inv _, _, next_nextOf (by decide +kernel)⟩

theorem witness_TheMachineNeverStops : MachineInv (busy 2) := busy_inv _

/-- `s` takes a step to a next state of which `p` holds. -/
def stepsTo (s : State) (p : State → Bool) : Bool := goesOn (step s) && p (nextOf (step s))

theorem stepsTo_iff {s : State} {p : State → Bool} (h : stepsTo s p = true) : ∃ t, step s = .next t ∧ p t = true := by
  simp only [stepsTo, Bool.and_eq_true] at h
  exact ⟨_, next_nextOf h.1, h.2⟩

/-- Each flag set and each flag cleared, by each event that may. -/
theorem witness_OnlyTheirEventsChangeTheValidFlags :
    (∃ t, step { table ab with eng := .pending 0x1 } = .next t ∧ t.treeValid = true) ∧
    (∃ t, step { tree ab with inbox := [.txn 0x4000C00000001] } = .next t ∧ (!t.treeValid) = true) ∧
    (∃ t, step { tree ab with inbox := [.rstN] } = .next t ∧ (!t.treeValid) = true) ∧
    (∃ t, step { tree ab with eng := .pending 0x2 } = .next t ∧ t.codesValid = true) ∧
    ∃ t, step { codes ab with eng := .pending 0x1 } = .next t ∧ (!t.codesValid) = true := by
  and_intros <;> exact stepsTo_iff (by decide +kernel)

theorem witness_OnlyTheirEventsChangeLastOpAndClearFlags :
    (∃ t, step { State.reset with inbox := [.txn 0x4001000000002] } = .next t ∧ (t.lastop != State.reset.lastop) = true) ∧
    ∃ t, step { State.reset with irqPend := 0x4, inbox := [.txn 0x4001C00000004] } = .next t ∧
      (!t.irqPend.getLsbD 2) = true :=
  ⟨stepsTo_iff (by decide +kernel), stepsTo_iff (by decide +kernel)⟩

theorem witness_OnlyTheirOwnersChangeTheMemories :
    (∃ t, step { table ab with eng := .pending 0x1 } = .next t ∧ (t.node != (table ab).node) = true) ∧
    (∃ t, step { tree ab with eng := .pending 0x2 } = .next t ∧ (t.code != (tree ab).code) = true) ∧
    (∃ t, step { State.reset with inbox := [.txn 0x407FC00000001] } = .next t ∧ (t.freq != State.reset.freq) = true) ∧
    (∃ t, step { State.reset with inbox := [.txn 0x5000000000000] } = .next t ∧ (t.symBuf != State.reset.symBuf) = true) ∧
    (∃ t, step { aabb with eng := .pending 0x3 } = .next t ∧ (t.byteBuf != aabb.byteBuf) = true) ∧
    (∃ t, step { busy 4 with inbox := [.txn 0x4000C00000001] } = .next t ∧ (t.symDraw != (busy 4).symDraw) = true) ∧
    (∃ t, step { busy 3 with inbox := [.txn 0x4000C00000001] } = .next t ∧ (t.byteDraw != (busy 3).byteDraw) = true) ∧
    (∃ t, step { State.reset with inbox := [.rstN] } = .next t ∧ (t.symDraw != 0 && t.byteDraw != 0) = true) ∧
    (∃ t, step { aabb with inbox := [.txn 0x5000078616262] } = .next t ∧ (t.symAt 0 != aabb.symAt 0) = true) ∧
    ∃ t, step { loaded aabb small 4 0 0 aabb.symBuf (bytes [0xFF]) with eng := .pending 0x3 } = .next t ∧
      (t.byteAt 0 != 0xFF) = true := by
  and_intros <;> exact stepsTo_iff (by decide +kernel)

end Sys2Proof.Tests
end

section
/-! SUPPORT. What the next step is, forwards: one equation for each head of `inbox` and each state of the engine, and
what `step` answers on an operation and with nothing to do (R20, R1104). -/

namespace Sys2Proof.Machine

open Sys2Proof

/-! ## The engine's turn and the fetch -/

theorem engineTurn_of_idle {s : State} (he : s.eng = .idle) : engineTurn s = .quiet s := by
  simp only [engineTurn, he]

theorem engineTurn_of_pending {s : State} {w : Word} {i : Instr} (he : s.eng = .pending w)
    (hd : decodeCmd w = .ok i) : engineTurn s = .instr i s := by
  simp only [engineTurn, he, hd]

theorem fetch_of_noEvent {s : State} (h : s.inbox = []) : fetch s = engineTurn s := by
  simp only [fetch, h]

theorem fetch_of_txn {s : State} {w : Txn} {es : List PortEvent} (h : s.inbox = .txn w :: es) :
    fetch s = .instr (decodeTxn w) { s with inbox := es } := by
  simp only [fetch, h]

theorem fetch_of_engine {s : State} {es : List PortEvent} (h : s.inbox = .engine :: es) :
    fetch s = engineTurn { s with inbox := es } := by
  simp only [fetch, h]

/-! ## The step on what was fetched -/

theorem step_of_fetch_instr {s t : State} {i : Instr} (h : fetch s = .instr i t) : step s = exec i t := by
  simp only [step, h]

theorem step_of_fetch_quiet {s t : State} (h : fetch s = .quiet t) : step s = .next t := by
  simp only [step, h]

/-! ## The statement, by the agent that has the step -/

theorem step_of_txn {s : State} {w : Txn} {es : List PortEvent} {i : Instr} (h : s.inbox = .txn w :: es)
    (hd : decode (.txn w) = .ok i) : step s = exec i { s with inbox := es } := by
  have hi : decodeTxn w = i := Except.ok.inj hd
  exact step_of_fetch_instr (hi ▸ fetch_of_txn h)

theorem step_of_pending_engine {s : State} {w : Word} {es : List PortEvent} {i : Instr} (he : s.eng = .pending w)
    (h : s.inbox = .engine :: es) (hd : decode (.cmd w) = .ok i) : step s = exec i { s with inbox := es } :=
  step_of_fetch_instr ((fetch_of_engine h).trans (engineTurn_of_pending he hd))

theorem step_of_pending_noEvent {s : State} {w : Word} {i : Instr} (he : s.eng = .pending w) (h : s.inbox = [])
    (hd : decode (.cmd w) = .ok i) : step s = exec i s :=
  step_of_fetch_instr ((fetch_of_noEvent h).trans (engineTurn_of_pending he hd))

theorem step_of_idle_noEvent {s : State} (he : s.eng = .idle) (h : s.inbox = []) : step s = .next s :=
  step_of_fetch_quiet ((fetch_of_noEvent h).trans (engineTurn_of_idle he))

theorem step_of_idle_engine {s : State} {es : List PortEvent} (he : s.eng = .idle) (h : s.inbox = .engine :: es) :
    step s = .next { s with inbox := es } :=
  step_of_fetch_quiet ((fetch_of_engine h).trans (engineTurn_of_idle he))

/-- Settles O4: each clause is the step on what `fetch` finds at the head of `inbox`. -/
theorem stepRunsTheDecodedOperation : Obligations.StepRunsTheDecodedOperation := by
  unfold Obligations.StepRunsTheDecodedOperation
  exact ⟨fun _ _ _ _ => step_of_txn, fun _ _ _ _ => step_of_pending_engine, fun _ _ _ => step_of_pending_noEvent,
    fun _ => step_of_idle_noEvent, fun _ _ => step_of_idle_engine⟩

end Sys2Proof.Machine
end

section
/-! SUPPORT. Host reads and writes of the single registers, of the node and code windows and of `FREQ`: what a register
word says in each of its fields, and what the operation at a listed offset answers (R110..R140, R150, R402). -/

namespace Sys2Proof.Machine

open Sys2Proof

-- The proofs of this text are elaborated one after another: beside the tests above, the check's memory limit has no room
-- for the threads of proofs elaborated at once.
set_option Elab.async false

/-! ## Register words, field by field

Every bit of a field is looked up on its own: the words are ORs of fields that lie side by side. -/

/-- `NODE_INFO` and `NODE_LINK` of a selected node (R134, R135). -/
theorem State.nodeWords_fields {s : State} (h : s.nodeSelected = true) :
    s.nodeInfoWord.getLsbD 31 = true ∧ s.nodeInfoWord.getLsbD 30 = s.selNode.leaf ∧
    s.nodeInfoWord.getLsbD 29 = s.selNode.hasL ∧ s.nodeInfoWord.getLsbD 28 = s.selNode.hasR ∧
    s.nodeInfoWord.extractLsb' 8 20 = 0 ∧ s.nodeInfoWord.extractLsb' 0 8 = s.selNode.sym ∧
    s.nodeLinkWord.extractLsb' 0 9 = s.selNode.left ∧ s.nodeLinkWord.extractLsb' 9 7 = 0 ∧
    s.nodeLinkWord.extractLsb' 16 9 = s.selNode.right ∧ s.nodeLinkWord.extractLsb' 25 7 = 0 := by
  simp only [State.nodeInfoWord, State.nodeLinkWord, h, if_true]
  and_intros
  iterate 4 simp [bitAt, fieldAt]
  all_goals
    ext i hi
    interval_cases i <;> simp [bitAt, fieldAt]

/-- `CODE_LEN` of a selected code (R139). -/
theorem State.codeLenWord_fields {s : State} (h : s.codeSelected = true) :
    s.codeLenWord.getLsbD 31 = true ∧ s.codeLenWord.extractLsb' 8 23 = 0 ∧
    s.codeLenWord.extractLsb' 0 8 = s.selCode.len := by
  simp only [State.codeLenWord, h, if_true]
  and_intros
  · simp [bitAt, fieldAt]
  all_goals
    ext i hi
    interval_cases i <;> simp [bitAt, fieldAt]

/-- `STATUS` (R115). -/
theorem State.statusWord_fields (s : State) :
    s.statusWord.getLsbD 0 = s.busy ∧ s.statusWord.getLsbD 1 = s.done ∧ s.statusWord.getLsbD 2 = s.err ∧
    s.statusWord.getLsbD 3 = s.treeValid ∧ s.statusWord.getLsbD 4 = s.codesValid ∧ s.statusWord.extractLsb' 5 3 = 0 ∧
    s.statusWord.extractLsb' 8 4 = s.errcode.code ∧ s.statusWord.extractLsb' 12 4 = 0 ∧
    s.statusWord.extractLsb' 16 4 = s.lastop ∧ s.statusWord.extractLsb' 20 12 = 0 := by
  unfold State.statusWord
  and_intros
  iterate 5 simp [bitAt, fieldAt]
  all_goals
    ext i hi
    interval_cases i <;> simp [bitAt, fieldAt]

/-! ## Operations at a listed offset -/

theorem regMap_aligned : ∀ e ∈ regMap, e.1 % 4 = 0 := by decide

/-- A read of a single register that is not gated now. -/
theorem exec_hostRead_reg {s : State} {a : Addr} {t : Target} (hm : (a.toNat, t) ∈ regMap)
    (hg : (s.busy && t.gated) = false) : exec (.hostRead a) s = .next (answered s false (s.regRead t)) :=
  execHostRead_value (regMap_aligned _ hm) (target_of_mem hm) hg

/-- A read of any single register while no command is pending. -/
theorem exec_hostRead_reg_idle {s : State} {a : Addr} {t : Target} (hm : (a.toNat, t) ∈ regMap) (he : s.eng = .idle) :
    exec (.hostRead a) s = .next (answered s false (s.regRead t)) :=
  exec_hostRead_reg hm (by rw [busy_of_idle he]; rfl)

theorem toNat_freqOffset (c : Symbol) : (BitVec.ofNat 18 (0x400 + 4 * c.toNat)).toNat = 0x400 + 4 * c.toNat := by
  have := c.isLt
  rw [BitVec.toNat_ofNat]
  omega

theorem toNat_codeBitsOffset {k : Nat} (hk : k < 8) : (BitVec.ofNat 18 (0x080 + 4 * k)).toNat = 0x080 + 4 * k := by
  rw [BitVec.toNat_ofNat]
  omega

theorem exec_hostRead_codeBits {s : State} {k : Nat} (he : s.eng = .idle) (hk : k < 8) :
    exec (.hostRead (BitVec.ofNat 18 (0x080 + 4 * k))) s = .next (answered s false (s.codeBitsWord k)) :=
  execHostRead_value (by rw [toNat_codeBitsOffset hk]; omega) (target_codeBits _ hk) (by rw [busy_of_idle he]; rfl)

theorem exec_hostRead_freq {s : State} (he : s.eng = .idle) (c : Symbol) :
    exec (.hostRead (BitVec.ofNat 18 (0x400 + 4 * c.toNat))) s = .next (answered s false (s.freqAt c.toNat)) :=
  execHostRead_value (by rw [toNat_freqOffset]; omega) (target_freq _ c) (by rw [busy_of_idle he]; rfl)

theorem exec_hostWrite_freq {s : State} (he : s.eng = .idle) (c : Symbol) (v : Word) :
    exec (.hostWrite (BitVec.ofNat 18 (0x400 + 4 * c.toNat)) v) s =
      .next (answered (s.setFreq c.toNat v) false 0) :=
  execHostWrite_effect (by rw [toNat_freqOffset]; omega) (target_freq _ c) (by rw [busy_of_idle he]; rfl)

/-! ## Single registers -/

/-- The registers of `ungatedReads`, by name. -/
def ungatedRegs : List (Addr × Target) :=
  [(0x000, .id), (0x004, .symDepth), (0x008, .byteDepth), (0x00C, .ctrl), (0x010, .cmd), (0x018, .irqEn),
    (0x01C, .irqPend), (0x040, .nodeSel), (0x060, .codeSel)]

/-- The registers of `gatedReads`, by name. -/
def gatedRegs : List (Addr × Target) :=
  [(0x020, .errInfo), (0x024, .errAux), (0x028, .symCount), (0x02C, .bitCount), (0x030, .byteCount),
    (0x034, .leafCount), (0x038, .nodeCount), (0x03C, .root)]

theorem ungatedReads_eq (s : State) : ungatedReads s = ungatedRegs.map fun r => (r.1, s.regRead r.2) := rfl

theorem gatedReads_eq (s : State) : gatedReads s = gatedRegs.map fun r => (r.1, s.regRead r.2) := rfl

theorem ungatedRegs_listed : ∀ r ∈ ungatedRegs, (r.1.toNat, r.2) ∈ regMap ∧ r.2.gated = false := by decide

theorem gatedRegs_listed : ∀ r ∈ gatedRegs, (r.1.toNat, r.2) ∈ regMap := by decide

/-- Settles O9: the listed values are what `regRead` gives for the registers at these offsets. -/
theorem registersReadTheirValue : Obligations.RegistersReadTheirValue := by
  unfold Obligations.RegistersReadTheirValue
  intro s
  rw [ungatedReads_eq, gatedReads_eq]
  simp only [List.forall_mem_map]
  refine ⟨fun r hr => ?_, fun he r hr => exec_hostRead_reg_idle (gatedRegs_listed r hr) he⟩
  obtain ⟨hm, hg⟩ := ungatedRegs_listed r hr
  exact exec_hostRead_reg hm (by rw [hg, Bool.and_false])

/-- Settles O10: the read data is `statusWord`, and its bit 0 is `busy`. -/
theorem statusReadsItsFields : Obligations.StatusReadsItsFields := by
  unfold Obligations.StatusReadsItsFields
  intro s
  obtain ⟨hbusy, hrest⟩ := s.statusWord_fields
  refine ⟨s.statusWord, exec_hostRead_reg (t := .status) (by decide) (by simp [Target.gated]), ?_, hrest⟩
  rw [hbusy, busy_iff]

/-- The CONST and RO registers (R103, R110). -/
def Target.readOnly : Target → Bool
  | .id | .symDepth | .byteDepth | .status | .errInfo | .errAux | .leafCount | .nodeCount | .root | .nodeInfo
  | .nodeLink | .nodeFreqLo | .nodeFreqHi | .codeLen | .codeBits _ => true
  | _ => false

theorem regWrite_readOnly {t : Target} (h : t.readOnly = true) (s : State) (v : Word) : s.regWrite v t = s := by
  cases t <;> cases h <;> rfl

theorem readOnlyAddrs_target (p : Params) :
    ∀ a ∈ readOnlyAddrs, a.toNat % 4 = 0 ∧ (target p a).readOnly = true := by
  intro a ha
  fin_cases ha <;> exact ⟨rfl, rfl⟩

/-- Settles O18: the listed offsets name registers that `regWrite` leaves the state with. -/
theorem readOnlyRegistersIgnoreWrites : Obligations.ReadOnlyRegistersIgnoreWrites := by
  unfold Obligations.ReadOnlyRegistersIgnoreWrites
  intro s v he a ha
  obtain ⟨h4, hro⟩ := readOnlyAddrs_target s.params a ha
  have := execHostWrite_effect (v := v) h4 rfl (by rw [busy_of_idle he]; rfl)
  rwa [regWrite_readOnly hro] at this

/-! ## The windows and `FREQ` -/

theorem State.nodeSelected_iff (s : State) :
    s.nodeSelected = true ↔ s.treeValid = true ∧ s.nodeSel.toNat < s.nodeCount.toNat := by
  simp [State.nodeSelected]

theorem State.codeSelected_iff (s : State) :
    s.codeSelected = true ↔ s.codesValid = true ∧ (s.codeAt s.codeSel).valid = true := by
  simp [State.codeSelected, State.selCode]

/-- `NODE_FREQ_LO` and `NODE_FREQ_HI` of a selected node (R136, R137). -/
theorem State.nodeFreqWords_toNat {s : State} (h : s.nodeSelected = true) :
    s.nodeFreqLoWord.toNat = s.selNode.freq.toNat % 2 ^ 32 ∧
    s.nodeFreqHiWord.toNat = s.selNode.freq.toNat / 2 ^ 32 := by
  have := s.selNode.freq.isLt
  simp only [State.nodeFreqLoWord, State.nodeFreqHiWord, h, if_true, BitVec.extractLsb'_toNat, BitVec.toNat_setWidth,
    Nat.shiftRight_eq_div_pow]
  omega

/-- Without a selected node the node window reads 0 (R134). -/
theorem State.nodeWords_unselected {s : State} (h : ¬ s.nodeSelected = true) :
    s.nodeInfoWord = 0 ∧ s.nodeLinkWord = 0 ∧ s.nodeFreqLoWord = 0 ∧ s.nodeFreqHiWord = 0 :=
  ⟨if_neg h, if_neg h, if_neg h, if_neg h⟩

/-- Settles O12: the four words of the window are read as they are, and `nodeSelected` chooses their form. -/
theorem nodeWindowShowsTheSelectedNode : Obligations.NodeWindowShowsTheSelectedNode := by
  unfold Obligations.NodeWindowShowsTheSelectedNode
  intro s he
  rw [← State.nodeSelected_iff]
  refine ⟨s.nodeInfoWord, s.nodeLinkWord, s.nodeFreqLoWord, s.nodeFreqHiWord,
    exec_hostRead_reg_idle (t := .nodeInfo) (by decide) he, exec_hostRead_reg_idle (t := .nodeLink) (by decide) he,
    exec_hostRead_reg_idle (t := .nodeFreqLo) (by decide) he, exec_hostRead_reg_idle (t := .nodeFreqHi) (by decide) he,
    State.nodeWords_unselected, fun h => ?_⟩
  obtain ⟨h1, h2, h3, h4, h5, h6, h7, h8, h9, h10⟩ := State.nodeWords_fields h
  exact ⟨h1, h2, h3, h4, h5, h6, h7, h8, h9, h10, State.nodeFreqWords_toNat h⟩

/-- Settles O13: `CODE_LEN` shows the length field, and `CODE_BITSk` the window of 32 code bits from bit 32k on. -/
theorem codeWindowShowsTheSelectedCode : Obligations.CodeWindowShowsTheSelectedCode := by
  unfold Obligations.CodeWindowShowsTheSelectedCode
  intro s k he hk
  rw [← State.codeSelected_iff]
  refine ⟨s.codeLenWord, s.codeBitsWord k, exec_hostRead_reg_idle (t := .codeLen) (by decide) he,
    exec_hostRead_codeBits he hk, fun h => ⟨if_neg h, if_neg h⟩, fun h => ?_⟩
  obtain ⟨hvalid, hrsv, hlen⟩ := State.codeLenWord_fields h
  refine ⟨hvalid, hrsv, hlen, fun j hj => ?_⟩
  rw [State.codeBitsWord, if_pos h]
  exact getLsbD_bitWindow _ (32 * k) 32 j hj

/-- Settles O19: the write is `setFreq`, and `freqAt_setFreq` says what a later read returns. -/
theorem freqWritesReadBack : Obligations.FreqWritesReadBack := by
  unfold Obligations.FreqWritesReadBack
  intro s c v he
  refine ⟨_, exec_hostWrite_freq he c v, rfl, fun k => State.freqAt_setFreq s c.toNat k v, fun d => ?_⟩
  have hread := State.freqAt_setFreq s c.toNat d.toNat v
  simp only [BitVec.toNat_inj] at hread
  rw [← hread]
  exact exec_hostRead_freq (s := answered (s.setFreq c.toNat v) false 0) he d

end Sys2Proof.Machine
end

section
/-! SUPPORT. The invariant of the machine under the commands and under a whole step. A pending command has clear
information words, so a completion without error may keep them (R125, R126, R404). -/

namespace Sys2Proof.Machine

open Sys2Proof

-- One after another, as above.
set_option Elab.async false

/-- While a command is pending the information words are clear. -/
theorem MachineInv.pending_info {s : State} {w : Word} (h : MachineInv s) (hw : s.eng = .pending w) :
    s.errInfo = 0 ∧ s.errAux = 0 :=
  h.status.info (h.status.pending w hw).2.1

/-! ## The updates of the commands -/

/-- Settles O35: the tree registers and the node memory after BUILD hold the tree of `BuiltTree`. -/
theorem buildEstablishesTheTreeInvariant : Obligations.BuildEstablishesTheTreeInvariant := by
  unfold Obligations.BuildEstablishesTheTreeInvariant
  intro s t h he
  obtain ⟨N, hN, rfl⟩ := execBuild_ok h he
  exact hN.treeInv rfl rfl rfl rfl

/-- BUILD makes a tree and leaves no code table valid (R501, R509, R156). -/
theorem MachineInv.runBuild {s u : State} (h : MachineInv s) (hr : runBuild s = .ok u) :
    MachineInv u ∧ u.eng = s.eng := by
  obtain ⟨N, hN, rfl⟩ := runBuild_ok hr
  obtain ⟨hfreq, hfreq0, hnode, hrest⟩ := (Memory.wf_iff s).1 h.mem
  obtain ⟨hpending, herrIff, herrDone, hinfo, -, -⟩ := h.status
  exact ⟨⟨h.params, (Memory.wf_iff _).2 ⟨hfreq, hfreq0, hN.nodeMemWf hnode, hrest⟩,
    ⟨hpending, herrIff, herrDone, hinfo, nofun, nofun⟩, fun _ => hN.treeInv rfl rfl rfl rfl, nofun⟩, rfl⟩

/-- The code table GENCODES makes from a valid tree is a table of that tree (R601, R157). -/
theorem MachineInv.codeTable {s : State} (h : MachineInv s) (hv : s.treeValid = true) {ls : List (Symbol × BitString)}
    (hls : ∀ c q, (c, q) ∈ ls ↔ pathTo s q c) : MachineInv { s with code := codeTable ls, codesValid := true } := by
  obtain ⟨hfreq, hfreq0, hnode, -, -, hbufs⟩ := (Memory.wf_iff s).1 h.mem
  obtain ⟨hcode, hcode0⟩ := codeTable_wf ls
  have hT : TreeInv { s with code := Machine.codeTable ls, codesValid := true } :=
    (h.tree hv).congr rfl rfl rfl rfl
  obtain ⟨hpending, herrIff, herrDone, hinfo, -, hnoTree⟩ := h.status
  exact ⟨h.params, (Memory.wf_iff _).2 ⟨hfreq, hfreq0, hnode, hcode, hcode0, hbufs⟩,
    ⟨hpending, herrIff, herrDone, hinfo, fun _ => hv, hnoTree⟩, fun _ => hT, fun _ => codesInv_of_table hT hls rfl⟩

/-- PACK writes inside `BYTE_BUF` (R705, R706). -/
theorem MachineInv.runPack {s u : State} (h : MachineInv s) (hr : runPack s = .ok u) :
    MachineInv u ∧ u.eng = s.eng := by
  obtain ⟨-, -, hfit, rfl⟩ := runPack_ok hr
  refine ⟨h.congr rfl (Memory.wf_congr (Memory.wf_writeBytes _ h.mem (a := 0) ?_) rfl rfl rfl rfl rfl rfl)
    (h.status.congr rfl rfl rfl rfl rfl rfl rfl rfl rfl rfl rfl rfl) rfl rfl rfl rfl rfl rfl rfl, rfl⟩
  rw [packBytes_length, ceil8]
  omega

/-- UNPACK writes inside `SYM_BUF` (R805, R808). -/
theorem MachineInv.runUnpack {s u : State} (h : MachineInv s) (hr : runUnpack s = .ok u) :
    MachineInv u ∧ u.eng = s.eng := by
  obtain ⟨-, -, -, out, -, hfit, rfl⟩ := runUnpack_ok hr
  exact ⟨h.congr rfl (Memory.wf_congr (Memory.wf_writeSyms _ h.mem (a := 0) (by omega)) rfl rfl rfl rfl rfl rfl)
    (h.status.congr rfl rfl rfl rfl rfl rfl rfl rfl rfl rfl rfl rfl) rfl rfl rfl rfl rfl rfl rfl, rfl⟩

/-! ## Completion and host writes -/

/-- A pending command completes with the invariant when its updates keep it and its errors have a code (R1104). -/
theorem MachineInv.complete {s : State} {w : Word} {r : Except CmdFail State} (h : MachineInv s)
    (hw : s.eng = .pending w) (hok : ∀ u, r = .ok u → MachineInv u ∧ u.eng = s.eng)
    (herr : ∀ f, r = .error f → f.code ≠ .none) : MachineInv (s.complete r) := by
  cases r with
  | error f => exact h.raiseError f (herr f rfl)
  | ok u =>
    obtain ⟨hu, he⟩ := hok u rfl
    obtain ⟨hinfo, haux⟩ := hu.pending_info (he.trans hw)
    exact hu.succeed hinfo haux

theorem MachineInv.execGencodes {s t : State} {w : Word} (h : MachineInv s) (hw : s.eng = .pending w)
    (he : execGencodes s = .next t) : MachineInv t := by
  by_cases hv : s.treeValid = true
  · obtain ⟨ls, -, hls, -, hnext⟩ := execGencodes_tree hv (h.tree hv)
    cases hnext.symm.trans he
    obtain ⟨hinfo, haux⟩ := h.pending_info hw
    exact (h.codeTable hv hls).succeed hinfo haux
  · have hnext : Machine.execGencodes s = .next (s.raiseError { code := .noTree, info := 0, aux := 0 }) := if_neg hv
    cases hnext.symm.trans he
    exact h.raiseError _ nofun

/-- Every command the engine performs keeps the invariant. -/
theorem MachineInv.exec_command {i : Instr} {s t : State} {w : Word} (h : MachineInv s) (hw : s.eng = .pending w)
    (hi : isCommand i) (he : exec i s = .next t) : MachineInv t := by
  rcases hi with rfl | rfl | rfl | rfl
  · cases he
    exact h.complete hw (fun _ => h.runBuild) fun f hf => by rw [(runBuild_error hf).1]; nofun
  · exact h.execGencodes hw he
  · cases he
    exact h.complete hw (fun _ => h.runPack) fun _ => runPack_error
  · cases he
    exact h.complete hw (fun _ => h.runUnpack) fun _ => runUnpack_error

theorem MachineInv.execHostWrite {a : Addr} {v : Word} {s t : State} (h : MachineInv s)
    (he : execHostWrite a v s = .next t) : MachineInv t := by
  rcases execHostWrite_cases a v s with ⟨-, e⟩ | ⟨-, -, -, e⟩ | ⟨-, -, e⟩ <;> cases e.symm.trans he
  · exact h.plain rfl
  · exact h.plain rfl
  · exact (h.regWrite v a).plain rfl

/-- Settles O56: the invariant goes through each kind of step, after the step's event is taken off `inbox`. -/
theorem everyStepKeepsTheMachineInvariant : Obligations.EveryStepKeepsTheMachineInvariant := by
  unfold Obligations.EveryStepKeepsTheMachineInvariant
  intro s t h hs
  have taken : ∀ es, MachineInv { s with inbox := es } := fun _ => h.plain rfl
  rcases step_kinds hs with ⟨i, es, -, hi, he, w, hw⟩ | ⟨es, -, rfl⟩ | ⟨es, -, rfl⟩ | ⟨a, v, es, -, he, -, -⟩ |
    ⟨m, es, -, rfl⟩ | ⟨w, es, rfl⟩ | ⟨es, r, rfl⟩
  · exact (taken es).exec_command hw hi he
  · exact (taken es).softReset.plain rfl
  · exact (taken es).powerOn
  · exact (taken es).execHostWrite he
  · exact (taken es).plain rfl
  · exact (taken es).raiseError _ nofun
  · exact h.plain rfl

/-- Settles O55: after power-on the memories are empty, and no tree, no code table and no error is there. -/
theorem resetStateMeetsTheMachineInvariant : Obligations.ResetStateMeetsTheMachineInvariant := by
  unfold Obligations.ResetStateMeetsTheMachineInvariant
  intro p hp
  refine ⟨hp, Memory.wf_resetWith p, ?_, nofun, nofun⟩
  constructor <;> simp [State.resetWith]

end Sys2Proof.Machine
end

section
/-! SUPPORT. Which steps change the valid flags, LASTOP and the pending flags (R119, R120, R122, R124). -/

namespace Sys2Proof.Machine

open Sys2Proof

-- One after another, as above.
set_option Elab.async false

/-- What a command does to the valid flags: only a BUILD and a GENCODES that succeed change them (R119, R120). -/
theorem exec_command_validFlags {i : Instr} {s t : State} (hi : isCommand i) (h : exec i s = .next t) :
    (t.treeValid = s.treeValid ∧ t.codesValid = s.codesValid) ∨
    (i = .build ∧ t.err = false ∧ t.treeValid = true ∧ t.codesValid = false) ∨
    (i = .gencodes ∧ t.err = false ∧ t.treeValid = s.treeValid ∧ t.codesValid = true) := by
  obtain ⟨r, hr, -, -⟩ := exec_command hi h
  obtain ⟨hbuild, -, hgen, -⟩ := exec_command_frame hi h
  by_cases he : t.err = true
  · obtain ⟨f, -, rfl⟩ := State.complete_err hr.symm he
    exact .inl ⟨rfl, rfl⟩
  · rw [Bool.not_eq_true] at he
    rcases hi with rfl | rfl | rfl | rfl
    · obtain ⟨N, -, rfl⟩ := execBuild_ok h he
      exact .inr (.inl ⟨rfl, rfl, rfl, rfl⟩)
    · simp only [exec, execGencodes] at h
      split at h
      · split at h <;> cases h
        exact .inr (.inr ⟨rfl, rfl, rfl, rfl⟩)
      · cases h
        exact absurd he (by simp [State.complete])
    · exact .inl ⟨(hbuild nofun).2, hgen nofun nofun⟩
    · exact .inl ⟨(hbuild nofun).2, hgen nofun nofun⟩

theorem State.softReset_flags (s : State) :
    s.softReset.treeValid = false ∧ s.softReset.codesValid = false := by
  rcases State.softReset_cases s with ⟨-, e⟩ | ⟨-, e⟩ | ⟨-, -, e⟩ <;> rw [e] <;> exact ⟨rfl, rfl⟩

/-- What a step does to the valid flags, said once. -/
theorem step_validFlags {s t : State} (hs : step s = .next t) :
    (t.treeValid = s.treeValid ∧ t.codesValid = s.codesValid) ∨
    (∃ u, fetch s = .instr .build u ∧ t.err = false ∧ t.treeValid = true ∧ t.codesValid = false) ∨
    (∃ u, fetch s = .instr .gencodes u ∧ t.err = false ∧ t.treeValid = s.treeValid ∧ t.codesValid = true) ∨
    (∃ u, (fetch s = .instr .softReset u ∨ fetch s = .powerOn u) ∧ t.treeValid = false ∧ t.codesValid = false) := by
  rcases step_kinds hs with ⟨i, es, hf, hi, he, -⟩ | ⟨es, hf, rfl⟩ | ⟨es, hf, rfl⟩ | ⟨a, v, es, -, he, hp, hc⟩ |
    ⟨m, es, -, rfl⟩ | ⟨w, es, rfl⟩ | ⟨es, r, rfl⟩
  · rcases exec_command_validFlags hi he with h | ⟨rfl, h⟩ | ⟨rfl, h⟩
    · exact .inl h
    · exact .inr (.inl ⟨_, hf, h⟩)
    · exact .inr (.inr (.inl ⟨_, hf, h⟩))
  · exact .inr (.inr (.inr ⟨_, .inl hf, State.softReset_flags _⟩))
  · exact .inr (.inr (.inr ⟨_, .inr hf, rfl, rfl⟩))
  · obtain ⟨-, -, -, htree, hcodes, -⟩ := execHostWrite_frame he hc hp
    exact .inl ⟨htree, hcodes⟩
  · exact .inl ⟨rfl, rfl⟩
  · exact .inl ⟨rfl, rfl⟩
  · exact .inl ⟨rfl, rfl⟩

/-- Settles O58: each change of a flag leaves one kind of `step_validFlags`. -/
theorem onlyTheirEventsChangeTheValidFlags : Obligations.OnlyTheirEventsChangeTheValidFlags := by
  unfold Obligations.OnlyTheirEventsChangeTheValidFlags
  intro s t hs
  rcases step_validFlags hs with ⟨htree, hcodes⟩ | ⟨u, hf, he, htree, hcodes⟩ | ⟨u, hf, he, htree, hcodes⟩ |
    ⟨u, hf, htree, hcodes⟩
  · rw [htree, hcodes]
    refine ⟨?_, ?_, ?_, ?_⟩ <;> exact fun h h' => absurd (h.symm.trans h') nofun
  · rw [htree, hcodes]
    exact ⟨fun _ _ => ⟨u, hf, he⟩, nofun, nofun, fun _ _ => ⟨u, .inl ⟨hf, he⟩⟩⟩
  · rw [htree, hcodes]
    exact ⟨fun h h' => absurd (h.symm.trans h') nofun, fun h h' => absurd (h.symm.trans h') nofun,
      fun _ _ => ⟨u, hf, he⟩, nofun⟩
  · rw [htree, hcodes]
    exact ⟨nofun, fun _ _ => ⟨u, hf⟩, nofun, fun _ _ => ⟨u, .inr hf⟩⟩

/-- A command leaves LASTOP alone and clears no pending flag (R1104, R1006). -/
theorem exec_command_lastop_irqPend {i : Instr} {s t : State} (hi : isCommand i) (h : exec i s = .next t) :
    t.lastop = s.lastop ∧ ∀ k, s.irqPend.getLsbD k = true → t.irqPend.getLsbD k = true := by
  obtain ⟨r, rfl, hok, -⟩ := exec_command hi h
  cases r with
  | error f => exact ⟨rfl, fun k hk => by simp [State.complete, hk]⟩
  | ok u =>
    obtain ⟨hlast, hirq, -⟩ := hok u rfl
    exact ⟨hlast, fun k hk => by simp [State.complete, hirq, hk]⟩

/-- An acknowledge clears the flags it names only (R405). -/
theorem State.named_of_clearIrq {s : State} {m : Word} {i : Nat} (hi : i < 3) (h : s.irqPend.getLsbD i = true)
    (h' : (s.clearIrq m).irqPend.getLsbD i = false) : m.getLsbD i = true := by
  simpa [h, hi] using h'

/-- Settles O59: of the kinds of step, a CMD write, an acknowledge and the resets are left. -/
theorem onlyTheirEventsChangeLastOpAndClearFlags : Obligations.OnlyTheirEventsChangeLastOpAndClearFlags := by
  unfold Obligations.OnlyTheirEventsChangeLastOpAndClearFlags
  intro s t hs
  rcases step_kinds hs with ⟨i, es, -, hi, he, -⟩ | ⟨es, hf, -⟩ | ⟨es, hf, -⟩ | ⟨a, v, es, hf, he, hp, hc⟩ |
    ⟨m, es, hf, rfl⟩ | ⟨w, es, rfl⟩ | ⟨es, r, rfl⟩
  · obtain ⟨hlast, hirq⟩ := exec_command_lastop_irqPend hi he
    exact ⟨fun h => absurd hlast h, fun i _ h h' => absurd ((hirq i h).symm.trans h') nofun⟩
  · exact ⟨fun _ => ⟨_, .inr (.inl hf)⟩, fun _ _ _ _ => ⟨_, .inr (.inl hf)⟩⟩
  · exact ⟨fun _ => ⟨_, .inr (.inr hf)⟩, fun _ _ _ _ => ⟨_, .inr (.inr hf)⟩⟩
  · obtain ⟨-, -, -, -, -, -, -, -, hlast, -, -, hirq⟩ := execHostWrite_frame he hc hp
    refine ⟨fun h => ?_, fun i hi h h' => absurd ((hirq i hi h).symm.trans h') nofun⟩
    obtain ⟨rfl, hidle, hop⟩ := hlast h
    exact ⟨_, .inl ⟨v, hf, hidle, hop⟩⟩
  · exact ⟨fun h => absurd rfl h, fun i hi h h' => ⟨_, .inl ⟨m, hf, State.named_of_clearIrq hi h h'⟩⟩⟩
  · exact ⟨fun h => absurd rfl h, fun i _ h h' => absurd h' (by simp [h])⟩
  · exact ⟨fun h => absurd rfl h, fun i _ h h' => absurd (h.symm.trans h') nofun⟩

end Sys2Proof.Machine
end

section
/-! SUPPORT. Which steps change the internal memories (R150..R154): each kind of step changes what its owner may. -/

namespace Sys2Proof.Machine

open Sys2Proof

-- One after another, as above.
set_option Elab.async false

/-- The step runs the operation `i`. -/
def stepRuns (s : State) (i : Instr) : Prop := ∃ u, fetch s = .instr i u

/-- The step is a host write to an offset from `lo` on and below `hi`. -/
def stepWritesIn (s : State) (lo hi : Nat) : Prop :=
  ∃ u a v, fetch s = .instr (.hostWrite a v) u ∧ lo ≤ a.toNat ∧ a.toNat < hi

/-- The step is a power-on reset. -/
def stepPowersOn (s : State) : Prop := ∃ u, fetch s = .powerOn u

/-- From `s` to `t` each memory is as it was, or the step of `s` is one of its owners. A buffer stands for its list of
written bytes and its draw. -/
structure OwnedChanges (s t : State) : Prop where
  params : t.params = s.params
  node : t.node = s.node ∨ stepRuns s .build ∨ stepPowersOn s
  code : t.code = s.code ∨ stepRuns s .gencodes ∨ stepPowersOn s
  freq : t.freq = s.freq ∨ stepWritesIn s 0x400 0x800 ∨ stepRuns s .softReset ∨ stepPowersOn s
  syms : (t.symBuf = s.symBuf ∧ t.symDraw = s.symDraw) ∨
    ((stepWritesIn s 0x10000 0x20000 ∨ stepRuns s .unpack) ∧ t.symDraw = s.symDraw) ∨
    (stepRuns s .softReset ∧ s.eng = .pending 0x4) ∨ stepPowersOn s
  bytes : (t.byteBuf = s.byteBuf ∧ t.byteDraw = s.byteDraw) ∨
    ((stepWritesIn s 0x20000 0x30000 ∨ stepRuns s .pack) ∧ t.byteDraw = s.byteDraw) ∨
    (stepRuns s .softReset ∧ s.eng = .pending 0x3) ∨ stepPowersOn s

/-! ## The kinds of step -/

theorem OwnedChanges.of_same {s t : State} (hp : t.params = s.params) (hf : t.freq = s.freq) (hn : t.node = s.node)
    (hc : t.code = s.code) (hs : t.symBuf = s.symBuf) (hb : t.byteBuf = s.byteBuf) (hsd : t.symDraw = s.symDraw)
    (hbd : t.byteDraw = s.byteDraw) : OwnedChanges s t :=
  ⟨hp, .inl hn, .inl hc, .inl hf, .inl ⟨hs, hsd⟩, .inl ⟨hb, hbd⟩⟩

theorem OwnedChanges.of_powerOn {s t : State} (h : stepPowersOn s) (hp : t.params = s.params) : OwnedChanges s t :=
  ⟨hp, .inr (.inr h), .inr (.inr h), .inr (.inr (.inr h)), .inr (.inr (.inr h)), .inr (.inr (.inr h))⟩

/-- A command writes its own memory only (R307). -/
theorem OwnedChanges.of_command {s u t : State} {i : Instr} (hr : stepRuns s i) (hi : isCommand i)
    (he : exec i u = .next t) (hu : ∃ es, u = { s with inbox := es }) : OwnedChanges s t := by
  obtain ⟨es, rfl⟩ := hu
  obtain ⟨hnode, hcode, -, hsym, hbyte, hsymDraw, hbyteDraw⟩ := exec_command_frame hi he
  obtain ⟨hparams, hfreq⟩ : t.params = s.params ∧ t.freq = s.freq := by
    obtain ⟨r, rfl, hok, -⟩ := Machine.exec_command hi he
    cases r with
    | error f => exact ⟨rfl, rfl⟩
    | ok u =>
      obtain ⟨-, -, -, -, hp, hf, -⟩ := hok u rfl
      exact ⟨hp, hf⟩
  refine ⟨hparams, ?_, ?_, .inl hfreq, ?_, ?_⟩
  · by_cases h : i = .build
    · exact .inr (.inl (h ▸ hr))
    · exact .inl (hnode h).1
  · by_cases h : i = .gencodes
    · exact .inr (.inl (h ▸ hr))
    · exact .inl (hcode h)
  · by_cases h : i = .unpack
    · exact .inr (.inl ⟨.inr (h ▸ hr), hsymDraw⟩)
    · exact .inl ⟨hsym h, hsymDraw⟩
  · by_cases h : i = .pack
    · exact .inr (.inl ⟨.inr (h ▸ hr), hbyteDraw⟩)
    · exact .inl ⟨hbyte h, hbyteDraw⟩

/-- A soft reset clears `FREQ`, and draws a buffer anew only when it aborts the command that writes it (R1101,
R1102). -/
theorem OwnedChanges.of_softReset {s u : State} (hr : stepRuns s .softReset) (hu : ∃ es, u = { s with inbox := es }) :
    OwnedChanges s u.softReset := by
  obtain ⟨es, rfl⟩ := hu
  obtain ⟨hparams, hnode, hcode, hsym, hbyte⟩ := State.softReset_memories { s with inbox := es }
  refine ⟨hparams, .inl hnode, .inl hcode, .inr (.inr (.inl hr)), ?_, ?_⟩
  · by_cases h : s.eng = .pending 0x4
    · exact .inr (.inr (.inl ⟨hr, h⟩))
    · exact .inl (hsym h)
  · by_cases h : s.eng = .pending 0x3
    · exact .inr (.inr (.inl ⟨hr, h⟩))
    · exact .inl (hbyte h)

/-- A host write reaches a memory through its window only (R208, R402). -/
theorem OwnedChanges.of_hostWrite {s u t : State} {a : Addr} {v : Word} (hf : fetch s = .instr (.hostWrite a v) u)
    (he : execHostWrite a v u = .next t) (hp : a ≠ irqPendAddr) (hc : ¬ (a = ctrlAddr ∧ v.getLsbD 0 = true))
    (hu : ∃ es, u = { s with inbox := es }) : OwnedChanges s t := by
  obtain ⟨hparams, hnode, hcode, -, -, hfreq, hsym, hbyte, -, hsymDraw, hbyteDraw, -⟩ := execHostWrite_frame he hc hp
  obtain ⟨es, rfl⟩ := hu
  have window : ∀ {lo hi : Nat}, lo ≤ a.toNat ∧ a.toNat < hi → stepWritesIn s lo hi := fun h => ⟨_, a, v, hf, h⟩
  refine ⟨hparams, .inl hnode, .inl hcode, ?_, ?_, ?_⟩
  · by_cases h : t.freq = s.freq
    · exact .inl h
    · exact .inr (.inl (window (hfreq h)))
  · by_cases h : t.symBuf = s.symBuf
    · exact .inl ⟨h, hsymDraw⟩
    · exact .inr (.inl ⟨.inl (window (hsym h)), hsymDraw⟩)
  · by_cases h : t.byteBuf = s.byteBuf
    · exact .inl ⟨h, hbyteDraw⟩
    · exact .inr (.inl ⟨.inl (window (hbyte h)), hbyteDraw⟩)

theorem step_ownedChanges {s t : State} (hs : step s = .next t) : OwnedChanges s t := by
  rcases step_kinds hs with ⟨i, es, hf, hi, he, -⟩ | ⟨es, hf, rfl⟩ | ⟨es, hf, rfl⟩ | ⟨a, v, es, hf, he, hp, hc⟩ |
    ⟨m, es, -, rfl⟩ | ⟨w, es, rfl⟩ | ⟨es, r, rfl⟩
  · exact .of_command ⟨_, hf⟩ hi he ⟨es, rfl⟩
  · exact { OwnedChanges.of_softReset ⟨_, hf⟩ ⟨es, rfl⟩ with }
  · exact .of_powerOn ⟨_, hf⟩ rfl
  · exact .of_hostWrite hf he hp hc ⟨es, rfl⟩
  · exact .of_same rfl rfl rfl rfl rfl rfl rfl rfl
  · exact .of_same rfl rfl rfl rfl rfl rfl rfl rfl
  · exact .of_same rfl rfl rfl rfl rfl rfl rfl rfl

/-- Settles O60: each clause reads one memory's field of `OwnedChanges`; a byte is fixed by its list and its draw. -/
theorem onlyTheirOwnersChangeTheMemories : Obligations.OnlyTheirOwnersChangeTheMemories := by
  unfold Obligations.OnlyTheirOwnersChangeTheMemories
  intro s t hs
  obtain ⟨hparams, hnode, hcode, hfreq, hsyms, hbytes⟩ := step_ownedChanges hs
  refine ⟨hparams, fun h => ?_, fun h => ?_, fun h => ?_, fun h => ?_, fun h => ?_, fun h => ?_, fun h => ?_,
    fun i h => ?_, fun i h => ?_⟩
  · rcases hnode with e | ⟨u, hu⟩ | ⟨u, hu⟩
    exacts [absurd e h, ⟨u, .inl hu⟩, ⟨u, .inr hu⟩]
  · rcases hcode with e | ⟨u, hu⟩ | ⟨u, hu⟩
    exacts [absurd e h, ⟨u, .inl hu⟩, ⟨u, .inr hu⟩]
  · rcases hfreq with e | ⟨u, hu⟩ | ⟨u, hu⟩ | ⟨u, hu⟩
    exacts [absurd e h, ⟨u, .inl hu⟩, ⟨u, .inr (.inl hu)⟩, ⟨u, .inr (.inr hu)⟩]
  · rcases hsyms with ⟨e, -⟩ | ⟨⟨u, hu⟩ | ⟨u, hu⟩, -⟩ | ⟨⟨u, hu⟩, -⟩ | ⟨u, hu⟩
    exacts [absurd e h, ⟨u, .inl hu⟩, ⟨u, .inr (.inl hu)⟩, ⟨u, .inr (.inr (.inl hu))⟩, ⟨u, .inr (.inr (.inr hu))⟩]
  · rcases hbytes with ⟨e, -⟩ | ⟨⟨u, hu⟩ | ⟨u, hu⟩, -⟩ | ⟨⟨u, hu⟩, -⟩ | ⟨u, hu⟩
    exacts [absurd e h, ⟨u, .inl hu⟩, ⟨u, .inr (.inl hu)⟩, ⟨u, .inr (.inr (.inl hu))⟩, ⟨u, .inr (.inr (.inr hu))⟩]
  · rcases hsyms with ⟨-, e⟩ | ⟨-, e⟩ | ⟨⟨u, hu⟩, hw⟩ | ⟨u, hu⟩
    exacts [absurd e h, absurd e h, ⟨u, .inl ⟨hu, hw⟩⟩, ⟨u, .inr hu⟩]
  · rcases hbytes with ⟨-, e⟩ | ⟨-, e⟩ | ⟨⟨u, hu⟩, hw⟩ | ⟨u, hu⟩
    exacts [absurd e h, absurd e h, ⟨u, .inl ⟨hu, hw⟩⟩, ⟨u, .inr hu⟩]
  · rcases hsyms with ⟨e, e'⟩ | ⟨⟨u, hu⟩ | ⟨u, hu⟩, -⟩ | ⟨⟨u, hu⟩, hw⟩ | ⟨u, hu⟩
    exacts [absurd (State.symAt_congr e e' i) h, ⟨u, .inl hu⟩, ⟨u, .inr (.inl hu)⟩, ⟨u, .inr (.inr (.inl ⟨hu, hw⟩))⟩,
      ⟨u, .inr (.inr (.inr hu))⟩]
  · rcases hbytes with ⟨e, e'⟩ | ⟨⟨u, hu⟩ | ⟨u, hu⟩, -⟩ | ⟨⟨u, hu⟩, hw⟩ | ⟨u, hu⟩
    exacts [absurd (State.byteAt_congr e e' i) h, ⟨u, .inl hu⟩, ⟨u, .inr (.inl hu)⟩, ⟨u, .inr (.inr (.inl ⟨hu, hw⟩))⟩,
      ⟨u, .inr (.inr (.inr hu))⟩]

end Sys2Proof.Machine
end

section
/-! SUPPORT. Command words by number: the two fields of a command word make up the word, so the legal words are 1 to 4
(R301, R302), and the engine reports every other word as illegal (R303). -/

namespace Sys2Proof.Machine

open Sys2Proof

-- One after another, as above.
set_option Elab.async false

/-! ## The decoder by number -/

theorem toNat_cmdOp (w : Word) : (cmdOp w).toNat = w.toNat % 16 := by
  simp [cmdOp]

theorem toNat_cmdRsv (w : Word) : (cmdRsv w).toNat = w.toNat / 16 := by
  have := w.isLt
  rw [cmdRsv, BitVec.extractLsb'_toNat, Nat.shiftRight_eq_div_pow]
  omega

/-- RSV and OP make up the command word (R301). -/
theorem cmdWord_iff (w : Word) (op : BitVec 4) : cmdRsv w = 0 ∧ cmdOp w = op ↔ w = op.setWidth 32 := by
  have := op.isLt
  rw [← BitVec.toNat_inj, ← BitVec.toNat_inj, ← BitVec.toNat_inj, toNat_cmdRsv, toNat_cmdOp, BitVec.toNat_setWidth,
    BitVec.ofNat_eq_ofNat, BitVec.toNat_zero]
  omega

/-- A word other than the four is illegal (R303). -/
theorem decodeCmd_of_illegal {w : Word} (h1 : w ≠ 0x1) (h2 : w ≠ 0x2) (h3 : w ≠ 0x3) (h4 : w ≠ 0x4) :
    decodeCmd w = .error (.illegalCmd w) := by
  by_cases h : cmdRsv w = 0
  · have hop (op : BitVec 4) (hne : w ≠ op.setWidth 32) : cmdOp w ≠ op := fun e => hne ((cmdWord_iff w op).1 ⟨h, e⟩)
    rw [decodeCmd, if_pos h, if_neg (hop 0x1 h1), if_neg (hop 0x2 h2), if_neg (hop 0x3 h3), if_neg (hop 0x4 h4)]
  · rw [decodeCmd, if_neg h]

/-- A word that decodes to a command is one of the four (R302). -/
theorem eq_of_decodeCmd {w : Word} {i : Instr} (h : decodeCmd w = .ok i) : w = 0x1 ∨ w = 0x2 ∨ w = 0x3 ∨ w = 0x4 := by
  by_contra! hne
  obtain ⟨h1, h2, h3, h4⟩ := hne
  exact nomatch (decodeCmd_of_illegal h1 h2 h3 h4).symm.trans h

/-- The four legal words (R302). -/
theorem decodeCmd_legal :
    decodeCmd 0x1 = .ok .build ∧ decodeCmd 0x2 = .ok .gencodes ∧ decodeCmd 0x3 = .ok .pack ∧
    decodeCmd 0x4 = .ok .unpack := by decide

/-- Settles O2: a word that decodes is one of four, and the decoder is evaluated on each. -/
theorem legalCommandWordsAreOneToFour : Obligations.LegalCommandWordsAreOneToFour := by
  unfold Obligations.LegalCommandWordsAreOneToFour
  intro w i
  obtain ⟨d1, d2, d3, d4⟩ := decodeCmd_legal
  constructor
  · intro h
    rcases eq_of_decodeCmd h with rfl | rfl | rfl | rfl
    · exact .inl ⟨rfl, Except.ok.inj (h.symm.trans d1)⟩
    · exact .inr (.inl ⟨rfl, Except.ok.inj (h.symm.trans d2)⟩)
    · exact .inr (.inr (.inl ⟨rfl, Except.ok.inj (h.symm.trans d3)⟩))
    · exact .inr (.inr (.inr ⟨rfl, Except.ok.inj (h.symm.trans d4)⟩))
  · rintro (⟨rfl, rfl⟩ | ⟨rfl, rfl⟩ | ⟨rfl, rfl⟩ | ⟨rfl, rfl⟩)
    exacts [d1, d2, d3, d4]

/-! ## The engine on an illegal word -/

theorem engineTurn_of_illegal {s : State} {w : Word} {e : DecodeError} (he : s.eng = .pending w)
    (hd : decodeCmd w = .error e) : engineTurn s = .illegal w s := by
  simp only [engineTurn, he, hd]

theorem step_of_fetch_illegal {s t : State} {w : Word} (h : fetch s = .illegal w t) :
    step s = .next (completedErr t .illegalCmd w 0) := by
  simp only [step, h, performIllegal, raiseError_eq]

/-- A write to CMD while no command is pending is accepted, whatever the word (R404). -/
theorem exec_hostWrite_cmd {s : State} (he : s.eng = .idle) (v : Word) :
    exec (.hostWrite 0x00010 v) s = .next (answered (s.accept v) false 0) :=
  execHostWrite_effect (t := .cmd) rfl (target_of_mem (by decide)) (by rw [busy_of_idle he]; rfl)

/-- Settles O5: CMD latches any word, and the engine's turn on a word the decoder refuses is `performIllegal`. -/
theorem illegalCommandIsAcceptedThenRaised : Obligations.IllegalCommandIsAcceptedThenRaised := by
  unfold Obligations.IllegalCommandIsAcceptedThenRaised
  intro s w h1 h2 h3 h4
  have hd := decodeCmd_of_illegal h1 h2 h3 h4
  exact ⟨fun he => ⟨_, exec_hostWrite_cmd he w, busy_of_pending (w := w) rfl, rfl⟩,
    fun es he hin => step_of_fetch_illegal ((fetch_of_engine hin).trans (engineTurn_of_illegal he hd)),
    fun he hin => step_of_fetch_illegal ((fetch_of_noEvent hin).trans (engineTurn_of_illegal he hd))⟩

end Sys2Proof.Machine
end

section
/-! SUPPORT. Host writes to the command, interrupt and plain registers, and the interrupt output (R402, R404, R405,
R407). -/

namespace Sys2Proof.Machine

open Sys2Proof

-- One after another, as above.
set_option Elab.async false

/-! ## Writes to a single register -/

/-- A write to a single register that takes writes now. -/
theorem exec_hostWrite_reg {s : State} {a : Addr} {t : Target} (hm : (a.toNat, t) ∈ regMap) (v : Word)
    (hg : (s.busy && !t.busyOk) = false) :
    exec (.hostWrite a v) s = .next (answered (s.regWrite v t) false 0) :=
  execHostWrite_effect (regMap_aligned _ hm) (target_of_mem hm) hg

/-- A write to any single register while no command is pending. -/
theorem exec_hostWrite_reg_idle {s : State} {a : Addr} {t : Target} (hm : (a.toNat, t) ∈ regMap) (v : Word)
    (he : s.eng = .idle) : exec (.hostWrite a v) s = .next (answered (s.regWrite v t) false 0) :=
  exec_hostWrite_reg hm v (by rw [busy_of_idle he, Bool.false_and])

/-- A write to a register that accepts writes while busy (R400), busy or not. -/
theorem exec_hostWrite_reg_busyOk {s : State} {a : Addr} {t : Target} (hm : (a.toNat, t) ∈ regMap) (v : Word)
    (ht : t.busyOk = true) : exec (.hostWrite a v) s = .next (answered (s.regWrite v t) false 0) :=
  exec_hostWrite_reg hm v (by rw [ht, Bool.not_true, Bool.and_false])

/-- Settles O16: the state that `accept` leaves is written out. -/
theorem commandIssueLatchesTheWord : Obligations.CommandIssueLatchesTheWord := by
  unfold Obligations.CommandIssueLatchesTheWord
  exact fun s v he => exec_hostWrite_cmd he v

/-- The registers of `registerWrites`, by name. -/
def writableRegs : List (Addr × Target) :=
  [(0x028, .symCount), (0x02C, .bitCount), (0x030, .byteCount), (0x040, .nodeSel), (0x060, .codeSel)]

theorem registerWrites_eq (s : State) (v : Word) :
    registerWrites s v = writableRegs.map fun r => (r.1, s.regWrite v r.2) := rfl

theorem writableRegs_listed : ∀ r ∈ writableRegs, (r.1.toNat, r.2) ∈ regMap := by decide

/-- A CTRL word with bit 0 clear does nothing (R306). -/
theorem regWrite_ctrl_of_clear {v : Word} (h : v.getLsbD 0 = false) (s : State) : s.regWrite v .ctrl = s :=
  if_neg (ne_true_of_eq_false h)

/-- Settles O17: the listed states are what `regWrite` leaves; IRQ_EN and CTRL accept writes while busy. -/
theorem registerWritesStoreTheirBits : Obligations.RegisterWritesStoreTheirBits := by
  unfold Obligations.RegisterWritesStoreTheirBits
  intro s v
  rw [registerWrites_eq]
  simp only [List.forall_mem_map]
  refine ⟨fun he r hr => exec_hostWrite_reg_idle (writableRegs_listed r hr) v he,
    exec_hostWrite_reg_busyOk (t := .irqEn) (by decide) v rfl, fun hv => ?_⟩
  have hwrite := exec_hostWrite_reg_busyOk (s := s) (a := 0x0000C) (t := .ctrl) (by decide) v rfl
  rwa [regWrite_ctrl_of_clear hv] at hwrite

/-! ## Interrupt flags -/

/-- The flags left pending by an acknowledge (R405), bit by bit. -/
theorem getLsbD_clearIrq (s : State) (m : Word) {i : Nat} (hi : i < 3) :
    (s.clearIrq m).irqPend.getLsbD i = (s.irqPend.getLsbD i && !m.getLsbD i) := by
  simp [hi]

/-- Settles O22: IRQ_ACK and the write to IRQ_PEND are both `clearIrq`, which the engine's state does not gate. -/
theorem irqAckClearsTheNamedFlags : Obligations.IrqAckClearsTheNamedFlags := by
  unfold Obligations.IrqAckClearsTheNamedFlags
  exact fun s m => ⟨(s.clearIrq m).irqPend, rfl, exec_hostWrite_reg_busyOk (t := .irqPend) (by decide) m rfl,
    fun _ => getLsbD_clearIrq s m⟩

/-- The interrupt output (R407): its three terms are the three flags. -/
theorem State.irq_iff (s : State) :
    s.irq = true ↔ ∃ i < 3, s.irqPend.getLsbD i = true ∧ s.irqEn.getLsbD i = true := by
  simp only [State.irq, Bool.or_eq_true, Bool.and_eq_true, Nat.exists_lt_succ_right, Nat.not_lt_zero, false_and,
    exists_false, false_or]

theorem State.irq_of_noPending {s : State} (h : s.irqPend = 0) : s.irq = false := by
  simp [State.irq, h]

/-- Settles O27: `irq` is the OR over the three flags, and after reset none is pending. -/
theorem irqIsAnEnabledPendingFlag : Obligations.IrqIsAnEnabledPendingFlag := by
  unfold Obligations.IrqIsAnEnabledPendingFlag
  exact ⟨State.irq_iff, fun _ => State.irq_of_noPending rfl⟩

end Sys2Proof.Machine
end

section
/-! SUPPORT. BUILD from its table to the state it leaves: the two outcomes, decided by `buildTree`, and what the tree
registers and the node memory then hold (R500..R512). -/

namespace Sys2Proof.Machine

open Sys2Proof

-- One after another, as above.
set_option Elab.async false

/-! ## The builder as a function of the table -/

theorem exists_buildTree_iff {f : Nat → Word} : (∃ N, buildTree f = some N) ↔ ∃ k < 256, f k ≠ 0 := by
  rw [← Option.ne_none_iff_exists', ne_eq, buildTree_none]
  push Not
  rfl

/-- Entries past the alphabet do not matter (R512). -/
theorem buildTree_congr {f g : Nat → Word} (h : ∀ k < 256, f k = g k) : buildTree f = buildTree g := by
  have hleaf : ∀ c ∈ presentSyms f, leafNode f c = leafNode g c := by
    intro c hc
    rw [leafNode, h c (mem_presentSyms.1 hc).1, leafNode]
  unfold buildTree
  rw [← presentSyms_congr h]
  split
  · rfl
  · rename_i c hP
    rw [hleaf c (by rw [hP]; exact List.mem_singleton_self c)]
  · rename_i c d P hP
    rw [List.map_congr_left (hP ▸ hleaf)]

theorem presentSyms_eq_singleton {f : Nat → Word} {c : Nat} (hc : c < 256) (hf : f c ≠ 0)
    (hothers : ∀ k < 256, k ≠ c → f k = 0) : presentSyms f = [c] := by
  have hnodup : (presentSyms f).Nodup := (presentSyms_sorted f).imp Nat.ne_of_lt
  refine List.perm_singleton.1 ((List.perm_ext_iff_of_nodup hnodup (List.nodup_singleton c)).2 fun k => ?_)
  rw [mem_presentSyms, List.mem_singleton]
  constructor
  · rintro ⟨hk, hfk⟩
    by_contra hne
    exact hfk (hothers k hk hne)
  · rintro rfl
    exact ⟨hc, hf⟩

theorem buildTree_of_singleton {f : Nat → Word} {c : Nat} (h : presentSyms f = [c]) :
    buildTree f = some [leafNode f c, singleRoot (leafNode f c)] := by
  simp only [buildTree, h]

/-! ## The nodes of a built tree -/

/-- The leaf of a present symbol stands at its rank (R502). -/
theorem BuiltTree.nodeAt_rank {f : Nat → Word} {N : List Node} (h : BuiltTree f N) {c : Nat} (hc : c < 256)
    (hf : f c ≠ 0) : nodeAt N ((List.range c).countP (fun k => f k != 0)) = leafNode f c := by
  obtain ⟨hrank, hsym⟩ := presentSyms_getD hc hf
  rw [h.leaves _ hrank, hsym]

theorem BuiltTree.leaves_lt_length {f : Nat → Word} {N : List Node} (h : BuiltTree f N) :
    (presentSyms f).length < N.length := by
  have hpos := h.leafPos
  have hsize := h.size
  split at hsize <;> omega

/-- The last node's frequency is the sum of the table (R507): over one leaf it is that leaf's, and otherwise it is what
the merge loop keeps as the sum over its collection, in which the root is left alone. -/
theorem BuiltTree.rootFreq {f : Nat → Word} {N : List Node} (h : BuiltTree f N) :
    (nodeAt N (N.length - 1)).freq.toNat = tableSum f := by
  by_cases hL : (presentSyms f).length = 1
  · obtain ⟨c, hc⟩ := List.length_eq_one_iff.1 hL
    have hsize : N.length = 2 := by rw [h.size, if_pos hL]
    have hsum : (f c).toNat = tableSum f := by simpa [hc] using presentSyms_sum f
    have hlt := (f c).isLt
    rw [hsize, h.single hL, h.leaves 0 (by omega), hc, ← hsum]
    simp only [singleRoot, leafNode, List.getD_cons_zero, BitVec.toNat_setWidth]
    omega
  · have hpos := h.leafPos
    simpa using (h.merged (by omega)).sum

/-- A merge reads only nodes up to its own: later entries do not matter. -/
theorem MergedAt.append_list {N : List Node} {L k a b : Nat} (h : MergedAt N L k a b) (hk : k < N.length)
    (M : List Node) : MergedAt (N ++ M) L k a b := by
  induction M generalizing N with
  | nil => rwa [List.append_nil]
  | cons n M ih =>
    rw [List.append_cons]
    exact ih (h.append hk) (by rw [List.length_append]; omega)

/-- The links of a merged node are the two indices: a 9-bit field holds them. -/
theorem MergedAt.links {N : List Node} {L k a b : Nat} (h : MergedAt N L k a b) (hk : k ≤ 512) :
    (nodeAt N k).left.toNat = a ∧ (nodeAt N k).right.toNat = b := by
  have ha := h.memA.1
  have hb := h.memB.1
  rw [h.node]
  simp only [innerNode, BitVec.toNat_ofNat]
  omega

/-! ## The two outcomes of BUILD -/

/-- `s` with the tree `N` in the node memory and the tree registers (R509, R510). -/
def State.withTree (s : State) (N : List Node) : State :=
  { s with
    node := N ++ s.node.drop N.length, leafCount := BitVec.ofNat 9 (presentSyms s.freqAt).length,
    nodeCount := BitVec.ofNat 9 N.length, root := BitVec.ofNat 9 (N.length - 1), treeValid := true, codesValid := false }

theorem exec_build_of_none {s : State} (h : buildTree s.freqAt = none) :
    exec .build s = .next (completedErr s .emptyInput 0 0) := by
  simp only [exec, execBuild, runBuild, h, State.complete, raiseError_eq]

theorem exec_build_of_some {s : State} {N : List Node} (h : buildTree s.freqAt = some N) :
    exec .build s = .next (completedOk (s.withTree N)) := by
  simp only [exec, execBuild, runBuild, h, State.complete, succeed_eq, State.withTree]

/-- What BUILD can do: fail on an empty alphabet (R503), or hold the tree built from the table (R501). -/
theorem exec_build_cases {s t : State} (h : exec .build s = .next t) :
    (buildTree s.freqAt = none ∧ t = completedErr s .emptyInput 0 0) ∨
    ∃ N, buildTree s.freqAt = some N ∧ t = completedOk (s.withTree N) := by
  cases hb : buildTree s.freqAt with
  | none => exact .inl ⟨rfl, Host.Outcome.next.inj (h.symm.trans (exec_build_of_none hb))⟩
  | some N => exact .inr ⟨N, rfl, Host.Outcome.next.inj (h.symm.trans (exec_build_of_some hb))⟩

/-- `execBuild_ok`, with the state named. -/
theorem exec_build_ok {s t : State} (h : exec .build s = .next t) (he : t.err = false) :
    ∃ N, BuiltTree s.freqAt N ∧ t = completedOk (s.withTree N) :=
  execBuild_ok h he

/-! ## What the tree registers and the node memory hold -/

theorem BuiltTree.withTree_leafCount {s : State} {N : List Node} (h : BuiltTree s.freqAt N) :
    (s.withTree N).leafCount.toNat = (presentSyms s.freqAt).length := by
  have hlt := h.leaves_lt_length
  have hlen := h.length_le.1
  rw [State.withTree, BitVec.toNat_ofNat]
  omega

theorem BuiltTree.withTree_nodeCount {s : State} {N : List Node} (h : BuiltTree s.freqAt N) :
    (s.withTree N).nodeCount.toNat = N.length := by
  have hlen := h.length_le.1
  rw [State.withTree, BitVec.toNat_ofNat]
  omega

theorem BuiltTree.withTree_root {s : State} {N : List Node} (h : BuiltTree s.freqAt N) :
    (s.withTree N).root.toNat = N.length - 1 := by
  have hlen := h.length_le.1
  rw [State.withTree, BitVec.toNat_ofNat]
  omega

theorem State.withTree_nodeAt (s : State) {N : List Node} {k : Nat} (hk : k < N.length) :
    nodeAt (s.withTree N).node k = nodeAt N k :=
  nodeAt_append_left hk

/-- The entries past the tree are kept (R510). -/
theorem State.withTree_nodeAt_past (s : State) {N : List Node} {k : Nat} (hk : N.length ≤ k) :
    nodeAt (s.withTree N).node k = nodeAt s.node k :=
  nodeAt_append_drop hk

/-! ## The statements -/

/-- Settles O30: the builder makes no tree from an all-zero table. -/
theorem buildOfNothingRaisesEmptyInput : Obligations.BuildOfNothingRaisesEmptyInput := by
  unfold Obligations.BuildOfNothingRaisesEmptyInput
  exact fun s h => exec_build_of_none (buildTree_none.2 h)

/-- Settles O31: the state is `withTree`; the tree invariant relates the node count and the root to the leaf count. -/
theorem buildCompletesWithAPresentSymbol : Obligations.BuildCompletesWithAPresentSymbol := by
  unfold Obligations.BuildCompletesWithAPresentSymbol
  intro s hpresent
  obtain ⟨N, hN⟩ := exists_buildTree_iff.2 hpresent
  have hB := buildTree_spec hN
  have hT : TreeInv (completedOk (s.withTree N)) := hB.treeInv rfl rfl rfl rfl
  refine ⟨_, exec_build_of_some hN, rfl, hB.withTree_leafCount.trans (presentSyms_count _), hT.nodeCount, hT.rootLast,
    fun k hk => s.withTree_nodeAt_past ?_⟩
  rwa [← hB.withTree_nodeCount]

/-- Settles O32: leaf `k` holds the `k`-th present symbol, and a symbol's rank is its place among them. -/
theorem buildLeavesAscendBySymbol : Obligations.BuildLeavesAscendBySymbol := by
  unfold Obligations.BuildLeavesAscendBySymbol
  intro s t c h hc hf
  rcases exec_build_cases h with ⟨hnone, -⟩ | ⟨N, hN, rfl⟩
  · exact absurd (buildTree_none.1 hnone c hc) hf
  · have hB := buildTree_spec hN
    have hrank := (presentSyms_getD hc hf).1.trans hB.leaves_lt_length
    exact (s.withTree_nodeAt hrank).trans (hB.nodeAt_rank hc hf)

/-- Settles O33: with one present symbol the builder takes its second branch, whose two nodes are these. -/
theorem buildOfOneSymbolMakesTwoNodes : Obligations.BuildOfOneSymbolMakesTwoNodes := by
  unfold Obligations.BuildOfOneSymbolMakesTwoNodes
  intro s c hc hf hothers
  have hP := presentSyms_eq_singleton hc hf hothers
  refine ⟨_, exec_build_of_some (buildTree_of_singleton hP), rfl, ?_, rfl, rfl, rfl, rfl⟩
  exact congrArg (fun P => BitVec.ofNat 9 (List.length P)) hP

/-- Settles O34: the merge that made node `k` is one of the loop's, whose invariant says what it joined. -/
theorem buildMergesTheTwoSmallest : Obligations.BuildMergesTheTwoSmallest := by
  unfold Obligations.BuildMergesTheTwoSmallest
  intro s t k h he hL hk hkn
  obtain ⟨N, hB, rfl⟩ := exec_build_ok h he
  have hleaf : (completedOk (s.withTree N)).leafCount.toNat = _ := hB.withTree_leafCount
  have hcount : (completedOk (s.withTree N)).nodeCount.toNat = _ := hB.withTree_nodeCount
  have hlen := hB.length_le.1
  rw [hleaf] at hL hk ⊢
  rw [hcount] at hkn
  obtain ⟨a, b, hab⟩ := (hB.merged hL).merged k hk hkn
  have hM : MergedAt (completedOk (s.withTree N)).node _ k a b := hab.append_list hkn _
  obtain ⟨hleft, hright⟩ := hM.links (by omega)
  rw [hleft, hright]
  exact ⟨hM.memA, hM.memB, hM.below, hM.smallest⟩

/-- Settles O36: the root is the last node, whose frequency is the sum that the merge loop keeps. -/
theorem rootFrequencyIsTheSumOfTheTable : Obligations.RootFrequencyIsTheSumOfTheTable := by
  unfold Obligations.RootFrequencyIsTheSumOfTheTable
  intro s t h he
  obtain ⟨N, hB, rfl⟩ := exec_build_ok h he
  have hroot : (completedOk (s.withTree N)).root.toNat = _ := hB.withTree_root
  have hnode : nodeAt (completedOk (s.withTree N)).node (N.length - 1) = _ :=
    s.withTree_nodeAt (Nat.sub_one_lt_of_lt hB.leaves_lt_length)
  rw [hroot, hnode]
  exact hB.rootFreq

/-- Settles O37: equal tables give one result of the builder, and so one outcome of BUILD with the same tree. -/
theorem buildDependsOnlyOnTheTable : Obligations.BuildDependsOnlyOnTheTable := by
  unfold Obligations.BuildDependsOnlyOnTheTable
  intro s₁ s₂ t₁ t₂ htable h₁ h₂
  have hsame := buildTree_congr htable
  rcases exec_build_cases h₁ with ⟨hnone, rfl⟩ | ⟨N, hN, rfl⟩
  · obtain rfl := Host.Outcome.next.inj (h₂.symm.trans (exec_build_of_none (hsame.symm.trans hnone)))
    exact ⟨rfl, nofun⟩
  · obtain rfl := Host.Outcome.next.inj (h₂.symm.trans (exec_build_of_some (hsame.symm.trans hN)))
    refine ⟨rfl, fun _ => ⟨?_, rfl, rfl, fun k hk => ?_⟩⟩
    · exact congrArg (fun P => BitVec.ofNat 9 (List.length P)) (presentSyms_congr htable)
    · have hkN : k < N.length := by rwa [← (buildTree_spec hN).withTree_nodeCount]
      exact (s₁.withTree_nodeAt hkN).trans (s₂.withTree_nodeAt hkN).symm

end Sys2Proof.Machine
end

section
/-! SUPPORT. GENCODES from the tree it walks to the code table it leaves: its two outcomes, the entries of the table,
and the share of the code space each of them takes (R600..R609). -/

namespace Sys2Proof.Machine

open Sys2Proof

-- One after another, as above.
set_option Elab.async false

/-! ## The two outcomes of GENCODES -/

/-- `s` with the code table of the leaves `ls` (R601). -/
def State.withCodes (s : State) (ls : List (Symbol × BitString)) : State :=
  { s with code := codeTable ls, codesValid := true }

theorem exec_gencodes_of_noTree {s : State} (hv : s.treeValid = false) :
    exec .gencodes s = .next (completedErr s .noTree 0 0) := by
  simp [exec, execGencodes, hv, State.complete, raiseError_eq]

theorem exec_gencodes_of_walk {s : State} {ls : List (Symbol × BitString)} (hv : s.treeValid = true)
    (hw : codeWalk s.node walkFuel s.root.toNat [] = some ls) :
    exec .gencodes s = .next (completedOk (s.withCodes ls)) := by
  simp [exec, execGencodes, hv, hw, State.complete, succeed_eq, State.withCodes]

/-- What GENCODES on a valid tree does: it walks to each leaf on its path, and holds the table of these leaves. -/
theorem TreeInv.exec_gencodes {s t : State} (h : TreeInv s) (hv : s.treeValid = true)
    (he : exec .gencodes s = .next t) : ∃ ls, codeWalk s.node walkFuel s.root.toNat [] = some ls ∧ ls.Nodup ∧
      (∀ c q, (c, q) ∈ ls ↔ pathTo s q c) ∧ t = completedOk (s.withCodes ls) := by
  obtain ⟨ls, hwalk, hnodup, hls⟩ := codeWalk_root h
  exact ⟨ls, hwalk, hnodup, hls, Host.Outcome.next.inj (he.symm.trans (exec_gencodes_of_walk hv hwalk))⟩

/-! ## The entries of the table -/

section
variable {s t : State} {ls : List (Symbol × BitString)}

/-- A valid entry of the table is that of a path to a leaf of its symbol (R602, R608). -/
theorem TreeInv.codeAt_of_valid (h : TreeInv s) (hls : ∀ c q, (c, q) ∈ ls ↔ pathTo s q c)
    (ht : t.code = codeTable ls) {c : Symbol} (hc : (t.codeAt c).valid = true) :
    ∃ q, t.codeAt c = codeEntry q ∧ pathTo s q c ∧ 1 ≤ q.length ∧ q.length ≤ 255 ∧
      (codeEntry q).len.toNat = q.length := by
  rcases codeAt_codeTable h hls ht c with ⟨hinvalid, -⟩ | hentry
  · rw [hinvalid] at hc
    exact absurd hc Bool.false_ne_true
  · exact hentry

/-- A leaf's symbol has the entry of the leaf's path, the only path to it (R602, R605). -/
theorem TreeInv.codeAt_of_path (h : TreeInv s) (hls : ∀ c q, (c, q) ∈ ls ↔ pathTo s q c)
    (ht : t.code = codeTable ls) {c : Symbol} {q : BitString} (hq : pathTo s q c) :
    t.codeAt c = codeEntry q ∧ (codeEntry q).len.toNat = q.length := by
  rcases codeAt_codeTable h hls ht c with ⟨-, hnone⟩ | ⟨q', hentry, hq', -, -, hlen⟩
  · exact absurd hq (hnone q)
  · obtain rfl := h.code_unique hq' hq
    exact ⟨hentry, hlen⟩

/-! ## The code space (R609) -/

/-- The share of the code space that the code of symbol `n` takes, scaled by `2^255`. -/
def State.codeShare (s : State) (n : Nat) : Nat :=
  if (s.codeAt (BitVec.ofNat 8 n)).valid then 2 ^ (255 - (s.codeAt (BitVec.ofNat 8 n)).len.toNat) else 0

theorem TreeInv.codeShare_of_path (h : TreeInv s) (hls : ∀ c q, (c, q) ∈ ls ↔ pathTo s q c)
    (ht : t.code = codeTable ls) {c : Symbol} {q : BitString} (hq : pathTo s q c) :
    t.codeShare c.toNat = 2 ^ (255 - q.length) := by
  obtain ⟨hentry, hlen⟩ := h.codeAt_of_path hls ht hq
  have hvalid : (codeEntry q).valid = true := rfl
  rw [State.codeShare, BitVec.ofNat_toNat, BitVec.setWidth_eq, hentry, hlen, if_pos hvalid]

/-- The walk meets no symbol twice: a symbol has one path. -/
theorem TreeInv.walk_symbols_nodup (h : TreeInv s) (hls : ∀ c q, (c, q) ∈ ls ↔ pathTo s q c) (hnodup : ls.Nodup) :
    (ls.map fun l => l.1.toNat).Nodup := by
  refine hnodup.map_on ?_
  rintro ⟨c, p⟩ hp ⟨d, q⟩ hq heq
  obtain rfl : c = d := BitVec.eq_of_toNat_eq heq
  rw [h.code_unique ((hls c p).1 hp) ((hls c q).1 hq)]

/-- A symbol that the walk does not meet takes no share. -/
theorem TreeInv.codeShare_of_not_mem (h : TreeInv s) (hls : ∀ c q, (c, q) ∈ ls ↔ pathTo s q c)
    (ht : t.code = codeTable ls) {n : Nat} (hn : n < 256) (hmem : n ∉ ls.map fun l => l.1.toNat) :
    t.codeShare n = 0 := by
  refine if_neg fun hvalid => hmem ?_
  obtain ⟨q, -, hq, -⟩ := h.codeAt_of_valid hls ht hvalid
  exact List.mem_map.2 ⟨_, (hls _ q).2 hq, by simpa using hn⟩

/-- The shares of all symbols add up to those of the leaves met by the walk. -/
theorem TreeInv.sum_codeShare (h : TreeInv s) (hls : ∀ c q, (c, q) ∈ ls ↔ pathTo s q c) (hnodup : ls.Nodup)
    (ht : t.code = codeTable ls) :
    ((List.range 256).map t.codeShare).sum = (ls.map fun l => 2 ^ (255 - l.2.length)).sum := by
  have hsyms := h.walk_symbols_nodup hls hnodup
  have hsub : (ls.map fun l => l.1.toNat).toFinset ⊆ (List.range 256).toFinset := by
    intro n hn
    obtain ⟨l, -, rfl⟩ := List.mem_map.1 (List.mem_toFinset.1 hn)
    exact List.mem_toFinset.2 (List.mem_range.2 l.1.isLt)
  have hshare : ∀ l ∈ ls, t.codeShare l.1.toNat = 2 ^ (255 - l.2.length) :=
    fun l hl => h.codeShare_of_path hls ht ((hls l.1 l.2).1 hl)
  calc ((List.range 256).map t.codeShare).sum
    _ = ∑ n ∈ (List.range 256).toFinset, t.codeShare n := (List.sum_toFinset _ List.nodup_range).symm
    _ = ∑ n ∈ (ls.map fun l => l.1.toNat).toFinset, t.codeShare n :=
      (Finset.sum_subset hsub fun n hn hmem => h.codeShare_of_not_mem hls ht
        (List.mem_range.1 (List.mem_toFinset.1 hn)) (mt List.mem_toFinset.2 hmem)).symm
    _ = ((ls.map fun l => l.1.toNat).map t.codeShare).sum := List.sum_toFinset _ hsyms
    _ = (ls.map fun l => 2 ^ (255 - l.2.length)).sum :=
      congrArg List.sum (List.map_map.trans (List.map_congr_left hshare))

end

/-- Over a single leaf the walk goes left once (R505, R606): its symbol's code is `0`. -/
theorem TreeInv.codeWalk_single {s : State} (h : TreeInv s) (hL : s.leafCount.toNat = 1) :
    codeWalk s.node walkFuel s.root.toNat [] = some [((nodeAt s.node 0).sym, [false])] := by
  have hn := h.nodeCount
  rw [if_pos hL] at hn
  have hroot : s.root.toNat = 1 := by rw [h.rootLast, hn]
  obtain ⟨hhasL, hleft, hhasR, -⟩ := h.single hL
  have hinner := (h.internal 1 hL.le (by omega)).1
  have hleaf : (nodeAt s.node 0).leaf = true := (h.isLeaf_iff (by omega)).2 (by omega)
  simp [walkFuel, codeWalk, hroot, hinner, hhasL, hhasR, hleft, hleaf]

/-- The leaves that the walk meets fill the code space, or half of it over a single leaf (R609). -/
theorem TreeInv.walk_share {s : State} (h : TreeInv s) {ls : List (Symbol × BitString)}
    (hwalk : codeWalk s.node walkFuel s.root.toNat [] = some ls) :
    (ls.map fun l => 2 ^ (255 - l.2.length)).sum = if s.leafCount.toNat = 1 then 2 ^ 254 else 2 ^ 255 := by
  split
  next hL =>
    obtain rfl := Option.some.inj (hwalk.symm.trans (h.codeWalk_single hL))
    simp
  next hL =>
    have hn := h.nodeCount
    rw [if_neg hL] at hn
    have hrange := h.leafRange
    have hroot := h.rootLast
    exact codeWalk_share h (by omega) walkFuel s.root [] h.root_lt s.root.isLt (by rw [List.length_nil]; omega) hwalk

/-! ## The statements -/

/-- Settles O38: without a tree GENCODES takes its error branch. -/
theorem gencodesWithoutATreeRaisesNoTree : Obligations.GencodesWithoutATreeRaisesNoTree := by
  unfold Obligations.GencodesWithoutATreeRaisesNoTree
  exact fun _ => exec_gencodes_of_noTree

/-- Settles O39: the walk of a valid tree ends, and the table of the leaves it meets is a table of that tree, which
GENCODES keeps. -/
theorem gencodesCompletesWithTheCodeTable : Obligations.GencodesCompletesWithTheCodeTable := by
  unfold Obligations.GencodesCompletesWithTheCodeTable
  intro s hv h
  obtain ⟨ls, hwalk, -, hls⟩ := codeWalk_root h
  have hkept : TreeInv (completedOk (s.withCodes ls)) := h.congr rfl rfl rfl rfl
  exact ⟨_, exec_gencodes_of_walk hv hwalk, rfl, codesInv_of_table hkept hls rfl⟩

/-- Settles O40: a valid code is a path to a leaf, whose length the tree bounds. -/
theorem codeLengthsAreOneTo255 : Obligations.CodeLengthsAreOneTo255 := by
  unfold Obligations.CodeLengthsAreOneTo255
  intro s t c hv h he hc
  obtain ⟨ls, -, -, hls, rfl⟩ := h.exec_gencodes hv he
  obtain ⟨q, hentry, -, hpos, hle, hlen⟩ := h.codeAt_of_valid hls rfl hc
  rw [hentry]
  exact ⟨hpos, hle, hlen⟩

/-- Settles O41: the valid codes take the shares of the leaves that the walk meets, and these fill the code space. -/
theorem codesFillTheCodeSpace : Obligations.CodesFillTheCodeSpace := by
  unfold Obligations.CodesFillTheCodeSpace
  intro s t hv h he
  obtain ⟨ls, hwalk, hnodup, hls, rfl⟩ := h.exec_gencodes hv he
  exact (h.sum_codeShare hls hnodup rfl).trans (h.walk_share hwalk)

end Sys2Proof.Machine
end

section
/-! SUPPORT. PACK from the symbol loop to the state it leaves: its errors, by the check that fails first, and the packed
stream, read back bit by bit (R700..R708). -/

namespace Sys2Proof.Machine

open Sys2Proof

-- One after another, as above.
set_option Elab.async false

/-! ## The errors of PACK, in the order of the checks (R708) -/

theorem exec_pack_of_tooLong {s : State} (h : s.params.symDepth < s.symCount.toNat) :
    exec .pack s = .next (completedErr s .lengthRange s.symCount (BitVec.ofNat 32 s.params.symDepth)) := by
  simp only [exec, execPack, runPack, gt_iff_lt, if_pos h, State.complete, raiseError_eq]

/-- PACK on a buffer it may read ends with the error of the loop. -/
theorem exec_pack_of_loop_error {s : State} {f : CmdFail} (hM : s.symCount.toNat ≤ s.params.symDepth)
    (h : packLoop s (List.range s.symCount.toNat) 0 [] = .error f) :
    exec .pack s = .next (completedErr s f.code f.info f.aux) := by
  simp only [exec, execPack, runPack, gt_iff_lt, if_neg (Nat.not_lt.2 hM), h, State.complete, raiseError_eq]

/-- The loop passes the first `m` symbols, when they have codes that fit, with their stream (R703). -/
theorem packLoop_range_append {s : State} {m : Nat} (ks : List Nat) (hc : ∀ i < m, s.hasCode i)
    (hfit : s.codeLength m ≤ 8 * s.params.byteDepth) :
    packLoop s (List.range m ++ ks) 0 [] = packLoop s ks (s.codeLength m) (s.codeStream m) := by
  rw [packLoop_pass ks (fun i hi => hc i (List.mem_range.1 hi)) (by rwa [State.lengthOf_range, Nat.zero_add]),
    State.lengthOf_range, State.bitsOf_range, Nat.zero_add, List.nil_append]

/-- The loop comes to symbol `j`, when the symbols before it have codes that fit. -/
theorem packLoop_reaches {s : State} {m j : Nat} (hj : j < m) (hc : ∀ i < j, s.hasCode i)
    (hfit : s.codeLength j ≤ 8 * s.params.byteDepth) :
    packLoop s (List.range m) 0 [] =
      packLoop s (j :: List.range' (j + 1) (m - j - 1)) (s.codeLength j) (s.codeStream j) := by
  rw [range_cut hj, packLoop_range_append _ hc hfit]

theorem packLoop_range {s : State} {m : Nat} (hc : ∀ j < m, s.hasCode j)
    (hfit : s.codeLength m ≤ 8 * s.params.byteDepth) :
    packLoop s (List.range m) 0 [] = .ok (s.codeLength m, s.codeStream m) := by
  rw [← List.append_nil (List.range m), packLoop_range_append [] hc hfit, packLoop]

/-! ## The state a successful PACK leaves -/

/-- `s` with the stream of its symbols in `BYTE_BUF`, and its two counts (R706, R707). -/
def State.withPacked (s : State) : State :=
  { s.writeBytes 0 (packBytes (s.codeLength s.symCount.toNat) (s.codeStream s.symCount.toNat)) with
    bitCount := BitVec.ofNat 32 (s.codeLength s.symCount.toNat)
    byteCount := BitVec.ofNat 32 (ceil8 (s.codeLength s.symCount.toNat)) }

theorem exec_pack_of_fits {s : State} (hM : s.symCount.toNat ≤ s.params.symDepth)
    (hc : ∀ j < s.symCount.toNat, s.hasCode j) (hfit : s.codeLength s.symCount.toNat ≤ 8 * s.params.byteDepth) :
    exec .pack s = .next (completedOk s.withPacked) := by
  simp only [exec, execPack, runPack, gt_iff_lt, if_neg (Nat.not_lt.2 hM), packLoop_range hc hfit, State.complete,
    succeed_eq, State.withPacked]

/-- A stream that fits in `BYTE_BUF` has no more than `2^19` bits, so the counts hold its lengths (R705). -/
theorem withPacked_counts {s : State} (hp : s.params.legal = true)
    (hfit : s.codeLength s.symCount.toNat ≤ 8 * s.params.byteDepth) :
    s.withPacked.bitCount.toNat = s.codeLength s.symCount.toNat ∧
    s.withPacked.byteCount.toNat = ceil8 (s.codeLength s.symCount.toNat) := by
  obtain ⟨-, -, -, hdepth⟩ := (Params.legal_iff s.params).1 hp
  simp only [State.withPacked, BitVec.toNat_ofNat, ceil8]
  omega

/-- A stream's length is the sum of its code lengths, as a current code table has lengths that are those of its codes. -/
theorem MachineInv.codeStream_length {s : State} (h : MachineInv s) {m : Nat} (hc : ∀ j < m, s.hasCode j) :
    (s.codeStream m).length = s.codeLength m := by
  rcases Nat.eq_zero_or_pos m with rfl | hm
  · rfl
  · exact bitsOf_length (h.codes (hc 0 hm).1) fun j hj => hc j (List.mem_range.1 hj)

/-- A bit of a written byte is a bit of the stream, and 0 past its end (R706). -/
theorem streamBit_withPacked {s : State} (hlen : (s.codeStream s.symCount.toNat).length = s.codeLength s.symCount.toNat)
    {i : Nat} (hi : i < 8 * ceil8 (s.codeLength s.symCount.toNat)) :
    s.withPacked.streamBit i = (s.codeStream s.symCount.toNat).getD i false := by
  have h := streamBit_packed s _ (s.codeStream s.symCount.toNat) hi
  rwa [List.take_of_length_le hlen.le] at h

theorem streamBits_withPacked {s : State}
    (hlen : (s.codeStream s.symCount.toNat).length = s.codeLength s.symCount.toNat) :
    s.withPacked.streamBits (s.codeLength s.symCount.toNat) = s.codeStream s.symCount.toNat := by
  refine List.ext_getElem (by simp [State.streamBits, hlen]) fun i hi hi' => ?_
  have hbyte : i < 8 * ceil8 (s.codeLength s.symCount.toNat) := by rw [ceil8]; omega
  simp [State.streamBits, streamBit_withPacked hlen hbyte, hi']

/-! ## The statements -/

/-- Settles O43: the loop comes to the symbol without a code, and ends with its error. -/
theorem packReportsTheFirstUnknownSymbol : Obligations.PackReportsTheFirstUnknownSymbol := by
  unfold Obligations.PackReportsTheFirstUnknownSymbol
  intro s j hM hj hno hc hfit
  exact exec_pack_of_loop_error hM ((packLoop_reaches hj hc hfit).trans (packLoop_unknown _ hno))

/-- Settles O44: the loop comes to the symbol whose code does not fit, and ends with its error. -/
theorem packReportsTheFirstOverflow : Obligations.PackReportsTheFirstOverflow := by
  unfold Obligations.PackReportsTheFirstOverflow
  intro s j hM hj hc hfit hover
  rw [State.codeLength_succ] at hover
  exact exec_pack_of_loop_error hM
    ((packLoop_reaches hj (fun i hi => hc i hi.le) hfit).trans (packLoop_overflow _ (hc j le_rfl) hover))

/-- Settles O45: the loop takes all of the symbols, and the bytes that PACK writes hold the bits of their stream. -/
theorem packCompletesWithThePackedStream : Obligations.PackCompletesWithThePackedStream := by
  unfold Obligations.PackCompletesWithThePackedStream
  intro s h hM hc hfit
  have hlen := h.codeStream_length hc
  obtain ⟨hbits, hbytes⟩ := withPacked_counts h.params hfit
  refine ⟨_, exec_pack_of_fits hM hc hfit, rfl, hbits, hbytes, ?_, fun i hlo hhi => ?_, fun k hk => ?_⟩
  · exact (congrArg s.withPacked.streamBits hbits).trans (streamBits_withPacked hlen)
  · have hend : (s.codeStream s.symCount.toNat).length ≤ i := (hlen.trans hbits.symm).trans_le hlo
    exact (streamBit_withPacked hlen (hhi.trans_eq (congrArg (8 * ·) hbytes))).trans (List.getD_eq_default _ _ hend)
  · exact byteAt_packed s _ _ (hbytes.symm.trans_le hk)

/-- Settles O42: the length check is the first of PACK's checks. -/
theorem packChecksItsInputLength : Obligations.PackChecksItsInputLength := by
  unfold Obligations.PackChecksItsInputLength
  exact fun _ => exec_pack_of_tooLong

end Sys2Proof.Machine
end

section
/-! SUPPORT. UNPACK from the bit loop to the state it leaves: its two checks, how far the loop comes in a stream of
codes and a part of a further one, and the outcome at that bit (R800..R811). -/

namespace Sys2Proof.Machine

open Sys2Proof

-- One after another, as above.
set_option Elab.async false

/-! ## The outcomes of UNPACK, by what the bit loop answers (R801, R802) -/

theorem exec_unpack_of_noTree {s : State} (hv : s.treeValid = false) :
    exec .unpack s = .next (completedErr s .noTree 0 0) := by
  simp [exec, execUnpack, runUnpack, hv, State.complete, raiseError_eq]

theorem exec_unpack_of_tooLong {s : State} (hv : s.treeValid = true) (hd : s.params.byteDepth < s.byteCount.toNat) :
    exec .unpack s = .next (completedErr s .lengthRange s.byteCount (BitVec.ofNat 32 s.params.byteDepth)) := by
  simp [exec, execUnpack, runUnpack, hv, hd, State.complete, raiseError_eq]

/-- `s` with the decoded symbols `cs` in `SYM_BUF`, and their number (R808). -/
def State.withSyms (s : State) (cs : List Symbol) : State :=
  { s.writeSyms 0 cs with symCount := BitVec.ofNat 32 cs.length }

/-- A symbol of the buffer after UNPACK is a decoded one, and past their end the one before (R808). -/
theorem State.symAt_withSyms (s : State) (cs : List Symbol) (i : Nat) :
    (s.withSyms cs).symAt i = (cs[i]?).getD (s.symAt i) :=
  s.symAt_writeSyms 0 i cs

section
variable {s : State} (hv : s.treeValid = true) (hd : s.byteCount.toNat ≤ s.params.byteDepth)
include hv hd

/-- When the checks pass, the command's result is decided by the loop over the supplied bits. -/
theorem runUnpack_of_loop {r : Except CmdFail (NodeIdx × List Symbol)}
    (h : unpackLoop s (List.range s.suppliedBits) s.root [] = r) :
    runUnpack s = r.bind fun x =>
      if x.1 ≠ s.root ∨ s.suppliedBits < s.bitCount.toNat then
        .error { code := .truncatedStream, info := BitVec.ofNat 32 s.suppliedBits, aux := BitVec.ofNat 32 x.2.length }
      else .ok (s.withSyms x.2) := by
  rw [runUnpack, if_neg (by simp [hv]), if_neg (Nat.not_lt.2 hd), h]
  cases r <;> rfl

theorem exec_unpack_of_loop_error {f : CmdFail}
    (h : unpackLoop s (List.range s.suppliedBits) s.root [] = .error f) :
    exec .unpack s = .next (completedErr s f.code f.info f.aux) := by
  simp only [exec, execUnpack, runUnpack_of_loop hv hd h, Except.bind, State.complete, raiseError_eq]

theorem exec_unpack_of_truncated {k : NodeIdx} {cs : List Symbol}
    (h : unpackLoop s (List.range s.suppliedBits) s.root [] = .ok (k, cs))
    (hcut : k ≠ s.root ∨ s.suppliedBits < s.bitCount.toNat) :
    exec .unpack s = .next (completedErr s .truncatedStream (BitVec.ofNat 32 s.suppliedBits)
      (BitVec.ofNat 32 cs.length)) := by
  simp only [exec, execUnpack, runUnpack_of_loop hv hd h, Except.bind, if_pos hcut, State.complete, raiseError_eq]

theorem exec_unpack_of_stream {cs : List Symbol} (hb : s.bitCount.toNat ≤ 8 * s.byteCount.toNat)
    (hs : streamOf s cs (s.streamBits s.bitCount.toNat)) (hfit : cs.length ≤ s.params.symDepth) :
    exec .unpack s = .next (completedOk (s.withSyms cs)) := by
  simp only [exec, execUnpack, runUnpack_stream hv hd hb hs hfit, State.complete, succeed_eq, State.withSyms]

end

/-! ## One bit of the loop -/

theorem unpackLoop_absent {s : State} {i : Nat} {k : NodeIdx} {out : List Symbol} (is : List Nat)
    (hc : childOf s.node k (s.streamBit i) = none) :
    unpackLoop s (i :: is) k out =
      .error { code := .invalidPath, info := BitVec.ofNat 32 i, aux := k.setWidth 32 } := by
  simp only [unpackLoop, hc]

theorem unpackLoop_full {s : State} {i : Nat} {k x : NodeIdx} {out : List Symbol} (is : List Nat)
    (hc : childOf s.node k (s.streamBit i) = some x) (hleaf : (nodeAt s.node x.toNat).leaf = true)
    (hfull : out.length = s.params.symDepth) :
    unpackLoop s (i :: is) k out =
      .error { code := .outputOverflow, info := BitVec.ofNat 32 i, aux := BitVec.ofNat 32 s.params.symDepth } := by
  simp only [unpackLoop, hc, if_pos hleaf, if_pos hfull]

/-! ## How far the loop comes (R803)

The first bits are the stream `T` of the symbols `cs`, and then `r`, which leads from the root to node `k` and meets no
leaf. -/

section
variable {s : State} {cs : List Symbol} {T r : BitString} {k : NodeIdx} (hfit : cs.length ≤ s.params.symDepth)
  (hs : streamOf s cs T) (hw : walkPath s.node s.root r = some k) (hn : meetsNoLeaf s r)
include hfit hs hw hn

theorem unpackLoop_prefix {is₁ is₂ : List Nat} (h₁ : is₁.map s.streamBit = T) (h₂ : is₂.map s.streamBit = r)
    (js : List Nat) : unpackLoop s (is₁ ++ (is₂ ++ js)) s.root [] = unpackLoop s js k cs := by
  subst h₁ h₂
  rw [unpackLoop_stream (is₂ ++ js) hs (by simpa using hfit), unpackLoop_walk js hw hn, List.nil_append]

/-- With no bit left the loop ends at `k`. -/
theorem unpackLoop_of_end {n : Nat} (hb : s.streamBits n = T ++ r) :
    unpackLoop s (List.range n) s.root [] = .ok (k, cs) := by
  obtain ⟨is₁, is₂, hcut, h₁, h₂⟩ := List.map_eq_append_iff.1 hb
  have h := unpackLoop_prefix hfit hs hw hn h₁ h₂ []
  rwa [List.append_nil, ← hcut] at h

/-- With a further bit `b` the loop comes to it at `k`. -/
theorem unpackLoop_reaches {n : Nat} {b : Bool} {rest : BitString} (hb : s.streamBits n = T ++ r ++ b :: rest) :
    s.streamBit (T.length + r.length) = b ∧ ∃ js,
      unpackLoop s (List.range n) s.root [] = unpackLoop s ((T.length + r.length) :: js) k cs := by
  obtain ⟨is, is', hcut, h, h'⟩ := List.map_eq_append_iff.1 hb
  obtain ⟨is₁, is₂, rfl, h₁, h₂⟩ := List.map_eq_append_iff.1 h
  obtain ⟨i, js, rfl, hi, -⟩ := List.map_eq_cons_iff.1 h'
  obtain rfl : i = T.length + r.length := by
    rw [range_split hcut, ← h₁, ← h₂]
    simp
  refine ⟨hi, js, ?_⟩
  rw [hcut, List.append_assoc]
  exact unpackLoop_prefix hfit hs hw hn h₁ h₂ _

end

/-! ## The single-symbol tree (R505, R811) -/

section
variable {s : State} (h : TreeInv s) (hL : s.leafCount.toNat = 1)
include h hL

theorem TreeInv.root_single : s.root = 1 := by
  have hn := h.nodeCount
  rw [if_pos hL] at hn
  refine BitVec.eq_of_toNat_eq ?_
  rw [h.rootLast, hn]
  rfl

/-- The bit 0 is the code of the single symbol. -/
theorem TreeInv.decodesTo_single : Machine.decodesTo s [false] (nodeAt s.node 0).sym := by
  obtain ⟨ls, hwalk, -, hls⟩ := codeWalk_root h
  obtain rfl := Option.some.inj (hwalk.symm.trans (h.codeWalk_single hL))
  exact h.decodesTo ((hls _ _).1 (List.mem_singleton.2 rfl))

/-- `n` zero bits are the codes of `n` copies of the single symbol. -/
theorem TreeInv.streamOf_zeros (n : Nat) :
    streamOf s (List.replicate n (nodeAt s.node 0).sym) (List.replicate n false) := by
  refine ⟨List.replicate n [false], by simp, ?_⟩
  induction n with
  | zero => exact .nil
  | succ n ih => exact .cons (h.decodesTo_single hL) ih

theorem TreeInv.root_noRight_of_single : (nodeAt s.node s.root.toNat).hasR = false := by
  obtain ⟨-, -, hright, -⟩ := h.single hL
  rwa [h.root_single hL]

end

theorem streamBits_zeros {s : State} {n : Nat} (h : ∀ i < n, s.streamBit i = false) :
    s.streamBits n = List.replicate n false :=
  List.eq_replicate_iff.2 ⟨by simp [State.streamBits], List.forall_mem_map.2 fun i hi => h i (List.mem_range.1 hi)⟩

/-- The bits before one of the supplied bits, the bit, and the bits after it. -/
theorem streamBits_cut (s : State) {n i : Nat} (hi : i < n) :
    ∃ rest, s.streamBits n = s.streamBits i ++ s.streamBit i :: rest :=
  ⟨_, by rw [State.streamBits, range_cut hi, List.map_append, List.map_cons]; rfl⟩

/-! ## Errors, and what UNPACK reads -/

/-- The errors of the command are those of its checks, of the loop, and of a stream that ends too early (R809). -/
theorem runUnpack_error_cases {s : State} {f : CmdFail} (h : runUnpack s = .error f) :
    f.code = .noTree ∨ f.code = .lengthRange ∨ f.code = .truncatedStream ∨
      unpackLoop s (List.range s.suppliedBits) s.root [] = .error f := by
  unfold runUnpack at h
  split at h
  · cases h; exact .inl rfl
  split at h
  · cases h; exact .inr (.inl rfl)
  split at h
  · cases h; exact .inr (.inr (.inr ‹_›))
  split at h
  · cases h; exact .inr (.inr (.inl rfl))
  · cases h

/-- In a tree with two leaves or more the loop starts at an inner node, and so never misses a child (R804). -/
theorem TreeInv.unpackLoop_root {s : State} (h : TreeInv s) (hL : 2 ≤ s.leafCount.toNat) {is : List Nat} {f : CmdFail}
    (hf : unpackLoop s is s.root [] = .error f) : f.code = .outputOverflow := by
  have hn := h.nodeCount
  rw [if_neg (by omega)] at hn
  have hroot := h.rootLast
  exact unpackLoop_no_invalidPath h hL (by omega) h.root_lt hf

/-- UNPACK on two states with the same tree, counts and supplied bits ends with one error or one list of symbols. -/
theorem runUnpack_congr {s₁ s₂ : State} (hp : s₁.params = s₂.params) (hv : s₁.treeValid = s₂.treeValid)
    (hbits : s₁.bitCount = s₂.bitCount) (hbytes : s₁.byteCount = s₂.byteCount) (hn : s₁.node = s₂.node)
    (hr : s₁.root = s₂.root) (hb : ∀ i < s₁.suppliedBits, s₁.streamBit i = s₂.streamBit i) :
    (∃ f, runUnpack s₁ = .error f ∧ runUnpack s₂ = .error f) ∨
    ∃ cs, runUnpack s₁ = .ok (s₁.withSyms cs) ∧ runUnpack s₂ = .ok (s₂.withSyms cs) := by
  have hA : s₁.suppliedBits = s₂.suppliedBits := by rw [State.suppliedBits, State.suppliedBits, hbits, hbytes]
  have hloop := unpackLoop_congr hn hr hp (fun i hi => hb i (List.mem_range.1 hi)) s₁.root []
  rw [runUnpack, runUnpack, ← hp, ← hv, ← hbits, ← hbytes, ← hr, ← hA, ← hloop]
  split
  · exact .inl ⟨_, rfl, rfl⟩
  split
  · exact .inl ⟨_, rfl, rfl⟩
  cases unpackLoop s₁ (List.range s₁.suppliedBits) s₁.root [] with
  | error f => exact .inl ⟨f, rfl, rfl⟩
  | ok x =>
    dsimp only
    split
    · exact .inl ⟨_, rfl, rfl⟩
    · exact .inr ⟨_, rfl, rfl⟩

theorem streamOf_congr {s t : State} (hn : t.node = s.node) (hr : t.root = s.root) {cs : List Symbol} {T : BitString}
    (h : streamOf s cs T) : streamOf t cs T := by
  have hdec : decodesTo t = decodesTo s := by
    funext p c
    simp only [decodesTo, pathTo, meetsNoLeaf, hn, hr]
  rwa [streamOf, hdec]

/-! ## The statements -/

/-- Settles O47: the loop takes the codes one by one and ends at the root with their symbols. -/
theorem unpackCompletesWithTheDecodedSymbols : Obligations.UnpackCompletesWithTheDecodedSymbols := by
  unfold Obligations.UnpackCompletesWithTheDecodedSymbols
  intro s cs hv hd hb hs hfit
  refine ⟨_, exec_unpack_of_stream hv hd hb hs hfit, rfl, fun i hi => ?_, fun i hi => ?_⟩
  · exact (s.symAt_withSyms cs i).trans (by simp [hi])
  · exact (s.symAt_withSyms cs i).trans (by simp [hi])

/-- Settles O48: the loop comes to the bit `b` at node `k`, which has no such child. -/
theorem unpackReportsAnInvalidPath : Obligations.UnpackReportsAnInvalidPath := by
  unfold Obligations.UnpackReportsAnInvalidPath
  intro s cs T r rest b k hv hd hfit hs hw hn hchild hb
  obtain ⟨rfl, js, hloop⟩ := unpackLoop_reaches hfit hs hw hn hb
  exact exec_unpack_of_loop_error hv hd (hloop.trans (unpackLoop_absent js (childOf_none.2 hchild)))

/-- Settles O49: the loop comes to the last bit of the code `p` with a full buffer, and that bit leads to a leaf. -/
theorem unpackReportsAnOverflow : Obligations.UnpackReportsAnOverflow := by
  unfold Obligations.UnpackReportsAnOverflow
  rintro s cs T p rest c hv hd hfull hs ⟨hne, ⟨x, hpath, hleaf, -⟩, hn⟩ hb
  obtain ⟨r, b, rfl⟩ : ∃ r b, p = r ++ [b] := ⟨_, _, (List.dropLast_append_getLast hne).symm⟩
  obtain ⟨k, hw, hchild⟩ := walkPath_snoc.1 hpath
  rw [List.dropLast_concat] at hn
  have hb' : s.streamBits s.suppliedBits = T ++ r ++ b :: rest := hb.trans (by simp)
  obtain ⟨rfl, js, hloop⟩ := unpackLoop_reaches hfull.le hs hw hn hb'
  rw [List.length_append, List.length_singleton, ← Nat.add_assoc, Nat.add_sub_cancel]
  exact exec_unpack_of_loop_error hv hd (hloop.trans (unpackLoop_full js hchild hleaf hfull))

/-- Settles O50: the loop ends at node `k`, inside a code or with fewer bits than declared. -/
theorem unpackReportsATruncatedStream : Obligations.UnpackReportsATruncatedStream := by
  unfold Obligations.UnpackReportsATruncatedStream
  intro s cs T r k hv hd hfit hs hw hn hb hcut
  have hcut' : k ≠ s.root ∨ s.suppliedBits < s.bitCount.toNat := hcut.imp_right (min_lt_of_right_lt ·)
  exact exec_unpack_of_truncated hv hd (unpackLoop_of_end hfit hs hw hn hb) hcut'

/-- Settles O51: zero bits are codes of the single symbol, so these are cases of O47 and O48. -/
theorem unpackOfTheSingleSymbolTree : Obligations.UnpackOfTheSingleSymbolTree := by
  unfold Obligations.UnpackOfTheSingleSymbolTree
  intro s hv h hL hd hsupplied
  have hL' : s.leafCount.toNat = 1 := by rw [hL]; rfl
  refine ⟨fun hzero hfit => ?_, fun i hi hfit hzero hone => ?_⟩
  · have hs := h.streamOf_zeros hL' s.bitCount.toNat
    rw [← streamBits_zeros hzero] at hs
    refine ⟨_, exec_unpack_of_stream hv hd hsupplied hs (by simpa using hfit), rfl, ?_, fun i hi => ?_⟩
    · exact (congrArg (BitVec.ofNat 32) (List.length_replicate ..)).trans (by simp)
    · exact (s.symAt_withSyms _ i).trans (by simp [hi])
  · obtain ⟨rest, hcut⟩ := streamBits_cut s hi
    rw [streamBits_zeros hzero, hone, ← min_eq_left hsupplied] at hcut
    have hn : meetsNoLeaf s [] := fun _ _ hne hpre => absurd (List.prefix_nil.1 hpre) hne
    have herr := unpackReportsAnInvalidPath s _ _ [] rest true s.root hv hd (by simpa using hfit)
      (h.streamOf_zeros hL' i) rfl hn (h.root_noRight_of_single hL') (by rw [hcut, List.append_nil])
    rw [herr, h.root_single hL']
    simp

/-- Settles O52: of the errors of UNPACK only the loop's can be INVALID_PATH, and in such a tree the loop's is not. -/
theorem invalidPathNeedsASingleSymbolTree : Obligations.InvalidPathNeedsASingleSymbolTree := by
  unfold Obligations.InvalidPathNeedsASingleSymbolTree
  intro s t h hL he
  obtain rfl : s.complete (runUnpack s) = t := Host.Outcome.next.inj he
  cases hr : runUnpack s with
  | ok u => simp [State.complete]
  | error f =>
    simp only [State.complete, State.raiseError_errcode]
    rcases runUnpack_error_cases hr with hf | hf | hf | hloop
    · simp [hf]
    · simp [hf]
    · simp [hf]
    · simp [h.unpackLoop_root hL hloop]

/-- Settles O53: the two runs end alike, and in both the symbols are the decoded ones. -/
theorem unpackReadsOnlyTheSuppliedBitsAndTheTree : Obligations.UnpackReadsOnlyTheSuppliedBitsAndTheTree := by
  unfold Obligations.UnpackReadsOnlyTheSuppliedBitsAndTheTree
  intro s₁ s₂ t₁ t₂ hp hv hbits hbytes hn hr hb he₁ he₂
  obtain rfl : s₁.complete (runUnpack s₁) = t₁ := Host.Outcome.next.inj he₁
  obtain rfl : s₂.complete (runUnpack s₂) = t₂ := Host.Outcome.next.inj he₂
  rcases runUnpack_congr hp hv hbits hbytes hn hr hb with ⟨f, h₁, h₂⟩ | ⟨cs, h₁, h₂⟩ <;> rw [h₁, h₂]
  · exact ⟨rfl, rfl, fun _ => ⟨rfl, rfl⟩, nofun⟩
  · refine ⟨rfl, rfl, nofun, fun _ => ⟨rfl, fun i hi => ?_⟩⟩
    have hlt : i < cs.length := hi.trans_le (Nat.mod_le _ _)
    exact (s₁.symAt_withSyms cs i).trans (.trans (by simp [hlt]) (s₂.symAt_withSyms cs i).symm)

/-- Settles O54: the stream PACK leaves is codes of the buffer's symbols, so UNPACK writes each where it stood. -/
theorem unpackAfterPackGivesTheSymbolsBack : Obligations.UnpackAfterPackGivesTheSymbolsBack := by
  unfold Obligations.UnpackAfterPackGivesTheSymbolsBack
  intro s t hInv hcodes he herr
  obtain ⟨u, hu, -⟩ := State.complete_ok (Host.Outcome.next.inj he) herr
  obtain ⟨hM, hc, hfit, -⟩ := runPack_ok hu
  obtain rfl : completedOk s.withPacked = t := Host.Outcome.next.inj ((exec_pack_of_fits hM hc hfit).symm.trans he)
  obtain ⟨hbits, hbytes⟩ := withPacked_counts hInv.params hfit
  have hv : s.treeValid = true := hInv.status.codesTree hcodes
  have hs : streamOf s ((List.range s.symCount.toNat).map s.symAt) (s.codeStream s.symCount.toNat) :=
    codeStream_streamOf (hInv.tree hv) (hInv.codes hcodes) fun j hj => hc j (List.mem_range.1 hj)
  rw [← streamBits_withPacked (hInv.codeStream_length hc), ← hbits] at hs
  have hd : s.withPacked.byteCount.toNat ≤ s.params.byteDepth := by rw [hbytes, ceil8]; omega
  have hb : s.withPacked.bitCount.toNat ≤ 8 * s.withPacked.byteCount.toNat := by rw [hbits, hbytes, ceil8]; omega
  have hM' : ((List.range s.symCount.toNat).map s.symAt).length ≤ s.params.symDepth := by simpa using hM
  refine ⟨_, exec_unpack_of_stream (s := completedOk s.withPacked) hv hd hb (streamOf_congr rfl rfl hs) hM', rfl, ?_,
    fun i => ?_⟩
  · simp [State.withSyms, completedOk]
  · have hkept : (completedOk s.withPacked).symAt i = s.symAt i := State.symAt_congr rfl rfl i
    refine (State.symAt_withSyms _ _ i).trans ?_
    by_cases hi : i < s.symCount.toNat <;> simp [hi, hkept]

/-- Settles O46: the checks of UNPACK come first, in this order. -/
theorem unpackChecksItsPreconditions : Obligations.UnpackChecksItsPreconditions := by
  unfold Obligations.UnpackChecksItsPreconditions
  exact fun _ => ⟨exec_unpack_of_noTree, exec_unpack_of_tooLong⟩

end Sys2Proof.Machine
end

section
/-! SUPPORT. Completion and errors (R1005): what a command that ends with an error leaves. -/

namespace Sys2Proof.Machine

open Sys2Proof

-- One after another, as above.
set_option Elab.async false

/-- Settles O29: a command that ends with an error is `raiseError` on the state before it, which sets the completion
fields only. -/
theorem failedCommandsChangeOnlyTheCompletionFields : Obligations.FailedCommandsChangeOnlyTheCompletionFields := by
  unfold Obligations.FailedCommandsChangeOnlyTheCompletionFields
  intro i s t hi hexec herr
  obtain ⟨r, hr, -⟩ := exec_command hi hexec
  obtain ⟨f, -, rfl⟩ := State.complete_err hr.symm herr
  exact raiseError_eq s f

end Sys2Proof.Machine
end

section
/-! SUPPORT. Progress: what a command records when it ends, and that from the invariant every operation the machine
fetches answers a next state (R1104, R1105, R1006). -/

namespace Sys2Proof.Machine

open Sys2Proof

-- One after another, as above.
set_option Elab.async false

/-! ## What a command records -/

/-- Settles O28: a command ends with `succeed` or with `raiseError`, and its updates before that leave LASTOP, the
pending flags and the information words alone. -/
theorem commandsRecordTheirCompletion : Obligations.CommandsRecordTheirCompletion := by
  unfold Obligations.CommandsRecordTheirCompletion
  intro i s t hi h
  obtain ⟨r, rfl, hok, herr⟩ := exec_command hi h
  cases r with
  | error f => exact ⟨rfl, rfl, rfl, .inr ⟨rfl, herr f rfl, rfl⟩⟩
  | ok u =>
    obtain ⟨hlast, hirq, hinfo, haux, -⟩ := hok u rfl
    exact ⟨rfl, rfl, hlast, .inl ⟨rfl, rfl, congrArg (· ||| irqOk) hirq, hinfo, haux⟩⟩

/-- A command takes no event (R1104). -/
theorem exec_command_inbox {i : Instr} {s t : State} (hi : isCommand i) (h : exec i s = .next t) :
    t.inbox = s.inbox := by
  obtain ⟨r, rfl, hok, -⟩ := exec_command hi h
  cases r with
  | error f => rfl
  | ok u =>
    obtain ⟨-, -, -, -, -, -, hinbox⟩ := hok u rfl
    exact hinbox

/-! ## Operations that answer -/

/-- Of the commands only GENCODES can fault, and the tree of the invariant excludes it (R156). -/
theorem MachineInv.exec_command_answers {i : Instr} {s : State} (h : MachineInv s) (hi : isCommand i) :
    ∃ t, exec i s = .next t := by
  rcases hi with rfl | rfl | rfl | rfl
  · exact ⟨_, rfl⟩
  · by_cases hv : s.treeValid = true
    · obtain ⟨ls, -, -, -, hnext⟩ := execGencodes_tree hv (h.tree hv)
      exact ⟨_, hnext⟩
    · exact ⟨_, exec_gencodes_of_noTree (eq_false_of_ne_true hv)⟩
  · exact ⟨_, rfl⟩
  · exact ⟨_, rfl⟩

theorem execHostRead_answers (a : Addr) (s : State) : ∃ t, execHostRead a s = .next t := by
  unfold execHostRead
  split <;> exact ⟨_, rfl⟩

theorem execHostWrite_answers (a : Addr) (v : Word) (s : State) : ∃ t, execHostWrite a v s = .next t := by
  rcases execHostWrite_cases a v s with ⟨-, e⟩ | ⟨-, -, -, e⟩ | ⟨-, -, e⟩ <;> exact ⟨_, e⟩

/-- Every bus request is answered, from any state (R207, R402). -/
theorem exec_decodeTxn_answers (w : Txn) (s : State) : ∃ t, exec (decodeTxn w) s = .next t := by
  rcases decodeTxn_cases w with ⟨a, e⟩ | ⟨m, e⟩ | e | ⟨a, v, e, -, -⟩ <;> rw [e]
  · exact execHostRead_answers a s
  · exact ⟨_, rfl⟩
  · exact ⟨_, rfl⟩
  · exact execHostWrite_answers a v s

theorem step_of_fetch_powerOn {s t : State} (h : fetch s = .powerOn t) : step s = .next t.powerOn := by
  simp only [step, h]

/-- Settles O57: by what was fetched; an operation is a bus request or a pending command, and only a command needs the
invariant, which taking the event off `inbox` keeps. -/
theorem theMachineNeverStops : Obligations.TheMachineNeverStops := by
  unfold Obligations.TheMachineNeverStops
  intro s h
  cases hf : fetch s with
  | instr i u =>
    rw [step_of_fetch_instr hf]
    obtain ⟨⟨es, rfl⟩, ⟨w, -, -, rfl⟩ | ⟨w, -, hd⟩⟩ := fetch_instr hf
    · exact exec_decodeTxn_answers w _
    · have taken : MachineInv { s with inbox := es } := h.plain rfl
      exact taken.exec_command_answers (decodeCmd_cases hd)
  | illegal w u => exact ⟨_, step_of_fetch_illegal hf⟩
  | powerOn u => exact ⟨_, step_of_fetch_powerOn hf⟩
  | quiet u => exact ⟨_, step_of_fetch_quiet hf⟩

/-- Settles O6: with no event left the step is the engine's turn, which performs a legal word's command and reports an
illegal word; both end with a completion. -/
theorem pendingCommandCompletes : Obligations.PendingCommandCompletes := by
  unfold Obligations.PendingCommandCompletes
  intro s w hinv he hin
  cases hd : decodeCmd w with
  | ok i =>
    have hi : isCommand i := decodeCmd_cases hd
    obtain ⟨t, ht⟩ := hinv.exec_command_answers hi
    obtain ⟨hidle, hdone, -⟩ := commandsRecordTheirCompletion i s t hi ht
    exact ⟨t, (step_of_pending_noEvent he hin hd).trans ht, hidle, hdone, (exec_command_inbox hi ht).trans hin⟩
  | error e =>
    exact ⟨_, step_of_fetch_illegal ((fetch_of_noEvent hin).trans (engineTurn_of_illegal he hd)), rfl, rfl, hin⟩

end Sys2Proof.Machine
end

section
/-! SUPPORT. The host port while a command is pending: what is gated and what is dropped (R1107, R1108). -/

namespace Sys2Proof.Machine

open Sys2Proof

-- One after another, as above.
set_option Elab.async false

/-- Settles O11: the offset names a gated target, and `readData` answers 0 for it while busy. -/
theorem gatedReadsReturnZeroWhileBusy : Obligations.GatedReadsReturnZeroWhileBusy := by
  unfold Obligations.GatedReadsReturnZeroWhileBusy
  intro s a w hp he h4 hg
  have hgated : (target s.params a).gated = true := (target_kind hp h4).1.2 hg
  exact execHostRead_gated h4 (by rw [busy_of_pending he, hgated]; rfl)

/-- Settles O15: an offset other than the three names a target that takes no write while busy. -/
theorem writesWhileBusyAreDroppedAndFlagged : Obligations.WritesWhileBusyAreDroppedAndFlagged := by
  unfold Obligations.WritesWhileBusyAreDroppedAndFlagged
  intro s a v w he h4 hctrl hen hpend
  have hok : ¬ (target s.params a).busyOk = true := by
    rw [busyOk_iff h4]
    rintro (h | h | h)
    exacts [hctrl (BitVec.eq_of_toNat_eq h), hen (BitVec.eq_of_toNat_eq h), hpend (BitVec.eq_of_toNat_eq h)]
  exact execHostWrite_dropped h4 (by rw [busy_of_pending he, eq_false_of_ne_true hok]; rfl)

end Sys2Proof.Machine
end

section
/-! SUPPORT. The two resets and the state after power-on, in terms of `resetWith` (R160, R1100..R1103). -/

namespace Sys2Proof.Machine

open Sys2Proof

-- One after another, as above.
set_option Elab.async false

/-! ## The soft reset -/

/-- The registers after a soft reset are those of the reset state; the response and the events are kept (R160). -/
theorem State.softReset_eq (s : State) : s.softReset =
    { State.resetWith s.params with
      node := s.node, code := s.code, symBuf := s.softReset.symBuf, byteBuf := s.softReset.byteBuf,
      symDraw := s.softReset.symDraw, byteDraw := s.softReset.byteDraw, resp := s.resp, inbox := s.inbox } := by
  rcases State.softReset_cases s with ⟨-, e⟩ | ⟨-, e⟩ | ⟨-, -, e⟩ <;> rw [e] <;> rfl

/-- The bytes of `BYTE_BUF` after a soft reset: drawn anew when it aborts a PACK (R1102). -/
theorem State.softReset_byteAt (s : State) (i : Nat) : s.softReset.byteAt i =
    if s.eng = .pending 0x3 then Config.freeStreamByte (s.byteDraw + 1) i else s.byteAt i := by
  rcases State.softReset_cases s with ⟨h, e⟩ | ⟨h, e⟩ | ⟨h, -, e⟩
  · rw [if_pos h, e]; rfl
  · rw [if_neg (by rw [h]; decide), e]; rfl
  · rw [if_neg h, e]; rfl

/-- The bytes of `SYM_BUF` after a soft reset: drawn anew when it aborts an UNPACK (R1102). -/
theorem State.softReset_symAt (s : State) (i : Nat) : s.softReset.symAt i =
    if s.eng = .pending 0x4 then Config.freeSymByte (s.symDraw + 1) i else s.symAt i := by
  rcases State.softReset_cases s with ⟨h, e⟩ | ⟨h, e⟩ | ⟨-, h, e⟩
  · rw [if_neg (by rw [h]; decide), e]; rfl
  · rw [if_pos h, e]; rfl
  · rw [if_neg h, e]; rfl

/-- A CTRL word with bit 0 set is a soft reset (R306, R406). -/
theorem regWrite_ctrl_of_set {v : Word} (h : v.getLsbD 0 = true) (s : State) : s.regWrite v .ctrl = s.softReset :=
  if_pos h

/-- Settles O24: both forms answer on `softReset`, whose registers are those of `resetWith` and whose buffers are drawn
anew by the command it aborts. -/
theorem softResetLeavesItsResetValues : Obligations.SoftResetLeavesItsResetValues := by
  unfold Obligations.SoftResetLeavesItsResetValues
  intro s v hv
  have hwrite := exec_hostWrite_reg_busyOk (s := s) (a := 0x0000C) (t := .ctrl) (by decide) v rfl
  rw [regWrite_ctrl_of_set hv] at hwrite
  have hregs : answered s.softReset false 0 = _ := congrArg (answered · false 0) s.softReset_eq
  refine ⟨_, rfl, hwrite, hregs, fun k => ?_, fun h i => ?_, fun h i => ?_, fun h i => ?_, fun h i => ?_⟩
  · have hfreq : s.softReset.freq = [] := congrArg State.freq s.softReset_eq
    exact congrArg (fun f => (Cells.get f k).getD 0) hfreq
  · exact (s.softReset_byteAt i).trans (if_pos h)
  · exact (s.softReset_byteAt i).trans (if_neg h)
  · exact (s.softReset_symAt i).trans (if_pos h)
  · exact (s.softReset_symAt i).trans (if_neg h)

/-! ## The reset input and the state after it -/

theorem fetch_of_rstN {s : State} {es : List PortEvent} (h : s.inbox = .rstN :: es) :
    fetch s = .powerOn { s with inbox := es } := by
  simp only [fetch, h]

/-- The reset input leaves the reset state, with both draws advanced and the events kept (R160, R1100). -/
theorem State.powerOn_eq (s : State) : s.powerOn =
    { State.resetWith s.params with symDraw := s.symDraw + 1, byteDraw := s.byteDraw + 1, inbox := s.inbox } := rfl

/-- Settles O25: the step is `powerOn`, which leaves both buffers unwritten, so that their bytes are the next draw. -/
theorem powerOnResetLeavesItsResetValues : Obligations.PowerOnResetLeavesItsResetValues := by
  unfold Obligations.PowerOnResetLeavesItsResetValues
  intro s es h
  exact ⟨_, step_of_fetch_powerOn (fetch_of_rstN h), State.powerOn_eq _, fun _ => rfl, fun _ => rfl⟩

/-- Every field of `STATUS` is 0 after power-on (R160). -/
theorem resetWith_statusWord (p : Params) : (State.resetWith p).statusWord = 0 := by
  simp [State.statusWord, State.resetWith, State.busy, ErrCode.code, bitAt, fieldAt]

/-- Settles O26: each register that is not a constant is a field of `resetWith`, or computed from such fields. -/
theorem resetStateIsIdleAndZero : Obligations.ResetStateIsIdleAndZero := by
  unfold Obligations.ResetStateIsIdleAndZero
  intro p
  refine ⟨rfl, State.irq_of_noPending rfl, rfl, rfl, resetWith_statusWord p, ?_, ?_, fun _ => rfl⟩
  · simp [gatedReads, State.resetWith]
  · simp [ungatedReads, State.resetWith]

end Sys2Proof.Machine
end

section
/-! SUPPORT. The fields of an encoded request, read back one by one, and the round trip from an operation to its word and
back (R301, R305, R306). -/

namespace Sys2Proof.Machine

open Sys2Proof

-- One after another, as above.
set_option Elab.async false

/-! ## The fields of an encoded request (R305) -/

@[simp] theorem txnWrite_encode (write : Bool) (addr : Addr) (wdata : Word) :
    txnWrite (encodeTxn write addr wdata) = write := by
  rw [txnWrite, getLsbD_encodeTxn _ _ _ (by decide), if_pos rfl]

@[simp] theorem txnAddr_encode (write : Bool) (addr : Addr) (wdata : Word) :
    txnAddr (encodeTxn write addr wdata) = addr := by
  apply BitVec.eq_of_getLsbD_eq
  intro i hi
  rw [txnAddr, BitVec.getLsbD_extractLsb', getLsbD_encodeTxn _ _ _ (by omega)]
  simp [hi, show 32 + i ≠ 50 by omega]

@[simp] theorem txnData_encode (write : Bool) (addr : Addr) (wdata : Word) :
    txnData (encodeTxn write addr wdata) = wdata := by
  apply BitVec.eq_of_getLsbD_eq
  intro i hi
  rw [txnData, BitVec.getLsbD_extractLsb', getLsbD_encodeTxn _ _ _ (by omega)]
  simp [hi, show i ≠ 50 by omega, show ¬ 32 ≤ i by omega]

/-! ## Decoding an encoded request -/

theorem decodeTxn_encode_read (addr : Addr) (wdata : Word) :
    decodeTxn (encodeTxn false addr wdata) = .hostRead addr := by
  simp [decodeTxn]

theorem decodeTxn_encode_write (addr : Addr) (wdata : Word) :
    decodeTxn (encodeTxn true addr wdata) = decodeWrite addr wdata := by
  simp [decodeTxn]

theorem decodeWrite_irqPend (mask : Word) : decodeWrite irqPendAddr mask = .irqAck mask := if_pos rfl

/-- A write that is neither an IRQ_ACK nor a SOFT_RESET is a HOST_WRITE (R402): at CTRL bit 0 is clear, so that the CTRL
decoder refuses the data. -/
theorem decodeWrite_of_wf {addr : Addr} {wdata : Word} (h : (Instr.hostWrite addr wdata).wf = true) :
    decodeWrite addr wdata = .hostWrite addr wdata := by
  obtain ⟨hpend, hctrl⟩ : addr ≠ irqPendAddr ∧ (addr = ctrlAddr → wdata.getLsbD 0 = false) := by
    simpa [Instr.wf, imp_iff_not_or] using h
  rw [decodeWrite, if_neg hpend]
  by_cases ha : addr = ctrlAddr
  · have hempty : decodeCtrl wdata = .error (.emptyCtrl wdata) :=
      if_neg (ne_true_of_eq_false (hctrl ha))
    rw [if_pos ha, hempty]
  · rw [if_neg ha]

/-! ## The statements -/

/-- Settles O1, by the format of the operation's word: a request gives its fields back, and the command words and the CTRL
word are fixed. -/
theorem decodeEncodeGivesTheOperationBack : Obligations.DecodeEncodeGivesTheOperationBack := by
  unfold Obligations.DecodeEncodeGivesTheOperationBack
  intro i hwf
  obtain ⟨hbuild, hgencodes, hpack, hunpack⟩ := decodeCmd_legal
  cases i with
  | hostRead addr => exact congrArg Except.ok (decodeTxn_encode_read addr 0)
  | hostWrite addr wdata =>
    exact congrArg Except.ok ((decodeTxn_encode_write addr wdata).trans (decodeWrite_of_wf hwf))
  | irqAck mask =>
    exact congrArg Except.ok ((decodeTxn_encode_write irqPendAddr mask).trans (decodeWrite_irqPend mask))
  | softReset => rfl
  | build => exact hbuild
  | gencodes => exact hgencodes
  | pack => exact hpack
  | unpack => exact hunpack

/-- Settles O3: the decoders are evaluated on each of the seven words. -/
theorem wordsOfTheSpecDecode : Obligations.WordsOfTheSpecDecode := by
  unfold Obligations.WordsOfTheSpecDecode
  decide

end Sys2Proof.Machine
end

section
/-! SUPPORT. The host port by the kind of offset: a misaligned access, a read of any offset, an unmapped offset, a word
of a buffer window, and any host operation while a command is pending (R202, R205..R207, R212, R402, R1107). -/

namespace Sys2Proof.Machine

open Sys2Proof

-- One after another, as above.
set_option Elab.async false

/-! ## Reads in any state, and misaligned accesses -/

theorem execHostRead_of_aligned {a : Addr} (h4 : aligned a) (s : State) :
    execHostRead a s = .next (answered s false (s.readData a)) :=
  if_neg (ne_true_of_eq_false (misaligned_false h4))

theorem execHostRead_of_misaligned {a : Addr} (h4 : ¬ aligned a) (s : State) :
    execHostRead a s = .next (answered s true 0) :=
  if_pos (misaligned_true h4)

theorem execHostWrite_of_misaligned {a : Addr} (h4 : ¬ aligned a) (v : Word) (s : State) :
    execHostWrite a v s = .next (answered s true 0) :=
  if_pos (misaligned_true h4)

/-- Settles O7: an aligned read answers `readData`, a misaligned one a bus error, and neither depends on the engine. -/
theorem hostReadCompletesAndChangesNoState : Obligations.HostReadCompletesAndChangesNoState := by
  unfold Obligations.HostReadCompletesAndChangesNoState
  intro s a
  by_cases h4 : aligned a
  · exact ⟨false, s.readData a, execHostRead_of_aligned h4 s⟩
  · exact ⟨true, 0, execHostRead_of_misaligned h4 s⟩

/-- Settles O8: alignment is checked before anything else, in a read and in a write. -/
theorem misalignedAccessIsABusErrorWithoutEffect : Obligations.MisalignedAccessIsABusErrorWithoutEffect := by
  unfold Obligations.MisalignedAccessIsABusErrorWithoutEffect
  exact fun s _ v h4 => ⟨execHostRead_of_misaligned h4 s, execHostWrite_of_misaligned h4 v s⟩

/-! ## Accesses while no command is pending -/

theorem aligned_ofNat {n : Nat} (h : n % 4 = 0) : aligned (BitVec.ofNat 18 n) := by
  rw [aligned, BitVec.toNat_ofNat]
  omega

theorem exec_hostRead_idle {s : State} {a : Addr} {t : Target} (he : s.eng = .idle) (h4 : aligned a)
    (ht : target s.params a = t) : exec (.hostRead a) s = .next (answered s false (s.regRead t)) :=
  execHostRead_value h4 ht (by rw [busy_of_idle he, Bool.false_and])

theorem exec_hostWrite_idle {s : State} {a : Addr} {t : Target} (he : s.eng = .idle) (h4 : aligned a)
    (ht : target s.params a = t) (v : Word) :
    exec (.hostWrite a v) s = .next (answered (s.regWrite v t) false 0) :=
  execHostWrite_effect h4 ht (by rw [busy_of_idle he, Bool.false_and])

/-! ## Unmapped offsets -/

theorem unmappedOffset.target_eq {p : Params} {a : Addr} (h : unmappedOffset p a) (hp : p.legal = true)
    (h4 : aligned a) : target p a = .unmapped :=
  (target_kind hp h4).2.2 h

/-- No register that accepts writes while busy lies at an unmapped offset (R400). -/
theorem unmappedOffset.busyOk_eq {p : Params} {a : Addr} (h : unmappedOffset p a) (hp : p.legal = true)
    (h4 : aligned a) : (target p a).busyOk = false := by
  rw [h.target_eq hp h4]; rfl

/-- Settles O14: the offset names `unmapped`, which is not gated, reads as 0, ignores a write and takes none while
busy. -/
theorem unmappedOffsetsReadZeroAndIgnoreWrites : Obligations.UnmappedOffsetsReadZeroAndIgnoreWrites := by
  unfold Obligations.UnmappedOffsetsReadZeroAndIgnoreWrites
  intro s a v hp h4 hu
  have ht : target s.params a = .unmapped := hu.target_eq hp h4
  refine ⟨execHostRead_value h4 ht (Bool.and_false _), fun he => exec_hostWrite_idle he h4 ht v, fun w he => ?_⟩
  exact execHostWrite_dropped h4 (by rw [busy_of_pending he, hu.busyOk_eq hp h4]; rfl)

/-! ## The buffer windows -/

/-- A buffer `g` that is `f` with the bytes of a word written from index `a` on: the lanes of the word, and the bytes
outside them (R202). -/
theorem splitWord_lanes {f g : Nat → Byte} {a : Nat} {v : Word}
    (h : ∀ i, g i = if a ≤ i then ((splitWord v)[i - a]?).getD (f i) else f i) :
    g a = v.extractLsb' 24 8 ∧ g (a + 1) = v.extractLsb' 16 8 ∧ g (a + 2) = v.extractLsb' 8 8 ∧
    g (a + 3) = v.extractLsb' 0 8 ∧ ∀ i, i < a ∨ a + 3 < i → g i = f i := by
  and_intros
  iterate 4 simp [h, splitWord]
  rintro i (hi | hi) <;> rw [h]
  · exact if_neg (by omega)
  · have past : (splitWord v)[i - a]? = none :=
      List.getElem?_eq_none (by simp only [splitWord, List.length_cons, List.length_nil]; omega)
    rw [past, Option.getD_none, ite_self]

/-- Settles O20: the write is `writeSyms` or `writeBytes` of the word's four bytes at byte index `4 * w`. -/
theorem windowWritesStoreBigEndian : Obligations.WindowWritesStoreBigEndian := by
  unfold Obligations.WindowWritesStoreBigEndian
  intro s w v hp he
  refine ⟨fun hw => ⟨_, exec_hostWrite_idle he (aligned_ofNat (by omega)) (target_symWord hp hw) v, rfl, ?_⟩,
    fun hw => ⟨_, exec_hostWrite_idle he (aligned_ofNat (by omega)) (target_byteWord hp hw) v, rfl, ?_⟩⟩
  · exact splitWord_lanes fun i => State.symAt_writeSyms s (4 * w) i (splitWord v)
  · exact splitWord_lanes fun i => State.byteAt_writeBytes s (4 * w) i (splitWord v)

/-- Settles O21: the read data is the window word, which joins the four bytes. -/
theorem windowReadsAreBigEndian : Obligations.WindowReadsAreBigEndian := by
  unfold Obligations.WindowReadsAreBigEndian
  intro s w hp he
  refine ⟨fun hw => ⟨s.symWordAt w, ?_, joinBytes_bytes _ _ _ _⟩,
    fun hw => ⟨s.byteWordAt w, ?_, joinBytes_bytes _ _ _ _⟩⟩
  · exact exec_hostRead_idle he (aligned_ofNat (by omega)) (target_symWord hp hw)
  · exact exec_hostRead_idle he (aligned_ofNat (by omega)) (target_byteWord hp hw)

/-! ## Host operations while a command is pending -/

/-- The registers that accept writes while busy (R400). -/
theorem Target.busyOk_cases {t : Target} (h : t.busyOk = true) : t = .ctrl ∨ t = .irqEn ∨ t = .irqPend := by
  cases t <;> simp [Target.busyOk] at h ⊢

/-- `t` is `s` up to the interrupt registers and the response, which no command reads (R212). -/
def State.keepsInputs (s t : State) : Prop := t = { s with irqEn := t.irqEn, irqPend := t.irqPend, resp := t.resp }

/-- A write to a register that takes writes while busy changes an interrupt register only, unless it is a soft reset. -/
theorem regWrite_keepsInputs {s : State} {v : Word} {t : Target} (h : t.busyOk = true)
    (hc : t = .ctrl → v.getLsbD 0 = false) : s.keepsInputs (s.regWrite v t) := by
  rcases Target.busyOk_cases h with rfl | rfl | rfl
  · rw [regWrite_ctrl_of_clear (hc rfl)]; rfl
  · rfl
  · rfl

/-- A well-formed HOST_WRITE to CTRL is no soft reset (R406). -/
theorem ctrlWrite_clear_of_wf {v : Word} (h : (Instr.hostWrite ctrlAddr v).wf = true) : v.getLsbD 0 = false := by
  simpa [Instr.wf] using h

/-- A write while busy is refused, dropped with its flag, or a write to CTRL, IRQ_EN or IRQ_PEND (R1107). -/
theorem execHostWrite_keepsInputs {s t : State} {a : Addr} {v : Word} (hb : s.busy = true)
    (hwf : (Instr.hostWrite a v).wf = true) (h : execHostWrite a v s = .next t) : s.keepsInputs t := by
  rcases execHostWrite_cases a v s with ⟨-, e⟩ | ⟨-, -, -, e⟩ | ⟨h4, hok, e⟩ <;>
    obtain rfl := Host.Outcome.next.inj (e.symm.trans h)
  · rfl
  · rfl
  · have hok : (target s.params a).busyOk = true := hok.resolve_left (by simp [hb])
    have hctrl : target s.params a = .ctrl → v.getLsbD 0 = false := fun ht =>
      ctrlWrite_clear_of_wf ((target_addr h4).1 ht ▸ hwf)
    exact congrArg (answered · false 0) (regWrite_keepsInputs hok hctrl)

/-- Settles O23, by the kind of host operation: a read changes the response only, an acknowledge the pending flags, and
a write while busy at most the interrupt registers. -/
theorem pendingCommandKeepsItsInputs : Obligations.PendingCommandKeepsItsInputs := by
  unfold Obligations.PendingCommandKeepsItsInputs
  rintro s t w i he hwf (⟨a, rfl⟩ | ⟨a, v, rfl⟩ | ⟨m, rfl⟩) h
  · obtain ⟨e, d, hread⟩ := hostReadCompletesAndChangesNoState s a
    obtain rfl := Host.Outcome.next.inj (hread.symm.trans h)
    rfl
  · exact execHostWrite_keepsInputs (busy_of_pending he) hwf h
  · obtain rfl := Host.Outcome.next.inj h
    rfl

end Sys2Proof.Machine
end
